-- ==== Sys2Proof/Word.lean ====
section
/-! DEFINITION. The word types of the xArm protocol codec block (spec 00_scope.md R8, R9, R11). -/

namespace Sys2Proof

/-- `u8` (R8): a byte, bit 0 least significant. -/
abbrev Byte := BitVec 8

/-- `u16` (R8): 0 to 65535. -/
abbrev Half := BitVec 16

/-- `i32` (R9): a two's-complement 32-bit integer, read through `BitVec.toInt`. -/
abbrev Word := BitVec 32

/-- `f64` (R11, R180): an IEEE 754 binary64 value, held as its 64-bit pattern. -/
abbrev F64 := BitVec 64

/-- The contents of one addressed space (R50): the written cells, each with its offset, offsets strictly rising.
A cell that is not listed is *unwritten* and holds no value (R39). `Cells Byte` is a list of `Host.Cell`. -/
abbrev Cells (α : Type) := List (Nat × α)

end Sys2Proof
end

