-- ==== Sys2Proof/Config.lean ====
section
/-! DEFINITION. The configuration of the block (00_scope.md R5 to R7, 10_state.md R40): fixed for a run and written by no
operation. The fixed parameters of R5 are constants. Every parameter of R6 and R7 is part of `Params`, the argument a step
takes them in; the ones the spec leaves open have, at reset, the value of a constant with no body, so that a statement
holds for every value of them. -/

namespace Sys2Proof.Config

/-- `SIG`, both signature bytes of a frame, hardwired (R5, R33). -/
def sig : Byte := 0x55#8

/-- The longest unit A payload: 64 bytes less the 4 before the payload (R70, D13). -/
def payloadMaxA : Nat := 60

/-- `RXA_MAX` (R5). -/
def rxaMax : Nat := 64

/-- The longest unit B payload, since `LEN = P + 3` is one byte (R73, D16). -/
def payloadMaxB : Nat := 252

/-- `RXB_MAX` and `TXB_MAX` (R6, D16). -/
def rxbMax : Nat := 258

/-- `USB_MAX_WRITE` (R5). -/
def usbMaxWrite : Nat := 64

/-- `RAW_MAX` (R5). -/
def rawMax : Nat := 1000

/-- `B_TIME_MAX`, in ms (R5). -/
def timeMax : Nat := 30000

/-- `B_VIN_MIN`, in mV (R5). -/
def vinMin : Nat := 4500

/-- `B_VIN_MAX`, in mV (R5). -/
def vinMax : Nat := 12000

/-- `B_TEMP_MIN`, in degrees Celsius (R5). -/
def tempMin : Nat := 50

/-- `B_TEMP_MAX`, in degrees Celsius (R5). -/
def tempMax : Nat := 100

/-- `B_BROADCAST` (R5). -/
def broadcastId : Byte := 254#8

/-- `PZ_N`, the number of height-table entries (R5). -/
def pzEntries : Nat := 128

/-- The largest servo count of a unit A set-positions or get-positions operation (R103, R104, R110). -/
def posCountMax : Nat := 19

/-- The largest servo count of a unit A stop (R105). -/
def stopCountMax : Nat := 59

/-- `CMD_A_SETPOS` (R5). -/
def cmdASetpos : Byte := 0x03#8

/-- `CMD_B_MOVE_TIME_WRITE` (R5). -/
def cmdBMoveTimeWrite : Byte := 1#8

/-- The names of the unit B command table (R79), in its order. -/
inductive CommandName where
  | moveTimeWrite
  | moveTimeRead
  | moveTimeWaitWrite
  | moveTimeWaitRead
  | moveStart
  | moveStop
  | idWrite
  | idRead
  | angleOffsetAdjust
  | angleOffsetWrite
  | angleOffsetRead
  | angleLimitWrite
  | angleLimitRead
  | vinLimitWrite
  | vinLimitRead
  | tempMaxLimitWrite
  | tempMaxLimitRead
  | tempRead
  | vinRead
  | posRead
  | orMotorModeWrite
  | orMotorModeRead
  | loadOrUnloadWrite
  | loadOrUnloadRead
  | ledCtrlWrite
  | ledCtrlRead
  | ledErrorWrite
  | ledErrorRead
  deriving DecidableEq, Repr

/-- Which validation of R142 a unit B command carries (the `bounds` column of R79). -/
inductive Bounds where
  | unbounded
  | move
  | angleLimit
  | vin
  | temp
  deriving DecidableEq, Repr

/-- One row of a unit B command table (R79): its name, `none` for a command R79 does not name; the code, the request
payload length `Preq`, whether a reply frame follows, the reply payload length `Prep`, and the bounds. -/
structure CommandRow where
  name : Option CommandName
  code : Byte
  preq : Nat
  reply : Bool
  prep : Option Nat
  bounds : Bounds
  deriving DecidableEq, Repr

/-- The command bytes as configuration (R7): `CMD_A_GETPOS`, `CMD_A_STOP`, `CMD_A_BATT`, and the rows of the unit B command
table but for that of `MOVE_TIME_WRITE`, which R5 fixes. -/
structure Commands where
  getpos : Byte
  stop : Byte
  batt : Byte
  table : List CommandRow
  deriving DecidableEq, Repr

/-- The values of `ROUND_MIDPOINT` (R6, D24). -/
inductive Midpoint where
  | toEven
  | awayFromZero
  deriving DecidableEq, Repr, Inhabited

/-- A total function binary64 → binary64 (R6) as plain data: its arguments and values, `+0` where an argument is not
listed. Since there are `2^64` arguments, every total function is one of these. -/
abbrev FunTable := List (F64 × F64)

/-- The parameters of unit M (R6, R11): `ROUND_MIDPOINT`, `NUM_SIN`, `NUM_COS`, `NUM_ATAN`. -/
structure Numeric where
  midpoint : Midpoint
  sin : FunTable
  cos : FunTable
  atan : FunTable
  deriving DecidableEq, Repr

/-- The values of `TRANSPORT_KIND` (R6, D35). -/
inductive Transport where
  | usb
  | serial
  deriving DecidableEq, Repr, Inhabited

/-- The configuration of a run (R40): the parameters of R6 and R7. No operation of the block reads `TRANSPORT_KIND` or
`READ_TIMEOUT` (D35). -/
structure Params where
  commands : Commands
  numeric : Numeric
  transportKind : Transport
  readTimeout : Nat
  deriving DecidableEq, Repr

/-! ### The values the spec leaves open -/

/-- `ROUND_MIDPOINT` at reset: OPEN (R6). notes/assumptions/12.md. -/
opaque roundMidpoint : Midpoint

/-- `TRANSPORT_KIND` at reset: OPEN (R6). notes/assumptions/12.md. -/
opaque transportKind : Transport

/-- `READ_TIMEOUT` at reset (R6, R272), in some unit of time, less one so that it is positive: OPEN.
notes/assumptions/12.md. -/
opaque readTimeoutPred : Nat

/-- `NUM_SIN` at reset: OPEN (R6), any total function. notes/assumptions/10.md. -/
opaque sinTable : FunTable

/-- `NUM_COS` at reset: OPEN (R6), any total function. notes/assumptions/10.md. -/
opaque cosTable : FunTable

/-- What `NUM_ATAN` at reset is made of: OPEN (R6). notes/assumptions/10.md. -/
opaque atanTable : FunTable

/-- The free part of `M.A2R` where the formula overflows binary64, for each ServoDefinition and each whole part of the
exact quotient. DESIGN CHOICE, notes/assumptions/11.md. -/
opaque a2rThreshold : F64 → F64 → Nat → Nat

end Sys2Proof.Config
end

