-- ==== Sys2Proof/Machine/Commands.lean ====
section
/-! DEFINITION. The unit B command table (30_encoding.md R79) and the lookups in a configuration's command bytes and table
(00_scope.md R7). -/

namespace Sys2Proof.Machine

open Sys2Proof.Config

/-- The rows of R79. Only code 1 is in the source; the rest is the default of a configuration. PRESUMED,
notes/assumptions/6.md. -/
def commandRow : CommandName → CommandRow
  | .moveTimeWrite => ⟨some .moveTimeWrite, 1#8, 4, false, none, .move⟩
  | .moveTimeRead => ⟨some .moveTimeRead, 2#8, 0, true, some 4, .unbounded⟩
  | .moveTimeWaitWrite => ⟨some .moveTimeWaitWrite, 7#8, 4, false, none, .move⟩
  | .moveTimeWaitRead => ⟨some .moveTimeWaitRead, 8#8, 0, true, some 4, .unbounded⟩
  | .moveStart => ⟨some .moveStart, 11#8, 0, false, none, .unbounded⟩
  | .moveStop => ⟨some .moveStop, 12#8, 0, false, none, .unbounded⟩
  | .idWrite => ⟨some .idWrite, 13#8, 1, false, none, .unbounded⟩
  | .idRead => ⟨some .idRead, 14#8, 0, true, some 1, .unbounded⟩
  | .angleOffsetAdjust => ⟨some .angleOffsetAdjust, 17#8, 1, false, none, .unbounded⟩
  | .angleOffsetWrite => ⟨some .angleOffsetWrite, 18#8, 0, false, none, .unbounded⟩
  | .angleOffsetRead => ⟨some .angleOffsetRead, 19#8, 0, true, some 1, .unbounded⟩
  | .angleLimitWrite => ⟨some .angleLimitWrite, 20#8, 4, false, none, .angleLimit⟩
  | .angleLimitRead => ⟨some .angleLimitRead, 21#8, 0, true, some 4, .unbounded⟩
  | .vinLimitWrite => ⟨some .vinLimitWrite, 22#8, 4, false, none, .vin⟩
  | .vinLimitRead => ⟨some .vinLimitRead, 23#8, 0, true, some 4, .unbounded⟩
  | .tempMaxLimitWrite => ⟨some .tempMaxLimitWrite, 24#8, 1, false, none, .temp⟩
  | .tempMaxLimitRead => ⟨some .tempMaxLimitRead, 25#8, 0, true, some 1, .unbounded⟩
  | .tempRead => ⟨some .tempRead, 26#8, 0, true, some 1, .unbounded⟩
  | .vinRead => ⟨some .vinRead, 27#8, 0, true, some 2, .unbounded⟩
  | .posRead => ⟨some .posRead, 28#8, 0, true, some 2, .unbounded⟩
  | .orMotorModeWrite => ⟨some .orMotorModeWrite, 29#8, 4, false, none, .unbounded⟩
  | .orMotorModeRead => ⟨some .orMotorModeRead, 30#8, 0, true, some 4, .unbounded⟩
  | .loadOrUnloadWrite => ⟨some .loadOrUnloadWrite, 31#8, 1, false, none, .unbounded⟩
  | .loadOrUnloadRead => ⟨some .loadOrUnloadRead, 32#8, 0, true, some 1, .unbounded⟩
  | .ledCtrlWrite => ⟨some .ledCtrlWrite, 33#8, 1, false, none, .unbounded⟩
  | .ledCtrlRead => ⟨some .ledCtrlRead, 34#8, 0, true, some 1, .unbounded⟩
  | .ledErrorWrite => ⟨some .ledErrorWrite, 35#8, 1, false, none, .unbounded⟩
  | .ledErrorRead => ⟨some .ledErrorRead, 36#8, 0, true, some 1, .unbounded⟩

/-- The names of the table in its order. -/
def allCommands : List CommandName :=
  [ .moveTimeWrite, .moveTimeRead, .moveTimeWaitWrite, .moveTimeWaitRead, .moveStart,
    .moveStop, .idWrite, .idRead, .angleOffsetAdjust, .angleOffsetWrite,
    .angleOffsetRead, .angleLimitWrite, .angleLimitRead, .vinLimitWrite, .vinLimitRead,
    .tempMaxLimitWrite, .tempMaxLimitRead, .tempRead, .vinRead, .posRead,
    .orMotorModeWrite, .orMotorModeRead, .loadOrUnloadWrite, .loadOrUnloadRead, .ledCtrlWrite,
    .ledCtrlRead, .ledErrorWrite, .ledErrorRead ]

/-- The unit B command table of a configuration: `MOVE_TIME_WRITE`, which R5 and R78 fix, and the rows it gives. -/
def commandTable (c : Commands) : List CommandRow := commandRow .moveTimeWrite :: c.table

/-- The row of a name, if the table has it. -/
def rowNamed (c : Commands) (n : CommandName) : Option CommandRow := (commandTable c).find? fun r => r.name == some n

/-- The row of a code, if the code is in the table (R143). -/
def rowOf (c : Commands) (code : Byte) : Option CommandRow := (commandTable c).find? fun r => r.code == code

/-- The code that the rules of a command use: its row's, or R79's where the table has no row of that name. DESIGN CHOICE,
notes/assumptions/15.md. -/
def codeOf (c : Commands) (n : CommandName) : Byte := ((rowNamed c n).getD (commandRow n)).code

/-- The name whose rules use a code, if one does. -/
def commandOf (c : Commands) (code : Byte) : Option CommandName := allCommands.find? fun n => codeOf c n == code

/-- The number of payload bytes a validation of R142 reads. -/
def boundsWidth : Bounds → Nat
  | .unbounded => 0
  | .move => 4
  | .angleLimit => 4
  | .vin => 4
  | .temp => 1

/-- The command bytes are usable: the unit A commands are distinct from each other and from `CMD_A_SETPOS` (R7), no two
names and no two rows of the unit B table share a code, and a bounded row's payload holds what its bounds are about. -/
def commandsOk (c : Commands) : Bool :=
  decide ([cmdASetpos, c.getpos, c.stop, c.batt].Nodup ∧ (allCommands.map (codeOf c)).Nodup ∧
    ((commandTable c).map CommandRow.code).Nodup) && (commandTable c).all fun r => decide (boundsWidth r.bounds ≤ r.preq)

/-- The commands that have a typed encode (R144 to R148). -/
def typedCommands : List CommandName :=
  [.moveTimeWrite, .moveTimeWaitWrite, .angleLimitWrite, .vinLimitWrite, .tempMaxLimitWrite]

/-- The table gives the command of each typed encode the length and the bounds that encode keeps (R142, R144 to R148, D18),
where it gives it any. -/
def typedRowsOk (c : Commands) : Bool :=
  typedCommands.all fun n => (commandTable c).all fun r =>
    decide (r.code = codeOf c n → r.bounds = (commandRow n).bounds ∧ r.preq = (commandRow n).preq)

/-- The rows of R79 but for the first. -/
def defaultRows : List CommandRow := allCommands.tail.map commandRow

/-- The defaults of R7 and R79. PRESUMED, notes/assumptions/5.md and notes/assumptions/6.md. -/
def defaultCommands : Commands := { getpos := 0x15#8, stop := 0x14#8, batt := 0x0F#8, table := defaultRows }

end Sys2Proof.Machine
end

