-- ==== Sys2Proof/Machine/Operands.lean ====
section
/-! DEFINITION. Byte order and field assembly (00_scope.md R8, 20_memory.md R52, 30_encoding.md R74). -/

namespace Sys2Proof.Machine

/-- `lowByte(v) = v[7:0]` (R8). -/
def lowByte (v : Half) : Byte := BitVec.ofNat 8 (v.toNat % 256)

/-- `highByte(v) = v[15:8]` (R8). -/
def highByte (v : Half) : Byte := BitVec.ofNat 8 (v.toNat / 256)

/-- `le16(b0, b1) = b0 + 256*b1` (R8), `b0` at the lower offset. -/
def le16 (b0 b1 : Byte) : Half := BitVec.ofNat 16 (b0.toNat + 256 * b1.toNat)

/-- `s8(b)` (R8): a byte read as two's complement. -/
def s8 (b : Byte) : Int := if 128 ≤ b.toNat then (b.toNat : Int) - 256 else b.toNat

/-- `s16(v)` (R8): a `u16` read as two's complement. -/
def s16 (v : Half) : Int := if 32768 ≤ v.toNat then (v.toNat : Int) - 65536 else v.toNat

/-- `zext_16` of a byte (R8). -/
def zext16 (b : Byte) : Half := BitVec.ofNat 16 b.toNat

/-- The two bytes of a `u16` field, low byte first (R52). -/
def bytes16 (v : Half) : List Byte := [lowByte v, highByte v]

/-- The four bytes of an `i32` operand on the request port, low byte first. DESIGN CHOICE, notes/assumptions/1.md. -/
def bytes32 (v : Word) : List Byte :=
  [BitVec.ofNat 8 (v.toNat % 256), BitVec.ofNat 8 (v.toNat / 256 % 256),
   BitVec.ofNat 8 (v.toNat / 65536 % 256), BitVec.ofNat 8 (v.toNat / 16777216 % 256)]

/-- Four bytes as an `i32` operand, low byte first. DESIGN CHOICE, notes/assumptions/1.md. -/
def le32 (b0 b1 b2 b3 : Byte) : Word :=
  BitVec.ofNat 32 (b0.toNat + 256 * b1.toNat + 65536 * b2.toNat + 16777216 * b3.toNat)

/-- The eight bytes of an `f64` operand on the request port, low byte of its binary64 pattern first. DESIGN CHOICE,
notes/assumptions/1.md. -/
def bytes64 (v : F64) : List Byte :=
  bytes32 (BitVec.ofNat 32 (v.toNat % 4294967296)) ++ bytes32 (BitVec.ofNat 32 (v.toNat / 4294967296))

/-- Two 32-bit halves as an `f64` pattern, low half first. -/
def le64 (lo hi : Word) : F64 := BitVec.ofNat 64 (lo.toNat + 4294967296 * hi.toNat)

/-- A servo count, payload length or byte count as the one byte that carries it. -/
def countByte (n : Nat) : Byte := BitVec.ofNat 8 n

/-- A byte count as the `u16` that carries it. -/
def countHalf (n : Nat) : Half := BitVec.ofNat 16 n

end Sys2Proof.Machine
end

