-- ==== Sys2Proof/Syntax.lean ====
section
/-! DEFINITION. The operations of the block as syntax: one constructor for each row of spec/opcode_table.json
(30_encoding.md R75, R77, R79), and the request as it stands on the request port (10_state.md R24). -/

namespace Sys2Proof

/-- A servo-position pair `(id, pos)` (R84): `id` a `u8`, `pos` a `u16`. -/
structure ServoPos where
  id : Byte
  pos : Half
  deriving DecidableEq, Repr

/-- How the host names the operation it wants. `request` is the request port of R24: an `OP` byte and an operand
record. `wireA` and `wireB` name an encode by the command frame it is to produce (the wire rows of the opcode table);
that the unit is chosen by the host and not told from the bytes is R83. DESIGN CHOICE, notes/assumptions/2.md. -/
inductive Form where
  | request
  | wireA
  | wireB
  deriving DecidableEq, Repr

/-- One request as bytes (R24): the form and the bytes from offset 0. -/
structure Request where
  form : Form
  bytes : List Byte
  deriving DecidableEq, Repr

/-- The operations. A count operand (`P`, `n`, `N`) is the length of the list it counts. The first 25 constructors are
the request-port selectors of R75; the next 4 the unit A command frames of R77; the last 28 the unit B command frames
of R79, each with the operands its request payload carries. -/
inductive Instr where
  -- unit A, request port
  | aEnc (cmd : Byte) (resp : Bool) (p : List Byte)
  | aSetpos (dur : Half) (pairs : List ServoPos)
  | aGetpos (ids : List Byte)
  | aStop (ids : List Byte)
  | aBatt
  | aRxload (b : List Byte)
  | aDec (cmd : Byte) (elen : Byte)
  | aDecpos (ids : List Byte)
  | aDecbatt
  -- unit B, request port
  | bEnc (cmd : Byte) (id : Byte) (resp : Bool) (p : List Byte)
  | bMove (id : Byte) (pos time : Half)
  | bMovew (id : Byte) (pos time : Half)
  | bAnglim (id : Byte) (mn mx : Half)
  | bVinlim (id : Byte) (mn mx : Half)
  | bTemplim (id : Byte) (t : Half)
  | bRxload (b : List Byte)
  | bDec (ecmd : Byte) (eid : Byte)
  | bChk (b : List Byte)
  -- unit M, request port
  | mA2r (angle mn mx : F64)
  | mR2a (raw : Word) (mn mx : F64)
  | mLoadarm (l1 l2 l3 l4 : F64)
  | mPz (i : Byte)
  | mZ2i (z : F64)
  | mI2r (i : Byte)
  | mTeta (x y : F64)
  -- unit A command frames
  | cmdASetpos (dur : Half) (pairs : List ServoPos)
  | cmdAGetpos (ids : List Byte)
  | cmdAStop (ids : List Byte)
  | cmdABatt
  -- unit B command frames
  | moveTimeWrite (id : Byte) (pos time : Half)
  | moveTimeRead (id : Byte)
  | moveTimeWaitWrite (id : Byte) (pos time : Half)
  | moveTimeWaitRead (id : Byte)
  | moveStart (id : Byte)
  | moveStop (id : Byte)
  | idWrite (id : Byte) (p0 : Byte)
  | idRead (id : Byte)
  | angleOffsetAdjust (id : Byte) (p0 : Byte)
  | angleOffsetWrite (id : Byte)
  | angleOffsetRead (id : Byte)
  | angleLimitWrite (id : Byte) (mn mx : Half)
  | angleLimitRead (id : Byte)
  | vinLimitWrite (id : Byte) (mn mx : Half)
  | vinLimitRead (id : Byte)
  | tempMaxLimitWrite (id : Byte) (p0 : Byte)
  | tempMaxLimitRead (id : Byte)
  | tempRead (id : Byte)
  | vinRead (id : Byte)
  | posRead (id : Byte)
  | orMotorModeWrite (id : Byte) (p0 p1 p2 p3 : Byte)
  | orMotorModeRead (id : Byte)
  | loadOrUnloadWrite (id : Byte) (p0 : Byte)
  | loadOrUnloadRead (id : Byte)
  | ledCtrlWrite (id : Byte) (p0 : Byte)
  | ledCtrlRead (id : Byte)
  | ledErrorWrite (id : Byte) (p0 : Byte)
  | ledErrorRead (id : Byte)
  deriving DecidableEq, Repr

end Sys2Proof
end

