-- ==== Sys2Proof/Machine/Frames.lean ====
section
/-! DEFINITION. The wire frames of the two codecs: checksum, frame layouts and payload layouts (30_encoding.md R70, R71,
R73; 41_codec_b.md R140, R141). -/

namespace Sys2Proof.Machine

/-- The exact integer sum of a byte sequence (R140). -/
def byteSum : List Byte → Nat
  | [] => 0
  | b :: bs => b.toNat + byteSum bs

/-- `Checksum(s) = 255 - (sum(s) mod 256)` (R140). -/
def checksum (bs : List Byte) : Byte := BitVec.ofNat 8 (255 - byteSum bs % 256)

/-- The unit A frame of command `cmd` and payload `p` (R70, R101): 64 bytes whenever `p` has at most 60. -/
def frameA (cmd : Byte) (p : List Byte) : List Byte :=
  [Config.sig, Config.sig, countByte (p.length + 2), cmd] ++ p ++ List.replicate (Config.payloadMaxA - p.length) 0#8

/-- The bytes of a unit B frame that its checksum covers: id, length, command and payload (R140). -/
def frameBodyB (cmd id : Byte) (p : List Byte) : List Byte := id :: countByte (p.length + 3) :: cmd :: p

/-- The unit B frame of command `cmd`, servo `id` and payload `p` (R73, R141): `p.length + 6` bytes. -/
def frameB (cmd id : Byte) (p : List Byte) : List Byte :=
  [Config.sig, Config.sig] ++ frameBodyB cmd id p ++ [checksum (frameBodyB cmd id p)]

/-- The triples `(id, lowByte(pos), highByte(pos))` in caller order (R71). -/
def triples : List ServoPos → List Byte
  | [] => []
  | q :: qs => q.id :: lowByte q.pos :: highByte q.pos :: triples qs

/-- The set-positions payload (R71). -/
def setposPayload (dur : Half) (pairs : List ServoPos) : List Byte :=
  countByte pairs.length :: (bytes16 dur ++ triples pairs)

/-- The get-positions request payload and the stop payload (R71): a count and the ids. PRESUMED,
notes/assumptions/5.md. -/
def idsPayload (ids : List Byte) : List Byte := countByte ids.length :: ids

/-- The get-positions reply payload (R71), which the device sends. -/
def positionsPayload (pairs : List ServoPos) : List Byte := countByte pairs.length :: triples pairs

/-- The battery reply payload (R71), which the device sends. PRESUMED, notes/assumptions/5.md. -/
def batteryPayload (mv : Half) : List Byte := bytes16 mv

end Sys2Proof.Machine
end

