-- ==== Sys2Proof/WellFormed.lean ====
section
/-! DEFINITION. Which operations a request can carry: every count fits the width its rule gives it (R102 to R110, R143
to R152), and a unit A command frame holds its whole payload (R70, R71). -/

namespace Sys2Proof

/-- A list whose count operand is a `u8`. -/
abbrev countFitsU8 {α : Type} (l : List α) : Bool := decide (l.length ≤ 255)

/-- A list whose count operand is a `u16`. -/
abbrev countFitsU16 {α : Type} (l : List α) : Bool := decide (l.length ≤ 65535)

/-- The request can carry the operation. Operand *values* are not restricted here: a value outside an operation's
domain is a request the block answers with an outcome (R82), not an ill-formed one. -/
def Instr.wellFormed : Instr → Bool
  | .aEnc _ _ p => countFitsU8 p
  | .aSetpos _ pairs => countFitsU8 pairs
  | .aGetpos ids => countFitsU8 ids
  | .aStop ids => countFitsU8 ids
  | .aBatt => true
  | .aRxload b => countFitsU8 b
  | .aDec _ _ => true
  | .aDecpos ids => countFitsU8 ids
  | .aDecbatt => true
  | .bEnc _ _ _ p => countFitsU8 p
  | .bMove _ _ _ => true
  | .bMovew _ _ _ => true
  | .bAnglim _ _ _ => true
  | .bVinlim _ _ _ => true
  | .bTemplim _ _ => true
  | .bRxload b => countFitsU16 b
  | .bDec _ _ => true
  | .bChk b => countFitsU8 b
  | .mA2r _ _ _ => true
  | .mR2a _ _ _ => true
  | .mLoadarm _ _ _ _ => true
  | .mPz _ => true
  | .mZ2i _ => true
  | .mI2r _ => true
  | .mTeta _ _ => true
  | .cmdASetpos _ pairs => decide (3 + 3 * pairs.length ≤ 60)
  | .cmdAGetpos ids => decide (1 + ids.length ≤ 60)
  | .cmdAStop ids => decide (1 + ids.length ≤ 60)
  | .cmdABatt => true
  | .moveTimeWrite _ _ _ => true
  | .moveTimeRead _ => true
  | .moveTimeWaitWrite _ _ _ => true
  | .moveTimeWaitRead _ => true
  | .moveStart _ => true
  | .moveStop _ => true
  | .idWrite _ _ => true
  | .idRead _ => true
  | .angleOffsetAdjust _ _ => true
  | .angleOffsetWrite _ => true
  | .angleOffsetRead _ => true
  | .angleLimitWrite _ _ _ => true
  | .angleLimitRead _ => true
  | .vinLimitWrite _ _ _ => true
  | .vinLimitRead _ => true
  | .tempMaxLimitWrite _ _ => true
  | .tempMaxLimitRead _ => true
  | .tempRead _ => true
  | .vinRead _ => true
  | .posRead _ => true
  | .orMotorModeWrite _ _ _ _ _ => true
  | .orMotorModeRead _ => true
  | .loadOrUnloadWrite _ _ => true
  | .loadOrUnloadRead _ => true
  | .ledCtrlWrite _ _ => true
  | .ledCtrlRead _ => true
  | .ledErrorWrite _ _ => true
  | .ledErrorRead _ => true

end Sys2Proof
end

