-- ==== Sys2Proof/Decode.lean ====
section
/-! DEFINITION. The decoder, total on any bytes, and the encoder (30_encoding.md R70 to R79). A request-port request is
the `OP` byte of R75 and then the operands in the order their rule lists them (R84); how wide each operand stands there is
notes/assumptions/1.md. A wire-form request is a command frame; what of it the decoder reads is notes/assumptions/3.md.
The command bytes are those of the configuration `c` (R7, R40). -/

namespace Sys2Proof

open Machine

/-- Why the decoder rejects bytes. -/
inductive DecodeError where
  /-- `OP` is none of the 25 values of R75, so the request is refused (R223). -/
  | reservedSelector
  /-- The bytes stop before the operand record does. -/
  | shortRecord
  /-- A 1-bit operand's byte is neither 0 nor 1. -/
  | notABit
  /-- A wire-form request that matches no row of the opcode table. -/
  | notACommandFrame
  deriving DecidableEq, Repr

/-- What reading one operand answers: the operand and the bytes after it. -/
abbrev Take (α : Type) := Except DecodeError (α × List Byte)

/-- A `u8` operand. -/
def takeU8 : List Byte → Take Byte
  | b :: bs => .ok (b, bs)
  | [] => .error .shortRecord

/-- A 1-bit operand. -/
def takeBit : List Byte → Take Bool
  | b :: bs => if b = 0#8 then .ok (false, bs) else if b = 1#8 then .ok (true, bs) else .error .notABit
  | [] => .error .shortRecord

/-- A `u16` operand, low byte first. -/
def takeU16 : List Byte → Take Half
  | b0 :: b1 :: bs => .ok (le16 b0 b1, bs)
  | _ => .error .shortRecord

/-- An `i32` operand, low byte first. -/
def takeI32 : List Byte → Take Word
  | b0 :: b1 :: b2 :: b3 :: bs => .ok (le32 b0 b1 b2 b3, bs)
  | _ => .error .shortRecord

/-- An `f64` operand, low byte first. -/
def takeF64 : List Byte → Take F64
  | b0 :: b1 :: b2 :: b3 :: b4 :: b5 :: b6 :: b7 :: bs => .ok (le64 (le32 b0 b1 b2 b3) (le32 b4 b5 b6 b7), bs)
  | _ => .error .shortRecord

/-- `n` bytes. -/
def takeBytes : Nat → List Byte → Take (List Byte)
  | 0, bs => .ok ([], bs)
  | _ + 1, [] => .error .shortRecord
  | n + 1, b :: bs =>
    match takeBytes n bs with
    | .ok (xs, rest) => .ok (b :: xs, rest)
    | .error e => .error e

/-- `n` triples `(id, lowByte(pos), highByte(pos))`. -/
def takePairs : Nat → List Byte → Take (List ServoPos)
  | 0, bs => .ok ([], bs)
  | n + 1, i :: lo :: hi :: bs =>
    match takePairs n bs with
    | .ok (qs, rest) => .ok (⟨i, le16 lo hi⟩ :: qs, rest)
    | .error e => .error e
  | _ + 1, _ => .error .shortRecord

/-- A `u8` count and as many bytes. -/
def takeCounted (bs : List Byte) : Except DecodeError (List Byte × List Byte) := do
  let (n, bs) ← takeU8 bs
  takeBytes n.toNat bs

/-- A `u16` count and as many bytes. -/
def takeCounted16 (bs : List Byte) : Except DecodeError (List Byte × List Byte) := do
  let (n, bs) ← takeU16 bs
  takeBytes n.toNat bs

/-- The operation a selector and its operand record ask for (R75). Bytes after the operands are not read. -/
def decodeOperands (op : Nat) (bs : List Byte) : Except DecodeError Instr :=
  match op with
  | 0x01 => do
    let (cmd, bs) ← takeU8 bs
    let (resp, bs) ← takeBit bs
    let (p, _) ← takeCounted bs
    .ok (.aEnc cmd resp p)
  | 0x02 => do
    let (dur, bs) ← takeU16 bs
    let (n, bs) ← takeU8 bs
    let (pairs, _) ← takePairs n.toNat bs
    .ok (.aSetpos dur pairs)
  | 0x03 => do
    let (ids, _) ← takeCounted bs
    .ok (.aGetpos ids)
  | 0x04 => do
    let (ids, _) ← takeCounted bs
    .ok (.aStop ids)
  | 0x05 => .ok .aBatt
  | 0x06 => do
    let (b, _) ← takeCounted bs
    .ok (.aRxload b)
  | 0x08 => do
    let (cmd, bs) ← takeU8 bs
    let (elen, _) ← takeU8 bs
    .ok (.aDec cmd elen)
  | 0x09 => do
    let (ids, _) ← takeCounted bs
    .ok (.aDecpos ids)
  | 0x0A => .ok .aDecbatt
  | 0x10 => do
    let (cmd, bs) ← takeU8 bs
    let (id, bs) ← takeU8 bs
    let (resp, bs) ← takeBit bs
    let (p, _) ← takeCounted bs
    .ok (.bEnc cmd id resp p)
  | 0x11 => do
    let (id, bs) ← takeU8 bs
    let (pos, bs) ← takeU16 bs
    let (time, _) ← takeU16 bs
    .ok (.bMove id pos time)
  | 0x12 => do
    let (id, bs) ← takeU8 bs
    let (pos, bs) ← takeU16 bs
    let (time, _) ← takeU16 bs
    .ok (.bMovew id pos time)
  | 0x13 => do
    let (id, bs) ← takeU8 bs
    let (mn, bs) ← takeU16 bs
    let (mx, _) ← takeU16 bs
    .ok (.bAnglim id mn mx)
  | 0x14 => do
    let (id, bs) ← takeU8 bs
    let (mn, bs) ← takeU16 bs
    let (mx, _) ← takeU16 bs
    .ok (.bVinlim id mn mx)
  | 0x15 => do
    let (id, bs) ← takeU8 bs
    let (t, _) ← takeU16 bs
    .ok (.bTemplim id t)
  | 0x16 => do
    let (b, _) ← takeCounted16 bs
    .ok (.bRxload b)
  | 0x18 => do
    let (ecmd, bs) ← takeU8 bs
    let (eid, _) ← takeU8 bs
    .ok (.bDec ecmd eid)
  | 0x19 => do
    let (b, _) ← takeCounted bs
    .ok (.bChk b)
  | 0x20 => do
    let (angle, bs) ← takeF64 bs
    let (mn, bs) ← takeF64 bs
    let (mx, _) ← takeF64 bs
    .ok (.mA2r angle mn mx)
  | 0x21 => do
    let (raw, bs) ← takeI32 bs
    let (mn, bs) ← takeF64 bs
    let (mx, _) ← takeF64 bs
    .ok (.mR2a raw mn mx)
  | 0x22 => do
    let (l1, bs) ← takeF64 bs
    let (l2, bs) ← takeF64 bs
    let (l3, bs) ← takeF64 bs
    let (l4, _) ← takeF64 bs
    .ok (.mLoadarm l1 l2 l3 l4)
  | 0x23 => do
    let (i, _) ← takeU8 bs
    .ok (.mPz i)
  | 0x24 => do
    let (z, _) ← takeF64 bs
    .ok (.mZ2i z)
  | 0x25 => do
    let (i, _) ← takeU8 bs
    .ok (.mI2r i)
  | 0x26 => do
    let (x, bs) ← takeF64 bs
    let (y, _) ← takeF64 bs
    .ok (.mTeta x y)
  | _ => .error .reservedSelector

/-- A request-port request (R24): the selector, then the operand record. -/
def decodeRequestPort : List Byte → Except DecodeError Instr
  | [] => .error .shortRecord
  | op :: bs => decodeOperands op.toNat bs

/-- A unit A payload (R71) whose count is within what a 64-byte frame holds. -/
def decodePayloadA (c : Config.Commands) (cmd : Byte) (bs : List Byte) : Except DecodeError Instr :=
  if cmd = Config.cmdASetpos then do
    let (n, bs) ← takeU8 bs
    let (dur, bs) ← takeU16 bs
    let (pairs, _) ← takePairs n.toNat bs
    if 3 + 3 * pairs.length ≤ Config.payloadMaxA then .ok (.cmdASetpos dur pairs) else .error .notACommandFrame
  else if cmd = c.getpos then do
    let (ids, _) ← takeCounted bs
    if 1 + ids.length ≤ Config.payloadMaxA then .ok (.cmdAGetpos ids) else .error .notACommandFrame
  else if cmd = c.stop then do
    let (ids, _) ← takeCounted bs
    if 1 + ids.length ≤ Config.payloadMaxA then .ok (.cmdAStop ids) else .error .notACommandFrame
  else if cmd = c.batt then .ok .cmdABatt
  else .error .notACommandFrame

/-- A unit A command frame (R70, R77), told by bytes 0, 1 and 3 as the opcode table's mask tells it; `LEN` and the
padding are not read (R72, D8). -/
def decodeWireA (c : Config.Commands) : List Byte → Except DecodeError Instr
  | s0 :: s1 :: _ :: cmd :: bs =>
    if s0 = Config.sig ∧ s1 = Config.sig then decodePayloadA c cmd bs else .error .notACommandFrame
  | _ => .error .shortRecord

/-- The unit B command of a name, an id and a payload of the name's `Preq` bytes (R79). -/
def decodePayloadB (n : Config.CommandName) (id : Byte) (p : List Byte) : Except DecodeError Instr :=
  match n, p with
  | .moveTimeWrite, p0 :: p1 :: p2 :: p3 :: _ => .ok (.moveTimeWrite id (le16 p0 p1) (le16 p2 p3))
  | .moveTimeRead, _ => .ok (.moveTimeRead id)
  | .moveTimeWaitWrite, p0 :: p1 :: p2 :: p3 :: _ => .ok (.moveTimeWaitWrite id (le16 p0 p1) (le16 p2 p3))
  | .moveTimeWaitRead, _ => .ok (.moveTimeWaitRead id)
  | .moveStart, _ => .ok (.moveStart id)
  | .moveStop, _ => .ok (.moveStop id)
  | .idWrite, p0 :: _ => .ok (.idWrite id p0)
  | .idRead, _ => .ok (.idRead id)
  | .angleOffsetAdjust, p0 :: _ => .ok (.angleOffsetAdjust id p0)
  | .angleOffsetWrite, _ => .ok (.angleOffsetWrite id)
  | .angleOffsetRead, _ => .ok (.angleOffsetRead id)
  | .angleLimitWrite, p0 :: p1 :: p2 :: p3 :: _ => .ok (.angleLimitWrite id (le16 p0 p1) (le16 p2 p3))
  | .angleLimitRead, _ => .ok (.angleLimitRead id)
  | .vinLimitWrite, p0 :: p1 :: p2 :: p3 :: _ => .ok (.vinLimitWrite id (le16 p0 p1) (le16 p2 p3))
  | .vinLimitRead, _ => .ok (.vinLimitRead id)
  | .tempMaxLimitWrite, p0 :: _ => .ok (.tempMaxLimitWrite id p0)
  | .tempMaxLimitRead, _ => .ok (.tempMaxLimitRead id)
  | .tempRead, _ => .ok (.tempRead id)
  | .vinRead, _ => .ok (.vinRead id)
  | .posRead, _ => .ok (.posRead id)
  | .orMotorModeWrite, p0 :: p1 :: p2 :: p3 :: _ => .ok (.orMotorModeWrite id p0 p1 p2 p3)
  | .orMotorModeRead, _ => .ok (.orMotorModeRead id)
  | .loadOrUnloadWrite, p0 :: _ => .ok (.loadOrUnloadWrite id p0)
  | .loadOrUnloadRead, _ => .ok (.loadOrUnloadRead id)
  | .ledCtrlWrite, p0 :: _ => .ok (.ledCtrlWrite id p0)
  | .ledCtrlRead, _ => .ok (.ledCtrlRead id)
  | .ledErrorWrite, p0 :: _ => .ok (.ledErrorWrite id p0)
  | .ledErrorRead, _ => .ok (.ledErrorRead id)
  | _, _ => .error .shortRecord

/-- A unit B command frame (R73, R79), told by bytes 0, 1, 3 and 4 as the opcode table's mask tells it: `LEN` is that of the
opcode table's row, in every configuration. The checksum is not an operand: `BuildB` computes it. -/
def decodeWireB (c : Config.Commands) : List Byte → Except DecodeError Instr
  | s0 :: s1 :: id :: len :: cmd :: bs =>
    if s0 = Config.sig ∧ s1 = Config.sig then
      match commandOf c cmd with
      | some n => if len.toNat = (commandRow n).preq + 3 then decodePayloadB n id bs else .error .notACommandFrame
      | none => .error .notACommandFrame
    else .error .notACommandFrame
  | _ => .error .shortRecord

/-- The decoder. -/
def decode (c : Config.Commands) (r : Request) : Except DecodeError Instr :=
  match r.form with
  | .request => decodeRequestPort r.bytes
  | .wireA => decodeWireA c r.bytes
  | .wireB => decodeWireB c r.bytes

/-- A 1-bit operand as its byte. -/
def bitByte (b : Bool) : Byte := if b then 1#8 else 0#8

/-- A counted byte list: a `u8` count and the bytes. -/
def counted (bs : List Byte) : List Byte := countByte bs.length :: bs

/-- The encoder: the request of an operation. -/
def encode (c : Config.Commands) : Instr → Request
  | .aEnc cmd resp p => ⟨.request, 0x01#8 :: cmd :: bitByte resp :: counted p⟩
  | .aSetpos dur pairs => ⟨.request, 0x02#8 :: (bytes16 dur ++ countByte pairs.length :: triples pairs)⟩
  | .aGetpos ids => ⟨.request, 0x03#8 :: counted ids⟩
  | .aStop ids => ⟨.request, 0x04#8 :: counted ids⟩
  | .aBatt => ⟨.request, [0x05#8]⟩
  | .aRxload b => ⟨.request, 0x06#8 :: counted b⟩
  | .aDec cmd elen => ⟨.request, [0x08#8, cmd, elen]⟩
  | .aDecpos ids => ⟨.request, 0x09#8 :: counted ids⟩
  | .aDecbatt => ⟨.request, [0x0A#8]⟩
  | .bEnc cmd id resp p => ⟨.request, 0x10#8 :: cmd :: id :: bitByte resp :: counted p⟩
  | .bMove id pos time => ⟨.request, 0x11#8 :: id :: (bytes16 pos ++ bytes16 time)⟩
  | .bMovew id pos time => ⟨.request, 0x12#8 :: id :: (bytes16 pos ++ bytes16 time)⟩
  | .bAnglim id mn mx => ⟨.request, 0x13#8 :: id :: (bytes16 mn ++ bytes16 mx)⟩
  | .bVinlim id mn mx => ⟨.request, 0x14#8 :: id :: (bytes16 mn ++ bytes16 mx)⟩
  | .bTemplim id t => ⟨.request, 0x15#8 :: id :: bytes16 t⟩
  | .bRxload b => ⟨.request, 0x16#8 :: (bytes16 (countHalf b.length) ++ b)⟩
  | .bDec ecmd eid => ⟨.request, [0x18#8, ecmd, eid]⟩
  | .bChk b => ⟨.request, 0x19#8 :: counted b⟩
  | .mA2r angle mn mx => ⟨.request, 0x20#8 :: (bytes64 angle ++ bytes64 mn ++ bytes64 mx)⟩
  | .mR2a raw mn mx => ⟨.request, 0x21#8 :: (bytes32 raw ++ bytes64 mn ++ bytes64 mx)⟩
  | .mLoadarm l1 l2 l3 l4 => ⟨.request, 0x22#8 :: (bytes64 l1 ++ bytes64 l2 ++ bytes64 l3 ++ bytes64 l4)⟩
  | .mPz i => ⟨.request, [0x23#8, i]⟩
  | .mZ2i z => ⟨.request, 0x24#8 :: bytes64 z⟩
  | .mI2r i => ⟨.request, [0x25#8, i]⟩
  | .mTeta x y => ⟨.request, 0x26#8 :: (bytes64 x ++ bytes64 y)⟩
  | .cmdASetpos dur pairs => ⟨.wireA, frameA Config.cmdASetpos (setposPayload dur pairs)⟩
  | .cmdAGetpos ids => ⟨.wireA, frameA c.getpos (idsPayload ids)⟩
  | .cmdAStop ids => ⟨.wireA, frameA c.stop (idsPayload ids)⟩
  | .cmdABatt => ⟨.wireA, frameA c.batt []⟩
  | .moveTimeWrite id pos time => ⟨.wireB, frameB (codeOf c .moveTimeWrite) id (bytes16 pos ++ bytes16 time)⟩
  | .moveTimeRead id => ⟨.wireB, frameB (codeOf c .moveTimeRead) id []⟩
  | .moveTimeWaitWrite id pos time => ⟨.wireB, frameB (codeOf c .moveTimeWaitWrite) id (bytes16 pos ++ bytes16 time)⟩
  | .moveTimeWaitRead id => ⟨.wireB, frameB (codeOf c .moveTimeWaitRead) id []⟩
  | .moveStart id => ⟨.wireB, frameB (codeOf c .moveStart) id []⟩
  | .moveStop id => ⟨.wireB, frameB (codeOf c .moveStop) id []⟩
  | .idWrite id p0 => ⟨.wireB, frameB (codeOf c .idWrite) id [p0]⟩
  | .idRead id => ⟨.wireB, frameB (codeOf c .idRead) id []⟩
  | .angleOffsetAdjust id p0 => ⟨.wireB, frameB (codeOf c .angleOffsetAdjust) id [p0]⟩
  | .angleOffsetWrite id => ⟨.wireB, frameB (codeOf c .angleOffsetWrite) id []⟩
  | .angleOffsetRead id => ⟨.wireB, frameB (codeOf c .angleOffsetRead) id []⟩
  | .angleLimitWrite id mn mx => ⟨.wireB, frameB (codeOf c .angleLimitWrite) id (bytes16 mn ++ bytes16 mx)⟩
  | .angleLimitRead id => ⟨.wireB, frameB (codeOf c .angleLimitRead) id []⟩
  | .vinLimitWrite id mn mx => ⟨.wireB, frameB (codeOf c .vinLimitWrite) id (bytes16 mn ++ bytes16 mx)⟩
  | .vinLimitRead id => ⟨.wireB, frameB (codeOf c .vinLimitRead) id []⟩
  | .tempMaxLimitWrite id p0 => ⟨.wireB, frameB (codeOf c .tempMaxLimitWrite) id [p0]⟩
  | .tempMaxLimitRead id => ⟨.wireB, frameB (codeOf c .tempMaxLimitRead) id []⟩
  | .tempRead id => ⟨.wireB, frameB (codeOf c .tempRead) id []⟩
  | .vinRead id => ⟨.wireB, frameB (codeOf c .vinRead) id []⟩
  | .posRead id => ⟨.wireB, frameB (codeOf c .posRead) id []⟩
  | .orMotorModeWrite id p0 p1 p2 p3 => ⟨.wireB, frameB (codeOf c .orMotorModeWrite) id [p0, p1, p2, p3]⟩
  | .orMotorModeRead id => ⟨.wireB, frameB (codeOf c .orMotorModeRead) id []⟩
  | .loadOrUnloadWrite id p0 => ⟨.wireB, frameB (codeOf c .loadOrUnloadWrite) id [p0]⟩
  | .loadOrUnloadRead id => ⟨.wireB, frameB (codeOf c .loadOrUnloadRead) id []⟩
  | .ledCtrlWrite id p0 => ⟨.wireB, frameB (codeOf c .ledCtrlWrite) id [p0]⟩
  | .ledCtrlRead id => ⟨.wireB, frameB (codeOf c .ledCtrlRead) id []⟩
  | .ledErrorWrite id p0 => ⟨.wireB, frameB (codeOf c .ledErrorWrite) id [p0]⟩
  | .ledErrorRead id => ⟨.wireB, frameB (codeOf c .ledErrorRead) id []⟩

/-- The `n` bytes of `w`, most significant first: byte 0 of an opcode-table row is the most significant byte of its
match value (`0x55550003` over `SIG SIG LEN CMD`). -/
def bytesOfNat : Nat → Nat → List Byte
  | 0, _ => []
  | n + 1, w => BitVec.ofNat 8 (w / 256 ^ n % 256) :: bytesOfNat n w

/-- The request that has the bits `w` of an opcode-table row of `nbits` bits, and zeros after them: 8 bits are a
request-port selector, 32 the bytes 0 to 3 of a unit A frame, 40 the bytes 0 to 4 of a unit B frame. The longest request
is a `B.RXLOAD` of 65535 bytes. notes/assumptions/4.md. -/
def tableRequest (nbits w : Nat) : Request :=
  { form := if nbits ≤ 8 then .request else if nbits ≤ 32 then .wireA else .wireB
    bytes := bytesOfNat (nbits / 8) w ++ List.replicate 65538 0#8 }

/-- The instruction the decoder reads from the bits `w` of an opcode-table row, whose codes are the defaults. -/
def decodeTableWord (nbits w : Nat) : Option Instr :=
  match decode defaultCommands (tableRequest nbits w) with
  | .ok i => some i
  | .error _ => none

end Sys2Proof
end

