-- ==== Sys2Proof/Machine/Binary64.lean ====
section
/-! DEFINITION. IEEE 754 binary64 as unit M uses it (00_scope.md R11, 42_motion_mapper.md R180): `+ - * /` rounded to
nearest with ties to even, comparisons, conversion from an integer and rounding to one. A finite value is an integer
number of *units* of `2^-1074`, the smallest positive binary64 value; operations compute exactly on units and round once
at the end. -/

namespace Sys2Proof.Machine

/-- The exponent and fraction bits of an infinity. -/
def infMag : Nat := 0x7FF0000000000000

/-- The number of units in 1. -/
def unitsPerOne : Nat := 2 ^ 1074

/-- The sign bit. -/
def f64Neg (x : F64) : Bool := decide (2 ^ 63 ≤ x.toNat)

/-- The exponent and fraction bits. -/
def f64Mag (x : F64) : Nat := x.toNat % 2 ^ 63

/-- Neither an infinity nor a NaN (R11). -/
def f64Finite (x : F64) : Bool := decide (f64Mag x < infMag)

/-- A NaN. -/
def f64IsNaN (x : F64) : Bool := decide (infMag < f64Mag x)

/-- An infinity of either sign. -/
def f64IsInf (x : F64) : Bool := decide (f64Mag x = infMag)

/-- A zero of either sign. -/
def f64IsZero (x : F64) : Bool := decide (f64Mag x = 0)

/-- A sign and the other 63 bits as a pattern. -/
def f64Pack (neg : Bool) (mag : Nat) : F64 := BitVec.ofNat 64 (if neg then 2 ^ 63 + mag else mag)

/-- The NaN an invalid operation answers. No register can come to hold it (notes/assumptions/13.md). -/
def quietNaN : F64 := 0x7FF8000000000000#64

/-- The number of units in a finite magnitude. -/
def magUnits (mag : Nat) : Nat :=
  if mag / 2 ^ 52 = 0 then mag else (2 ^ 52 + mag % 2 ^ 52) * 2 ^ (mag / 2 ^ 52 - 1)

/-- The value of a finite `x` in units. -/
def f64Units (x : F64) : Int := if f64Neg x then -(magUnits (f64Mag x) : Int) else magUnits (f64Mag x)

/-- `num / den` rounded to the nearest integer, ties to even. -/
def divRoundEven (num den : Nat) : Nat :=
  if 2 * (num % den) < den then num / den
  else if den < 2 * (num % den) then num / den + 1
  else num / den + num / den % 2

/-- The binary exponent of the spacing of binary64 values at `q` units. -/
def spacing (q : Nat) : Nat := if q < 2 ^ 53 then 0 else Nat.log2 q - 52

/-- The magnitude nearest to `num / den` units, ties to even; a result too large for binary64 is an infinity. -/
def roundUnits (num den : Nat) : Nat :=
  min (spacing (num / den) * 2 ^ 52 + divRoundEven num (den * 2 ^ spacing (num / den))) infMag

/-- `-x`. -/
def f64Negate (x : F64) : F64 := f64Pack (!f64Neg x) (f64Mag x)

/-- `|x|` (R11). -/
def f64Abs (x : F64) : F64 := f64Pack false (f64Mag x)

/-- `x + y` (R11). An exact zero sum is `-0` only where both operands are negative. -/
def f64Add (x y : F64) : F64 :=
  if f64IsNaN x || f64IsNaN y then quietNaN
  else if f64IsInf x then (if f64IsInf y && f64Neg x != f64Neg y then quietNaN else x)
  else if f64IsInf y then y
  else if f64Units x + f64Units y = 0 then f64Pack (f64Neg x && f64Neg y) 0
  else f64Pack (decide (f64Units x + f64Units y < 0)) (roundUnits (f64Units x + f64Units y).natAbs 1)

/-- `x - y` (R11). -/
def f64Sub (x y : F64) : F64 := f64Add x (f64Negate y)

/-- `x * y` (R11). -/
def f64Mul (x y : F64) : F64 :=
  if f64IsNaN x || f64IsNaN y then quietNaN
  else if f64IsInf x || f64IsInf y then
    (if f64IsZero x || f64IsZero y then quietNaN else f64Pack (f64Neg x != f64Neg y) infMag)
  else f64Pack (f64Neg x != f64Neg y) (roundUnits (magUnits (f64Mag x) * magUnits (f64Mag y)) unitsPerOne)

/-- `x / y` (R11). -/
def f64Div (x y : F64) : F64 :=
  if f64IsNaN x || f64IsNaN y then quietNaN
  else if f64IsInf x then (if f64IsInf y then quietNaN else f64Pack (f64Neg x != f64Neg y) infMag)
  else if f64IsInf y then f64Pack (f64Neg x != f64Neg y) 0
  else if f64IsZero y then
    (if f64IsZero x then quietNaN else f64Pack (f64Neg x != f64Neg y) infMag)
  else f64Pack (f64Neg x != f64Neg y) (roundUnits (magUnits (f64Mag x) * unitsPerOne) (magUnits (f64Mag y)))

/-- An integer that binary64 holds exactly, as an `f64` (R11, R180). -/
def f64OfInt (n : Int) : F64 := f64Pack (decide (n < 0)) (roundUnits (n.natAbs * unitsPerOne) 1)

/-- The order of the non-NaN values: both zeros 0, the infinities at the ends. -/
def f64Key (x : F64) : Int := if f64Neg x then -(f64Mag x : Int) else f64Mag x

/-- `x < y` (R11), false if either is a NaN. -/
def f64Lt (x y : F64) : Bool := !f64IsNaN x && !f64IsNaN y && decide (f64Key x < f64Key y)

/-- `x ≤ y` (R11), false if either is a NaN. -/
def f64Le (x y : F64) : Bool := !f64IsNaN x && !f64IsNaN y && decide (f64Key x ≤ f64Key y)

/-- `clamp(x, lo, hi)` (R11). -/
def f64Clamp (x lo hi : F64) : F64 := if f64Lt x lo then lo else if f64Lt hi x then hi else x

/-- `num / den` rounded to the nearest integer, an exact half as `ROUND_MIDPOINT` says (R11). -/
def divRoundMidpoint (m : Config.Midpoint) (num den : Nat) : Nat :=
  if 2 * (num % den) < den then num / den
  else if den < 2 * (num % den) then num / den + 1
  else match m with
    | .toEven => num / den + num / den % 2
    | .awayFromZero => num / den + 1

/-- `round(x)` of a finite `x` (R11). -/
def f64Round (m : Config.Midpoint) (x : F64) : Int :=
  if f64Neg x then -(divRoundMidpoint m (magUnits (f64Mag x)) unitsPerOne : Int)
  else divRoundMidpoint m (magUnits (f64Mag x)) unitsPerOne

/-- `PI` (R11). -/
def f64Pi : F64 := 0x400921FB54442D18#64

/-- `PI / 2`, exact (R11). -/
def f64HalfPi : F64 := 0x3FF921FB54442D18#64

/-- The binary64 value nearest to a quarter of π, `PI / 4` (exact). -/
def f64QuarterPi : F64 := 0x3FE921FB54442D18#64

/-- The value of a function given as a table. -/
def funValue (t : Config.FunTable) (x : F64) : F64 := (t.lookup x).getD 0#64

/-- `sin`, the parameter `NUM_SIN` (R11). -/
def f64Sin (n : Config.Numeric) (x : F64) : F64 := funValue n.sin x

/-- `cos`, the parameter `NUM_COS` (R11). -/
def f64Cos (n : Config.Numeric) (x : F64) : F64 := funValue n.cos x

/-- `atan`, the parameter `NUM_ATAN` (R11). -/
def f64Atan (n : Config.Numeric) (x : F64) : F64 := funValue n.atan x

/-- What R188 says of the arctangent at one argument: `[-1, 1]` goes into `[-π/4, π/4]`. -/
def atanEntryOk (q : F64 × F64) : Bool := !f64Le (f64Abs q.1) (f64OfInt 1) || f64Le (f64Abs q.2) f64QuarterPi

/-- What R188 says of the arctangent: the range, and, from its corner cases `(-1, 0)` and `(0, -1)`, that a zero goes to
the zero of its sign. -/
def atanOk (t : Config.FunTable) : Bool :=
  t.all atanEntryOk && decide (funValue t 0#64 = 0#64) && decide (funValue t (f64Negate 0#64) = f64Negate 0#64)

/-- `NUM_ATAN` at reset: any total function (R6) of which what R188 says is true. notes/assumptions/10.md. -/
def givenAtan : Config.FunTable :=
  (0#64, 0#64) :: (f64Negate 0#64, f64Negate 0#64) :: Config.atanTable.filter atanEntryOk

end Sys2Proof.Machine
end

