-- ==== Sys2Proof/Machine/State.lean ====
section
/-! DEFINITION. The state of the block as plain data (10_state.md R24 to R41), the reasons a step can stop, and reset. -/

namespace Sys2Proof.Machine

/-- The two codec units that can have a reply outstanding (R37). -/
inductive CodecUnit where
  | a
  | b
  deriving DecidableEq, Repr

/-- `PENDING(unit, cmd)`, the value of `OUTSTANDING` while a reply is awaited (R37). -/
structure Pending where
  unit : CodecUnit
  cmd : Byte
  deriving DecidableEq, Repr

/-- The names the ghost set `FAULT` can hold (R224). -/
inductive FaultName where
  /-- An encode while a reply is outstanding (R264). -/
  | hazardOutstanding
  /-- A read of an unwritten cell (R39). -/
  | readUnwritten
  deriving DecidableEq, Repr

/-- The `INFO` register (R27). -/
structure Info where
  arg : Byte
  lo : Half
  hi : Half
  reason : Byte
  deriving DecidableEq, Repr

/-- The `RESULT` register (R28). `none`, or a cell that is not listed, is *unwritten* (R39), which is the spec's own
value and not a missing reset value. -/
structure Result where
  payload : Cells Byte
  plen : Option Byte
  pos : Cells Half
  n : Option Byte
  ids : Cells Byte
  val : Option Half
  byte : Option Byte
  int : Option Word
  f64 : Option F64
  deriving DecidableEq, Repr

/-- The response port (R25). -/
structure Response where
  status : Byte
  info : Info
  result : Result
  deriving DecidableEq, Repr

/-- The state of the block. -/
structure State where
  /-- The configuration of the run (R40): the argument a step takes it in. No operation writes it. DESIGN CHOICE,
  notes/assumptions/15.md. -/
  params : Config.Params
  /-- The requests the host has issued and the block has not taken, first to be taken first (R24, R58). -/
  requests : List Request
  /-- `STATUS`, the outcome code of the last operation (R26). -/
  status : Byte
  /-- `INFO` (R27). -/
  info : Info
  /-- `RESULT` (R28). -/
  result : Result
  /-- The response port (R25). -/
  response : Response
  /-- `TXA[0..63]` (R29). -/
  txa : Cells Byte
  /-- `TXA_VALID` (R29). -/
  txaValid : Bool
  /-- `RXA[0..63]` (R30). -/
  rxa : Cells Byte
  /-- `RXA_COUNT` (R30). -/
  rxaCount : Byte
  /-- `TXB[0..257]` (R31). -/
  txb : Cells Byte
  /-- `TXB_LEN` (R31). -/
  txbLen : Half
  /-- `TXB_VALID` (R31). -/
  txbValid : Bool
  /-- `RXB[0..257]` (R32). -/
  rxb : Cells Byte
  /-- `RXB_COUNT` (R32). -/
  rxbCount : Half
  /-- `ARM_L1` (R34); `none` is unwritten. -/
  armL1 : Option F64
  /-- `ARM_L2` (R34); `none` is unwritten. -/
  armL2 : Option F64
  /-- `ARM_L3` (R34); `none` is unwritten. -/
  armL3 : Option F64
  /-- `ARM_L4` (R34); `none` is unwritten. -/
  armL4 : Option F64
  /-- `ARM_VALID` (R34). -/
  armValid : Bool
  /-- `PZ[0..127]`, the height table (R35). -/
  pz : Cells F64
  /-- The ghost `OUTSTANDING` (R37); `none` is `NONE`. -/
  outstanding : Option Pending
  /-- The ghost set `FAULT` (R38), without repeats. -/
  faults : List FaultName
  /-- The ghost bit `REFUSED` (R38). -/
  refused : Bool
  deriving DecidableEq, Repr

/-- Why `step` stops with a fault. -/
inductive Fault where
  /-- Raised by `step` alone, at a state whose `FAULT` set is not empty: the run has ended and the block takes no
  further operation (R38). Safe: nothing more can be claimed of the run. -/
  | runEnded
  deriving DecidableEq, Repr

/-- Why `step` refuses. -/
inductive Refusal where
  /-- An instruction with no meaning yet. Raised by no arm of `exec`. Safe. -/
  | notModelled (mnemonic : String)
  /-- Raised by `step` alone, at a state whose `REFUSED` bit is 1: the run has ended and the block takes no further
  operation (R38). Safe. -/
  | runEnded
  /-- Raised by `step` alone, for a request whose `OP` is defined but whose bytes stop before the operand record does,
  or hold a byte other than 0 or 1 where a 1-bit operand stands: no request of R24 has these bytes. Safe. -/
  | malformedRecord
  /-- Raised by `step` alone, for a request in wire form whose bytes are no command frame of the opcode table.
  Safe. -/
  | notACommandFrame
  deriving DecidableEq, Repr

/-- Every `INFO` field 0 (R27). -/
def Info.zero : Info := { arg := 0#8, lo := 0#16, hi := 0#16, reason := 0#8 }

/-- Every `RESULT` field unwritten (R28). -/
def Result.unwritten : Result :=
  { payload := [], plen := none, pos := [], n := none, ids := [], val := none, byte := none, int := none, f64 := none }

/-- The configuration of a run from reset: the command bytes of R7 and R79, and the open parameters of R6 at their
constants. -/
def givenParams : Config.Params where
  commands := defaultCommands
  numeric := { midpoint := Config.roundMidpoint, sin := Config.sinTable, cos := Config.cosTable, atan := givenAtan }
  transportKind := Config.transportKind
  readTimeout := Config.readTimeoutPred + 1

/-- The block right after reset: the table of R41, and the response port as for `OK` (R260). No request is pending: the
block waits for the first one. -/
def State.reset : State where
  params := givenParams
  requests := []
  status := 0x00#8
  info := Info.zero
  result := Result.unwritten
  response := { status := 0x00#8, info := Info.zero, result := Result.unwritten }
  txa := []
  txaValid := false
  rxa := []
  rxaCount := 0#8
  txb := []
  txbLen := 0#16
  txbValid := false
  rxb := []
  rxbCount := 0#16
  armL1 := none
  armL2 := none
  armL3 := none
  armL4 := none
  armValid := false
  pz := []
  outstanding := none
  faults := []
  refused := false

end Sys2Proof.Machine
end

