-- ==== Sys2Proof/Machine/Flags.lean ====
section
/-! DEFINITION. Outcome codes and the `INFO` fields an outcome records (60_exceptions.md R220 to R222; 41_codec_b.md
R142). `STATUS` and `INFO` are the block's only flag-like state (R26). -/

namespace Sys2Proof.Machine

/-- The outcome kinds (R220). -/
inductive OutcomeKind where
  | ok
  | parameterOutOfRange
  | transportError
  | noResponse
  | protocolMismatch
  | invalidSignature
  | invalidServoId
  | invalidLength
  | invalidCommand
  | checksumMismatch
  | badRequest
  deriving DecidableEq, Repr

/-- The `STATUS` code of an outcome (R220). -/
def outcomeCode : OutcomeKind → Byte
  | .ok => 0x00#8
  | .parameterOutOfRange => 0x01#8
  | .transportError => 0x02#8
  | .noResponse => 0x03#8
  | .protocolMismatch => 0x04#8
  | .invalidSignature => 0x05#8
  | .invalidServoId => 0x06#8
  | .invalidLength => 0x07#8
  | .invalidCommand => 0x08#8
  | .checksumMismatch => 0x09#8
  | .badRequest => 0x10#8

/-- The arguments `ParameterOutOfRange` can name (R221). -/
inductive ArgName where
  | position
  | time
  | minAngle
  | maxAngle
  | minVoltage
  | maxVoltage
  | maxTemperature
  deriving DecidableEq, Repr

/-- The `INFO.ARG` code of an argument (R221). -/
def argCode : ArgName → Byte
  | .position => 1#8
  | .time => 2#8
  | .minAngle => 3#8
  | .maxAngle => 4#8
  | .minVoltage => 5#8
  | .maxVoltage => 6#8
  | .maxTemperature => 7#8

/-- The reasons of a `BadRequest` (R222). -/
inductive Reason where
  | payloadTooLong
  | countOutOfRange
  | payloadLengthMismatch
  | invalidServoDefinition
  | nonFinite
  | invalidArmModel
  | armModelLocked
  | tableNotBuilt
  | indexOutOfRange
  | degenerateBearing
  | rxTooLong
  | expectedLengthOutOfRange
  deriving DecidableEq, Repr

/-- The `INFO.REASON` code of a reason (R222). -/
def reasonCode : Reason → Byte
  | .payloadTooLong => 1#8
  | .countOutOfRange => 2#8
  | .payloadLengthMismatch => 3#8
  | .invalidServoDefinition => 4#8
  | .nonFinite => 5#8
  | .invalidArmModel => 6#8
  | .armModelLocked => 7#8
  | .tableNotBuilt => 8#8
  | .indexOutOfRange => 9#8
  | .degenerateBearing => 10#8
  | .rxTooLong => 11#8
  | .expectedLengthOutOfRange => 12#8

/-- A raised outcome: its kind and what it records in `INFO` (R220). -/
structure Raise where
  kind : OutcomeKind
  info : Info
  deriving DecidableEq, Repr

/-- `raise BadRequest(reason)` (R220, R222): only `INFO.REASON` is written non-zero. -/
def badRequest (r : Reason) : Raise :=
  { kind := .badRequest, info := { Info.zero with reason := reasonCode r } }

/-- `raise ParameterOutOfRange(arg, lo, hi)` (R142, R221). -/
def outOfRange (a : ArgName) (lo hi : Nat) : Raise :=
  { kind := .parameterOutOfRange
    info := { arg := argCode a, lo := BitVec.ofNat 16 lo, hi := BitVec.ofNat 16 hi, reason := 0#8 } }

/-- Any other outcome: `INFO` all zero (R220). -/
def plainRaise (k : OutcomeKind) : Raise := { kind := k, info := Info.zero }

/-- `ValidateMove` (R142): the position first, then the time. -/
def validateMove (pos time : Half) : Option Raise :=
  if Config.rawMax < pos.toNat then some (outOfRange .position 0 Config.rawMax)
  else if Config.timeMax < time.toNat then some (outOfRange .time 0 Config.timeMax)
  else none

/-- `ValidateAngleLimit` (R142): each limit, then `min ≤ max`. -/
def validateAngleLimit (mn mx : Half) : Option Raise :=
  if Config.rawMax < mn.toNat then some (outOfRange .minAngle 0 Config.rawMax)
  else if Config.rawMax < mx.toNat then some (outOfRange .maxAngle 0 Config.rawMax)
  else if mx.toNat < mn.toNat then some (outOfRange .minAngle 0 mx.toNat)
  else none

/-- `ValidateVin` (R142): no order check on the pair (D18). -/
def validateVin (mn mx : Half) : Option Raise :=
  if mn.toNat < Config.vinMin ∨ Config.vinMax < mn.toNat then
    some (outOfRange .minVoltage Config.vinMin Config.vinMax)
  else if mx.toNat < Config.vinMin ∨ Config.vinMax < mx.toNat then
    some (outOfRange .maxVoltage Config.vinMin Config.vinMax)
  else none

/-- `ValidateTemp` (R142), on the typed value, before any truncation. -/
def validateTemp (t : Half) : Option Raise :=
  if t.toNat < Config.tempMin ∨ Config.tempMax < t.toNat then
    some (outOfRange .maxTemperature Config.tempMin Config.tempMax)
  else none

/-- A servo count outside `1` to `most` (R103 to R105, R110). -/
def checkCount (most n : Nat) : Option Raise :=
  if n < 1 ∨ most < n then some (badRequest .countOutOfRange) else none

end Sys2Proof.Machine
end

