-- ==== Sys2Proof/Machine/Ops.lean ====
section
/-! DEFINITION. The named operations every meaning is built from: reading and loading the addressed spaces
(20_memory.md), the state updates, and ending an operation (60_exceptions.md R224, R226). -/

namespace Sys2Proof.Machine

/-- What a meaning answers. -/
abbrev Answer := Host.Outcome State Fault Refusal

/-! ### The addressed spaces (R50) -/

/-- Cell `a` of a space, `none` if it is unwritten (R39). -/
def cellRead {α : Type} : Cells α → Nat → Option α
  | [], _ => none
  | (b, v) :: m, a => if b = a then some v else cellRead m a

/-- The cells from offset `a` on holding `vs`. -/
def cellsFrom {α : Type} : Nat → List α → Cells α
  | _, [] => []
  | a, v :: vs => (a, v) :: cellsFrom (a + 1) vs

/-- A whole space written from offset 0 with `vs`, every later cell unwritten: every write a rule of the spec makes to
a space has this shape (R29 to R32, R35, R28). -/
def cellsOf {α : Type} (vs : List α) : Cells α := cellsFrom 0 vs

/-- `MemRead(X, a, n)` (R10), `none` if some cell of it is unwritten. -/
def cellReadSeq {α : Type} (m : Cells α) : Nat → Nat → Option (List α)
  | _, 0 => some []
  | a, n + 1 =>
    match cellRead m a, cellReadSeq m (a + 1) n with
    | some v, some vs => some (v :: vs)
    | _, _ => none

/-- The canonical form of a space of `size` cells: offsets strictly rising from `lo` on and below `size`. -/
def cellsWfFrom {α : Type} (size : Nat) : Nat → Cells α → Bool
  | _, [] => true
  | lo, (a, _) :: m => decide (lo ≤ a) && decide (a < size) && cellsWfFrom size (a + 1) m

/-- The canonical form of a space of `size` cells. An unlisted cell is unwritten, so no listed cell can equal it. -/
def cellsWf {α : Type} (size : Nat) (m : Cells α) : Bool := cellsWfFrom size 0 m

/-- Every addressed space of the block, and the result registers that hold cells, are in canonical form. -/
def memoryWf (s : State) : Bool :=
  cellsWf 64 s.txa && cellsWf Config.rxaMax s.rxa && cellsWf Config.rxbMax s.txb && cellsWf Config.rxbMax s.rxb &&
  cellsWf Config.pzEntries s.pz && cellsWf Config.payloadMaxB s.result.payload &&
  cellsWf Config.posCountMax s.result.pos && cellsWf Config.posCountMax s.result.ids

/-! ### State updates -/

/-- The block takes the next request: those still pending are `rs`. -/
def withRequests (rs : List Request) (s : State) : State := { s with requests := rs }

/-- A successful unit A encode: all 64 cells written and `TXA_VALID <- 1` (R29, R101). -/
def loadTxa (f : List Byte) (s : State) : State := { s with txa := cellsOf f, txaValid := true }

/-- A failed unit A encode: `TXA_VALID <- 0`, the cells as they were (R29). -/
def dropTxa (s : State) : State := { s with txaValid := false }

/-- A successful unit B encode: the frame, its length, the later cells unwritten and `TXB_VALID <- 1` (R31, R141). -/
def loadTxb (f : List Byte) (s : State) : State :=
  { s with txb := cellsOf f, txbLen := countHalf f.length, txbValid := true }

/-- A failed unit B encode: `TXB_VALID <- 0`, the cells and `TXB_LEN` as they were (R31). -/
def dropTxb (s : State) : State := { s with txbValid := false }

/-- `A.RXLOAD` of bytes that fit: the bytes, the later cells unwritten, and the count (R30). -/
def loadRxa (b : List Byte) (s : State) : State := { s with rxa := cellsOf b, rxaCount := countByte b.length }

/-- `B.RXLOAD` of bytes that fit (R32). -/
def loadRxb (b : List Byte) (s : State) : State := { s with rxb := cellsOf b, rxbCount := countHalf b.length }

/-- `OUTSTANDING <- o` (R37). -/
def setOutstanding (o : Option Pending) (s : State) : State := { s with outstanding := o }

/-- `M.LOADARM`: the lengths, the height table and `ARM_VALID <- 1` in one step (R34, R35). -/
def loadArm (l1 l2 l3 l4 : F64) (t : List F64) (s : State) : State :=
  { s with armL1 := some l1, armL2 := some l2, armL3 := some l3, armL4 := some l4, pz := cellsOf t, armValid := true }

/-- The registers and the response port every operation writes when it ends (R25 to R28, R226). -/
def respond (status : Byte) (info : Info) (r : Result) (s : State) : State :=
  { s with status := status, info := info, result := r
           response := { status := status, info := info, result := r } }

/-- `fault <Name>` adds the name to the ghost set (R38). -/
def addFault (n : FaultName) (s : State) : State :=
  { s with faults := if n ∈ s.faults then s.faults else n :: s.faults }

/-- A refused request sets `REFUSED <- 1` (R38, R223). -/
def markRefused (s : State) : State := { s with refused := true }

/-! ### How an operation ends -/

/-- `return` (R10): the outcome `OK` with result `r`. -/
def complete (r : Result) (s : State) : Answer := .next (respond (outcomeCode .ok) Info.zero r s)

/-- Outcome entry (R226), the block's one shared way of taking an outcome other than `OK`: `STATUS` and `INFO` are
written, `RESULT` becomes unwritten, nothing is saved, no mode changes and control goes nowhere. There is no return
from it (R227): the next request is taken as after `OK`. -/
def raiseOutcome (r : Raise) (s : State) : Answer := .next (respond (outcomeCode r.kind) r.info Result.unwritten s)

/-- `fault <Name>` (R38, R224): the ghost set gains the name and nothing else of the state changes; the run has ended,
so the next `step` stops. -/
def latchFault (n : FaultName) (s : State) : Answer := .next (addFault n s)

/-- What ends an operation's body early: a raised outcome, or a fault. -/
inductive Stop where
  | raise (r : Raise)
  | fault (n : FaultName)
  deriving DecidableEq, Repr

/-- The value of a cell a rule reads, or `fault ReadUnwritten` (R39). -/
def need {α : Type} : Option α → Except Stop α
  | some v => .ok v
  | none => .error (.fault .readUnwritten)

/-- End an operation that makes the update `f` before its body (the identity, or a decode's `OUTSTANDING <- NONE`, which
stands first in its rule and holds whatever follows, R225), and then writes only what its result says. A fault writes
nothing else. -/
def finish (f : State → State) (body : Except Stop Result) (s : State) : Answer :=
  match body with
  | .ok r => complete r (f s)
  | .error (.raise r) => raiseOutcome r (f s)
  | .error (.fault n) => latchFault n (f s)

/-- `EncodePreamble` (R100): an encode while a reply is outstanding takes `fault HazardOutstanding` and does nothing
else. -/
def encodePreamble (s : State) (body : Answer) : Answer :=
  match s.outstanding with
  | some _ => latchFault .hazardOutstanding s
  | none => body

end Sys2Proof.Machine
end

