-- ==== Sys2Proof/Machine/CodecA.lean ====
section
/-! DEFINITION. Unit A, Frame Codec A (40_codec_a.md): the five encode operations, the host load and the three decode
operations of the request port, and the encodes that the unit A command frames name (30_encoding.md R77). -/

namespace Sys2Proof.Machine

/-- The shape of every unit A encode (R100 to R106): the preamble, the operand check `bad`, then `BuildA`. -/
def encodeA (bad : Option Raise) (cmd : Byte) (p : List Byte) (reply : Bool) (s : State) : Answer :=
  encodePreamble s <|
    match bad with
    | some r => raiseOutcome r (dropTxa s)
    | none =>
      complete Result.unwritten
        (setOutstanding (if reply then some ⟨.a, cmd⟩ else s.outstanding) (loadTxa (frameA cmd p) s))

/-- Set positions (R103): `expects_response` 0. -/
def encodeSetpos (dur : Half) (pairs : List ServoPos) (s : State) : Answer :=
  encodeA (checkCount Config.posCountMax pairs.length) Config.cmdASetpos (setposPayload dur pairs) false s

/-- Get positions (R104): `expects_response` 1. -/
def encodeGetpos (ids : List Byte) (s : State) : Answer :=
  encodeA (checkCount Config.posCountMax ids.length) s.params.commands.getpos (idsPayload ids) true s

/-- Stop (R105): `expects_response` 0. -/
def encodeStop (ids : List Byte) (s : State) : Answer :=
  encodeA (checkCount Config.stopCountMax ids.length) s.params.commands.stop (idsPayload ids) false s

/-- Battery request (R106): `expects_response` 1. -/
def encodeBatt (s : State) : Answer := encodeA none s.params.commands.batt [] true s

/-- `A.ENC` (R102). -/
def execAEnc (cmd : Byte) (resp : Bool) (p : List Byte) (s : State) : Answer :=
  encodeA (if Config.payloadMaxA < p.length then some (badRequest .payloadTooLong) else none) cmd p resp s

/-- `A.SETPOS` (R103). -/
def execASetpos (dur : Half) (pairs : List ServoPos) (s : State) : Answer := encodeSetpos dur pairs s

/-- `A.GETPOS` (R104). -/
def execAGetpos (ids : List Byte) (s : State) : Answer := encodeGetpos ids s

/-- `A.STOP` (R105). -/
def execAStop (ids : List Byte) (s : State) : Answer := encodeStop ids s

/-- `A.BATT` (R106). -/
def execABatt (s : State) : Answer := encodeBatt s

/-- The command frame `CMD_A_SETPOS` (R77): the encode that emits it (R103). DEDUCED, notes/assumptions/2.md. -/
def execCmdASetpos (dur : Half) (pairs : List ServoPos) (s : State) : Answer := encodeSetpos dur pairs s

/-- The command frame `CMD_A_GETPOS` (R77): the encode that emits it (R104). DEDUCED, notes/assumptions/2.md. -/
def execCmdAGetpos (ids : List Byte) (s : State) : Answer := encodeGetpos ids s

/-- The command frame `CMD_A_STOP` (R77): the encode that emits it (R105). DEDUCED, notes/assumptions/2.md. -/
def execCmdAStop (ids : List Byte) (s : State) : Answer := encodeStop ids s

/-- The command frame `CMD_A_BATT` (R77): the encode that emits it (R106). DEDUCED, notes/assumptions/2.md. -/
def execCmdABatt (s : State) : Answer := encodeBatt s

/-- `A.RXLOAD` (R107): `OUTSTANDING` is not touched. -/
def execARxload (b : List Byte) (s : State) : Answer :=
  if Config.rxaMax < b.length then raiseOutcome (badRequest .rxTooLong) s
  else complete Result.unwritten (loadRxa b s)

/-- `raise ProtocolMismatch`, the unit A decode failure (R108). -/
def mismatch {α : Type} : Except Stop α := .error (.raise (plainRaise .protocolMismatch))

/-- `CheckA(cmd, elen)` (R108). -/
def checkA (m : Cells Byte) (count : Nat) (cmd : Byte) (elen : Nat) : Except Stop Unit :=
  if count = 0 then .error (.raise (plainRaise .noResponse))
  else if count < 4 then mismatch
  else do
    let b0 ← need (cellRead m 0)
    let b1 ← need (cellRead m 1)
    if b0 ≠ Config.sig ∨ b1 ≠ Config.sig then mismatch
    else do
      let b3 ← need (cellRead m 3)
      if b3 ≠ cmd then mismatch
      else if count < 4 + elen then mismatch
      else .ok ()

/-- Each echoed id against the id sent, in order (R110, D42); `off` is the offset of the next triple. -/
def checkEchoedIds (m : Cells Byte) : Nat → List Byte → Except Stop Unit
  | _, [] => .ok ()
  | off, id :: ids => do
    let b ← need (cellRead m off)
    if b ≠ id then mismatch else checkEchoedIds m (off + 3) ids

/-- The `n` triples from offset `off` on, each `(id, le16(lo, hi))` (R110). -/
def readTriples (m : Cells Byte) : Nat → Nat → Except Stop (List ServoPos)
  | _, 0 => .ok []
  | off, n + 1 => do
    let id ← need (cellRead m off)
    let lo ← need (cellRead m (off + 1))
    let hi ← need (cellRead m (off + 2))
    let qs ← readTriples m (off + 3) n
    .ok (⟨id, le16 lo hi⟩ :: qs)

/-- `A.DEC` (R109), after `OUTSTANDING <- NONE`. -/
def decBodyA (cmd elen : Byte) (s : State) : Except Stop Result :=
  if Config.payloadMaxA < elen.toNat then .error (.raise (badRequest .expectedLengthOutOfRange))
  else do
    checkA s.rxa s.rxaCount.toNat cmd elen.toNat
    let p ← need (cellReadSeq s.rxa 4 elen.toNat)
    .ok { Result.unwritten with payload := cellsOf p, plen := some elen }

/-- `A.DECPOS` (R110), after `OUTSTANDING <- NONE`. -/
def decposBody (ids : List Byte) (s : State) : Except Stop Result :=
  match checkCount Config.posCountMax ids.length with
  | some r => .error (.raise r)
  | none => do
    checkA s.rxa s.rxaCount.toNat s.params.commands.getpos (1 + 3 * ids.length)
    checkEchoedIds s.rxa 5 ids
    let qs ← readTriples s.rxa 5 ids.length
    .ok { Result.unwritten with
          ids := cellsOf (qs.map ServoPos.id), pos := cellsOf (qs.map ServoPos.pos), n := some (countByte ids.length) }

/-- `A.DECBATT` (R111), after `OUTSTANDING <- NONE`. -/
def decbattBody (s : State) : Except Stop Result := do
  checkA s.rxa s.rxaCount.toNat s.params.commands.batt 2
  let lo ← need (cellRead s.rxa 4)
  let hi ← need (cellRead s.rxa 5)
  .ok { Result.unwritten with val := some (le16 lo hi) }

/-- `A.DEC` (R109): `OUTSTANDING` is cleared whatever the outcome (R37). -/
def execADec (cmd elen : Byte) (s : State) : Answer := finish (setOutstanding none) (decBodyA cmd elen s) s

/-- `A.DECPOS` (R110). -/
def execADecpos (ids : List Byte) (s : State) : Answer := finish (setOutstanding none) (decposBody ids s) s

/-- `A.DECBATT` (R111). -/
def execADecbatt (s : State) : Answer := finish (setOutstanding none) (decbattBody s) s

end Sys2Proof.Machine
end

