-- ==== Sys2Proof/Machine/CodecB.lean ====
section
/-! DEFINITION. Unit B, Frame Codec B (41_codec_b.md): the six encode operations, the host load, the decode and the
checksum operation of the request port. -/

namespace Sys2Proof.Machine

/-- The shape of every unit B encode (R100, R141, R143 to R148): the preamble, the operand check `bad`, then
`BuildB`. -/
def encodeB (bad : Option Raise) (cmd id : Byte) (p : List Byte) (reply : Bool) (s : State) : Answer :=
  encodePreamble s <|
    match bad with
    | some r => raiseOutcome r (dropTxb s)
    | none =>
      complete Result.unwritten
        (setOutstanding (if reply then some ⟨.b, cmd⟩ else s.outstanding) (loadTxb (frameB cmd id p) s))

/-- The validation a bounded command's payload gets (R142, R143); `none` where it passes. The payload has the length
`Preq` when this is asked; in a table whose `Preq` is less than the bounds are about there is nothing to check
(notes/assumptions/15.md). -/
def validatePayload (b : Config.Bounds) (p : List Byte) : Option Raise :=
  match b, p with
  | .move, p0 :: p1 :: p2 :: p3 :: _ => validateMove (le16 p0 p1) (le16 p2 p3)
  | .angleLimit, p0 :: p1 :: p2 :: p3 :: _ => validateAngleLimit (le16 p0 p1) (le16 p2 p3)
  | .vin, p0 :: p1 :: p2 :: p3 :: _ => validateVin (le16 p0 p1) (le16 p2 p3)
  | .temp, p0 :: _ => validateTemp (zext16 p0)
  | _, _ => none

/-- The checks of `B.ENC` on its operands (R143): the payload's length, then for a command whose row has bounds `Preq` and
those bounds. -/
def checkCommandB (c : Config.Commands) (cmd : Byte) (p : List Byte) : Option Raise :=
  if Config.payloadMaxB < p.length then some (badRequest .payloadTooLong)
  else
    match rowOf c cmd with
    | none => none
    | some r =>
      if r.bounds = .unbounded then none
      else if p.length ≠ r.preq then some (badRequest .payloadLengthMismatch)
      else validatePayload r.bounds p

/-- Whether a reply to `cmd` is expected (R76, D44): the `reply` column of the table, or `resp` for a command not in it. -/
def expectsReplyB (c : Config.Commands) (cmd : Byte) (resp : Bool) : Bool :=
  match rowOf c cmd with
  | some r => r.reply
  | none => resp

/-- Encode any command for one servo id (R143). -/
def encodeCommandB (cmd id : Byte) (resp : Bool) (p : List Byte) (s : State) : Answer :=
  encodeB (checkCommandB s.params.commands cmd p) cmd id p (expectsReplyB s.params.commands cmd resp) s

/-- Encode the command of a name, with the payload its frame carries (R79, R143). -/
def encodeNamedB (n : Config.CommandName) (id : Byte) (p : List Byte) (s : State) : Answer :=
  encodeCommandB (codeOf s.params.commands n) id false p s

/-- Encode a move from typed values (R144, R145). -/
def encodeMove (n : Config.CommandName) (id : Byte) (pos time : Half) (s : State) : Answer :=
  encodeB (validateMove pos time) (codeOf s.params.commands n) id (bytes16 pos ++ bytes16 time) false s

/-- Encode the angle limits (R146). -/
def encodeAngleLimit (id : Byte) (mn mx : Half) (s : State) : Answer :=
  encodeB (validateAngleLimit mn mx) (codeOf s.params.commands .angleLimitWrite) id (bytes16 mn ++ bytes16 mx) false s

/-- Encode the voltage limits (R147). -/
def encodeVinLimit (id : Byte) (mn mx : Half) (s : State) : Answer :=
  encodeB (validateVin mn mx) (codeOf s.params.commands .vinLimitWrite) id (bytes16 mn ++ bytes16 mx) false s

/-- Encode the temperature limit (R148): the payload is `t[7:0]`, and the value is validated before it is cut. -/
def encodeTempLimit (id : Byte) (t : Half) (s : State) : Answer :=
  encodeB (validateTemp t) (codeOf s.params.commands .tempMaxLimitWrite) id [lowByte t] false s

/-- `B.ENC` (R143). -/
def execBEnc (cmd id : Byte) (resp : Bool) (p : List Byte) (s : State) : Answer := encodeCommandB cmd id resp p s

/-- `B.MOVE` (R144): `MOVE_TIME_WRITE`, code 1. -/
def execBMove (id : Byte) (pos time : Half) (s : State) : Answer := encodeMove .moveTimeWrite id pos time s

/-- `B.MOVEW` (R145): `MOVE_TIME_WAIT_WRITE`. -/
def execBMovew (id : Byte) (pos time : Half) (s : State) : Answer := encodeMove .moveTimeWaitWrite id pos time s

/-- `B.ANGLIM` (R146). -/
def execBAnglim (id : Byte) (mn mx : Half) (s : State) : Answer := encodeAngleLimit id mn mx s

/-- `B.VINLIM` (R147). -/
def execBVinlim (id : Byte) (mn mx : Half) (s : State) : Answer := encodeVinLimit id mn mx s

/-- `B.TEMPLIM` (R148). -/
def execBTemplim (id : Byte) (t : Half) (s : State) : Answer := encodeTempLimit id t s

/-- `B.RXLOAD` (R149): `OUTSTANDING` is not touched. -/
def execBRxload (b : List Byte) (s : State) : Answer :=
  if Config.rxbMax < b.length then raiseOutcome (badRequest .rxTooLong) s
  else complete Result.unwritten (loadRxb b s)

/-- `raise` of a unit B decode failure (R150). -/
def reject {α : Type} (k : OutcomeKind) : Except Stop α := .error (.raise (plainRaise k))

/-- The checks of `B.DEC` on a reply of `n` bytes, in the order of R150 (90_conflicts.md C4), and its result. -/
def decBodyB (ecmd eid : Byte) (s : State) : Except Stop Result :=
  let n := s.rxbCount.toNat
  if n = 0 then reject .noResponse
  else if n < 2 then reject .invalidSignature
  else do
    let b0 ← need (cellRead s.rxb 0)
    let b1 ← need (cellRead s.rxb 1)
    if b0 ≠ Config.sig ∨ b1 ≠ Config.sig then reject .invalidSignature
    else if n < 6 then reject .invalidLength
    else do
      let body ← need (cellReadSeq s.rxb 2 (n - 3))
      let chk ← need (cellRead s.rxb (n - 1))
      let id ← need (cellRead s.rxb 2)
      let len ← need (cellRead s.rxb 3)
      let cmd ← need (cellRead s.rxb 4)
      if checksum body ≠ chk then reject .checksumMismatch
      else if ecmd ≠ codeOf s.params.commands .idRead ∧ id ≠ eid then reject .invalidServoId
      else if len.toNat + 3 ≠ n then reject .invalidLength
      else if cmd ≠ ecmd then reject .invalidCommand
      else do
        let p ← need (cellReadSeq s.rxb 5 (n - 6))
        .ok { Result.unwritten with payload := cellsOf p, plen := some (countByte (n - 6)), byte := some id }

/-- `B.DEC` (R150, R151): `OUTSTANDING` is cleared whatever the outcome (R37). -/
def execBDec (ecmd eid : Byte) (s : State) : Answer := finish (setOutstanding none) (decBodyB ecmd eid s) s

/-- `B.CHK` (R152): always `OK`. -/
def execBChk (b : List Byte) (s : State) : Answer := complete { Result.unwritten with byte := some (checksum b) } s

end Sys2Proof.Machine
end

