-- ==== Sys2Proof/Machine/MotionMapper.lean ====
section
/-! DEFINITION. Unit M, Motion mapper (42_motion_mapper.md). -/

namespace Sys2Proof.Machine

/-- A valid ServoDefinition (R181, R182, D25): both ends finite, `min < max`, and `max - min` finite. -/
def servoDefinitionOk (mn mx : F64) : Bool :=
  f64Finite mn && f64Finite mx && f64Lt mn mx && f64Finite (f64Sub mx mn)

/-- `v = (1000 * (ac - min)) / (max - min)` (R181). -/
def a2rQuotient (angle mn mx : F64) : F64 :=
  f64Div (f64Mul (f64OfInt 1000) (f64Sub (f64Clamp angle mn mx) mn)) (f64Sub mx mn)

/-- The largest `ac - min` for which `1000 * (ac - min)` does not overflow binary64. -/
def a2rWidest : F64 := 0x7F50624DD2F1A9FB#64

/-- `round(v)` (R181) where `1000 * (ac - min)` overflows binary64, so that `v` is an infinity and the spec states no
rounding of it: the whole part of the exact quotient, or one more where the rest reaches a free threshold between 0 and 1,
but no less than the widest range that does not overflow gives. Whatever the threshold, the laws of R190 hold. DESIGN
CHOICE, notes/assumptions/11.md. -/
def a2rOverflow (m : Config.Midpoint) (angle mn mx : F64) : Nat :=
  let num := 1000 * magUnits (f64Mag (f64Sub (f64Clamp angle mn mx) mn))
  let den := magUnits (f64Mag (f64Sub mx mn))
  let threshold := Config.a2rThreshold mn mx (num / den) % (2 ^ 20 - 1) + 1
  max (f64Round m (f64Div (f64Mul (f64OfInt 1000) a2rWidest) (f64Sub mx mn))).toNat
    (num / den + if threshold * den ≤ num % den * 2 ^ 20 then 1 else 0)

/-- `round(v)` (R181). -/
def a2rValue (m : Config.Midpoint) (angle mn mx : F64) : Word :=
  if f64Finite (a2rQuotient angle mn mx) then BitVec.ofInt 32 (f64Round m (a2rQuotient angle mn mx))
  else BitVec.ofNat 32 (a2rOverflow m angle mn mx)

/-- The body of `M.A2R` (R181). -/
def a2rBody (m : Config.Midpoint) (angle mn mx : F64) : Except Stop Result :=
  if !servoDefinitionOk mn mx then .error (.raise (badRequest .invalidServoDefinition))
  else if f64IsNaN angle then .error (.raise (badRequest .nonFinite))
  else .ok { Result.unwritten with int := some (a2rValue m angle mn mx) }

/-- `clamp(raw, 0, 1000)` on integers (R182). -/
def rawClamp (raw : Word) : Int := if raw.toInt < 0 then 0 else if 1000 < raw.toInt then 1000 else raw.toInt

/-- `((rc / 1000) * (max - min)) + min` (R182). -/
def r2aValue (raw : Word) (mn mx : F64) : F64 :=
  f64Add (f64Mul (f64Div (f64OfInt (rawClamp raw)) (f64OfInt 1000)) (f64Sub mx mn)) mn

/-- The body of `M.R2A` (R182). -/
def r2aBody (raw : Word) (mn mx : F64) : Except Stop Result :=
  if !servoDefinitionOk mn mx then .error (.raise (badRequest .invalidServoDefinition))
  else .ok { Result.unwritten with f64 := some (r2aValue raw mn mx) }

/-- `alpha_i = (i / 128) * (PI / 2)` (R183, R186). -/
def alphaOf (i : Nat) : F64 := f64Mul (f64Div (f64OfInt i) (f64OfInt 128)) f64HalfPi

/-- One height-table entry (R183), in the order R180 gives: `((L4 + L3*sin(a)) - L2*cos(2*a)) - L1*sin(3*a)`. -/
def heightEntry (n : Config.Numeric) (l1 l2 l3 l4 : F64) (i : Nat) : F64 :=
  f64Sub
    (f64Sub (f64Add l4 (f64Mul l3 (f64Sin n (alphaOf i)))) (f64Mul l2 (f64Cos n (f64Mul (f64OfInt 2) (alphaOf i)))))
    (f64Mul l1 (f64Sin n (f64Mul (f64OfInt 3) (alphaOf i))))

/-- The height table of an ArmModel (R183). -/
def heightTable (n : Config.Numeric) (l1 l2 l3 l4 : F64) : List F64 :=
  (List.range Config.pzEntries).map (heightEntry n l1 l2 l3 l4)

/-- A link length the block accepts (R183): finite and not below zero; `-0.0` passes. -/
def lengthOk (l : F64) : Bool := f64Finite l && f64Le 0#64 l

/-- `M.LOADARM` (R183): the lengths, then `ARM_VALID`, then the entries (90_conflicts.md C12). -/
def execMLoadarm (l1 l2 l3 l4 : F64) (s : State) : Answer :=
  if !(lengthOk l1 && lengthOk l2 && lengthOk l3 && lengthOk l4) then raiseOutcome (badRequest .invalidArmModel) s
  else if s.armValid then raiseOutcome (badRequest .armModelLocked) s
  else if !(heightTable s.params.numeric l1 l2 l3 l4).all f64Finite then raiseOutcome (badRequest .invalidArmModel) s
  else complete Result.unwritten (loadArm l1 l2 l3 l4 (heightTable s.params.numeric l1 l2 l3 l4) s)

/-- The body of `M.PZ` (R184). -/
def pzBody (i : Byte) (s : State) : Except Stop Result :=
  if 127 < i.toNat then .error (.raise (badRequest .indexOutOfRange))
  else if !s.armValid then .error (.raise (badRequest .tableNotBuilt))
  else do
    let h ← need (cellRead s.pz i.toNat)
    .ok { Result.unwritten with f64 := some h }

/-- The scan of R185 from index `i` with `n` indices left: the first index whose entry is at least `z`, else 127. -/
def scanHeights (m : Cells F64) (z : F64) : Nat → Nat → Except Stop Nat
  | _, 0 => .ok 127
  | i, n + 1 => do
    let h ← need (cellRead m i)
    if f64Le z h then .ok i else scanHeights m z (i + 1) n

/-- The body of `M.Z2I` (R185). -/
def z2iBody (z : F64) (s : State) : Except Stop Result :=
  if f64IsNaN z then .error (.raise (badRequest .nonFinite))
  else if !s.armValid then .error (.raise (badRequest .tableNotBuilt))
  else do
    let i ← scanHeights s.pz z 0 Config.pzEntries
    .ok { Result.unwritten with int := some (BitVec.ofNat 32 i) }

/-- `v = 900 - ((a / (PI / 2)) * 400)` (R186). -/
def i2rQuotient (i : Nat) : F64 :=
  f64Sub (f64OfInt 900) (f64Mul (f64Div (alphaOf i) f64HalfPi) (f64OfInt 400))

/-- The body of `M.I2R` (R186). -/
def i2rBody (m : Config.Midpoint) (i : Byte) : Except Stop Result :=
  if 127 < i.toNat then .error (.raise (badRequest .indexOutOfRange))
  else .ok { Result.unwritten with int := some (BitVec.ofInt 32 (f64Round m (i2rQuotient i.toNat))) }

/-- The bearing of R188: the divisor of larger magnitude is chosen, a tie taking the first branch (D29). -/
def tetaValue (n : Config.Numeric) (x y : F64) : F64 :=
  if f64Le (f64Abs y) (f64Abs x) then f64Atan n (f64Div y x) else f64Sub f64HalfPi (f64Atan n (f64Div x y))

/-- The body of `M.TETA` (R188). -/
def tetaBody (n : Config.Numeric) (x y : F64) : Except Stop Result :=
  if !(f64Finite x && f64Finite y) then .error (.raise (badRequest .nonFinite))
  else if f64IsZero x && f64IsZero y then .error (.raise (badRequest .degenerateBearing))
  else .ok { Result.unwritten with f64 := some (tetaValue n x y) }

/-- `M.A2R` (R181). -/
def execMA2r (angle mn mx : F64) (s : State) : Answer := finish id (a2rBody s.params.numeric.midpoint angle mn mx) s

/-- `M.R2A` (R182). -/
def execMR2a (raw : Word) (mn mx : F64) (s : State) : Answer := finish id (r2aBody raw mn mx) s

/-- `M.PZ` (R184). -/
def execMPz (i : Byte) (s : State) : Answer := finish id (pzBody i s) s

/-- `M.Z2I` (R185). -/
def execMZ2i (z : F64) (s : State) : Answer := finish id (z2iBody z s) s

/-- `M.I2R` (R186). -/
def execMI2r (i : Byte) (s : State) : Answer := finish id (i2rBody s.params.numeric.midpoint i) s

/-- `M.TETA` (R188). -/
def execMTeta (x y : F64) (s : State) : Answer := finish id (tetaBody s.params.numeric x y) s

end Sys2Proof.Machine
end

