-- ==== Sys2Proof/Machine/WireB.lean ====
section
/-! DEFINITION. The unit B command frames of the opcode table (30_encoding.md R78, R79) as operations: each is the encode
of 41_codec_b.md that emits the frame, which is the rule its row of spec/opcode_table.json names. -/

namespace Sys2Proof.Machine

/-- The command frame `MOVE_TIME_WRITE` (R79): the encode that emits it (R144). DEDUCED, notes/assumptions/2.md. -/
def execMoveTimeWrite (id : Byte) (pos time : Half) (s : State) : Answer := encodeMove .moveTimeWrite id pos time s

/-- The command frame `MOVE_TIME_READ` (R79): the encode that emits it (R143). DEDUCED, notes/assumptions/2.md. -/
def execMoveTimeRead (id : Byte) (s : State) : Answer := encodeNamedB .moveTimeRead id [] s

/-- The command frame `MOVE_TIME_WAIT_WRITE` (R79): the encode that emits it (R145). DEDUCED, notes/assumptions/2.md. -/
def execMoveTimeWaitWrite (id : Byte) (pos time : Half) (s : State) : Answer := encodeMove .moveTimeWaitWrite id pos time s

/-- The command frame `MOVE_TIME_WAIT_READ` (R79): the encode that emits it (R143). DEDUCED, notes/assumptions/2.md. -/
def execMoveTimeWaitRead (id : Byte) (s : State) : Answer := encodeNamedB .moveTimeWaitRead id [] s

/-- The command frame `MOVE_START` (R79): the encode that emits it (R143). DEDUCED, notes/assumptions/2.md. -/
def execMoveStart (id : Byte) (s : State) : Answer := encodeNamedB .moveStart id [] s

/-- The command frame `MOVE_STOP` (R79): the encode that emits it (R143). DEDUCED, notes/assumptions/2.md. -/
def execMoveStop (id : Byte) (s : State) : Answer := encodeNamedB .moveStop id [] s

/-- The command frame `ID_WRITE` (R79): the encode that emits it (R143). DEDUCED, notes/assumptions/2.md. -/
def execIdWrite (id p0 : Byte) (s : State) : Answer := encodeNamedB .idWrite id [p0] s

/-- The command frame `ID_READ` (R79): the encode that emits it (R143). DEDUCED, notes/assumptions/2.md. -/
def execIdRead (id : Byte) (s : State) : Answer := encodeNamedB .idRead id [] s

/-- The command frame `ANGLE_OFFSET_ADJUST` (R79): the encode that emits it (R143). DEDUCED, notes/assumptions/2.md. -/
def execAngleOffsetAdjust (id p0 : Byte) (s : State) : Answer := encodeNamedB .angleOffsetAdjust id [p0] s

/-- The command frame `ANGLE_OFFSET_WRITE` (R79): the encode that emits it (R143). DEDUCED, notes/assumptions/2.md. -/
def execAngleOffsetWrite (id : Byte) (s : State) : Answer := encodeNamedB .angleOffsetWrite id [] s

/-- The command frame `ANGLE_OFFSET_READ` (R79): the encode that emits it (R143). DEDUCED, notes/assumptions/2.md. -/
def execAngleOffsetRead (id : Byte) (s : State) : Answer := encodeNamedB .angleOffsetRead id [] s

/-- The command frame `ANGLE_LIMIT_WRITE` (R79): the encode that emits it (R146). DEDUCED, notes/assumptions/2.md. -/
def execAngleLimitWrite (id : Byte) (mn mx : Half) (s : State) : Answer := encodeAngleLimit id mn mx s

/-- The command frame `ANGLE_LIMIT_READ` (R79): the encode that emits it (R143). DEDUCED, notes/assumptions/2.md. -/
def execAngleLimitRead (id : Byte) (s : State) : Answer := encodeNamedB .angleLimitRead id [] s

/-- The command frame `VIN_LIMIT_WRITE` (R79): the encode that emits it (R147). DEDUCED, notes/assumptions/2.md. -/
def execVinLimitWrite (id : Byte) (mn mx : Half) (s : State) : Answer := encodeVinLimit id mn mx s

/-- The command frame `VIN_LIMIT_READ` (R79): the encode that emits it (R143). DEDUCED, notes/assumptions/2.md. -/
def execVinLimitRead (id : Byte) (s : State) : Answer := encodeNamedB .vinLimitRead id [] s

/-- The command frame `TEMP_MAX_LIMIT_WRITE` (R79): the encode that emits it (R148). DEDUCED, notes/assumptions/2.md. -/
def execTempMaxLimitWrite (id p0 : Byte) (s : State) : Answer := encodeTempLimit id (zext16 p0) s

/-- The command frame `TEMP_MAX_LIMIT_READ` (R79): the encode that emits it (R143). DEDUCED, notes/assumptions/2.md. -/
def execTempMaxLimitRead (id : Byte) (s : State) : Answer := encodeNamedB .tempMaxLimitRead id [] s

/-- The command frame `TEMP_READ` (R79): the encode that emits it (R143). DEDUCED, notes/assumptions/2.md. -/
def execTempRead (id : Byte) (s : State) : Answer := encodeNamedB .tempRead id [] s

/-- The command frame `VIN_READ` (R79): the encode that emits it (R143). DEDUCED, notes/assumptions/2.md. -/
def execVinRead (id : Byte) (s : State) : Answer := encodeNamedB .vinRead id [] s

/-- The command frame `POS_READ` (R79): the encode that emits it (R143). DEDUCED, notes/assumptions/2.md. -/
def execPosRead (id : Byte) (s : State) : Answer := encodeNamedB .posRead id [] s

/-- The command frame `OR_MOTOR_MODE_WRITE` (R79): the encode that emits it (R143). DEDUCED, notes/assumptions/2.md. -/
def execOrMotorModeWrite (id p0 p1 p2 p3 : Byte) (s : State) : Answer := encodeNamedB .orMotorModeWrite id [p0, p1, p2, p3] s

/-- The command frame `OR_MOTOR_MODE_READ` (R79): the encode that emits it (R143). DEDUCED, notes/assumptions/2.md. -/
def execOrMotorModeRead (id : Byte) (s : State) : Answer := encodeNamedB .orMotorModeRead id [] s

/-- The command frame `LOAD_OR_UNLOAD_WRITE` (R79): the encode that emits it (R143). DEDUCED, notes/assumptions/2.md. -/
def execLoadOrUnloadWrite (id p0 : Byte) (s : State) : Answer := encodeNamedB .loadOrUnloadWrite id [p0] s

/-- The command frame `LOAD_OR_UNLOAD_READ` (R79): the encode that emits it (R143). DEDUCED, notes/assumptions/2.md. -/
def execLoadOrUnloadRead (id : Byte) (s : State) : Answer := encodeNamedB .loadOrUnloadRead id [] s

/-- The command frame `LED_CTRL_WRITE` (R79): the encode that emits it (R143). DEDUCED, notes/assumptions/2.md. -/
def execLedCtrlWrite (id p0 : Byte) (s : State) : Answer := encodeNamedB .ledCtrlWrite id [p0] s

/-- The command frame `LED_CTRL_READ` (R79): the encode that emits it (R143). DEDUCED, notes/assumptions/2.md. -/
def execLedCtrlRead (id : Byte) (s : State) : Answer := encodeNamedB .ledCtrlRead id [] s

/-- The command frame `LED_ERROR_WRITE` (R79): the encode that emits it (R143). DEDUCED, notes/assumptions/2.md. -/
def execLedErrorWrite (id p0 : Byte) (s : State) : Answer := encodeNamedB .ledErrorWrite id [p0] s

/-- The command frame `LED_ERROR_READ` (R79): the encode that emits it (R143). DEDUCED, notes/assumptions/2.md. -/
def execLedErrorRead (id : Byte) (s : State) : Answer := encodeNamedB .ledErrorRead id [] s

end Sys2Proof.Machine
end

