-- ==== Sys2Proof/Machine/Dispatch.lean ====
section
/-! DEFINITION. One arm for each row of spec/opcode_table.json. -/

namespace Sys2Proof.Machine

/-- The meaning of each operation. -/
def exec (i : Instr) (s : State) : Host.Outcome State Fault Refusal :=
  match i with
  | .aEnc cmd resp p => Sys2Proof.Machine.execAEnc cmd resp p s
  | .aSetpos dur pairs => Sys2Proof.Machine.execASetpos dur pairs s
  | .aGetpos ids => Sys2Proof.Machine.execAGetpos ids s
  | .aStop ids => Sys2Proof.Machine.execAStop ids s
  | .aBatt => Sys2Proof.Machine.execABatt s
  | .aRxload b => Sys2Proof.Machine.execARxload b s
  | .aDec cmd elen => Sys2Proof.Machine.execADec cmd elen s
  | .aDecpos ids => Sys2Proof.Machine.execADecpos ids s
  | .aDecbatt => Sys2Proof.Machine.execADecbatt s
  | .bEnc cmd id resp p => Sys2Proof.Machine.execBEnc cmd id resp p s
  | .bMove id pos time => Sys2Proof.Machine.execBMove id pos time s
  | .bMovew id pos time => Sys2Proof.Machine.execBMovew id pos time s
  | .bAnglim id mn mx => Sys2Proof.Machine.execBAnglim id mn mx s
  | .bVinlim id mn mx => Sys2Proof.Machine.execBVinlim id mn mx s
  | .bTemplim id t => Sys2Proof.Machine.execBTemplim id t s
  | .bRxload b => Sys2Proof.Machine.execBRxload b s
  | .bDec ecmd eid => Sys2Proof.Machine.execBDec ecmd eid s
  | .bChk b => Sys2Proof.Machine.execBChk b s
  | .mA2r angle mn mx => Sys2Proof.Machine.execMA2r angle mn mx s
  | .mR2a raw mn mx => Sys2Proof.Machine.execMR2a raw mn mx s
  | .mLoadarm l1 l2 l3 l4 => Sys2Proof.Machine.execMLoadarm l1 l2 l3 l4 s
  | .mPz idx => Sys2Proof.Machine.execMPz idx s
  | .mZ2i z => Sys2Proof.Machine.execMZ2i z s
  | .mI2r idx => Sys2Proof.Machine.execMI2r idx s
  | .mTeta x y => Sys2Proof.Machine.execMTeta x y s
  | .cmdASetpos dur pairs => Sys2Proof.Machine.execCmdASetpos dur pairs s
  | .cmdAGetpos ids => Sys2Proof.Machine.execCmdAGetpos ids s
  | .cmdAStop ids => Sys2Proof.Machine.execCmdAStop ids s
  | .cmdABatt => Sys2Proof.Machine.execCmdABatt s
  | .moveTimeWrite id pos time => Sys2Proof.Machine.execMoveTimeWrite id pos time s
  | .moveTimeRead id => Sys2Proof.Machine.execMoveTimeRead id s
  | .moveTimeWaitWrite id pos time => Sys2Proof.Machine.execMoveTimeWaitWrite id pos time s
  | .moveTimeWaitRead id => Sys2Proof.Machine.execMoveTimeWaitRead id s
  | .moveStart id => Sys2Proof.Machine.execMoveStart id s
  | .moveStop id => Sys2Proof.Machine.execMoveStop id s
  | .idWrite id p0 => Sys2Proof.Machine.execIdWrite id p0 s
  | .idRead id => Sys2Proof.Machine.execIdRead id s
  | .angleOffsetAdjust id p0 => Sys2Proof.Machine.execAngleOffsetAdjust id p0 s
  | .angleOffsetWrite id => Sys2Proof.Machine.execAngleOffsetWrite id s
  | .angleOffsetRead id => Sys2Proof.Machine.execAngleOffsetRead id s
  | .angleLimitWrite id mn mx => Sys2Proof.Machine.execAngleLimitWrite id mn mx s
  | .angleLimitRead id => Sys2Proof.Machine.execAngleLimitRead id s
  | .vinLimitWrite id mn mx => Sys2Proof.Machine.execVinLimitWrite id mn mx s
  | .vinLimitRead id => Sys2Proof.Machine.execVinLimitRead id s
  | .tempMaxLimitWrite id p0 => Sys2Proof.Machine.execTempMaxLimitWrite id p0 s
  | .tempMaxLimitRead id => Sys2Proof.Machine.execTempMaxLimitRead id s
  | .tempRead id => Sys2Proof.Machine.execTempRead id s
  | .vinRead id => Sys2Proof.Machine.execVinRead id s
  | .posRead id => Sys2Proof.Machine.execPosRead id s
  | .orMotorModeWrite id p0 p1 p2 p3 => Sys2Proof.Machine.execOrMotorModeWrite id p0 p1 p2 p3 s
  | .orMotorModeRead id => Sys2Proof.Machine.execOrMotorModeRead id s
  | .loadOrUnloadWrite id p0 => Sys2Proof.Machine.execLoadOrUnloadWrite id p0 s
  | .loadOrUnloadRead id => Sys2Proof.Machine.execLoadOrUnloadRead id s
  | .ledCtrlWrite id p0 => Sys2Proof.Machine.execLedCtrlWrite id p0 s
  | .ledCtrlRead id => Sys2Proof.Machine.execLedCtrlRead id s
  | .ledErrorWrite id p0 => Sys2Proof.Machine.execLedErrorWrite id p0 s
  | .ledErrorRead id => Sys2Proof.Machine.execLedErrorRead id s

end Sys2Proof.Machine
end

