-- ==== Sys2Proof/Machine/Step.lean ====
section
/-! DEFINITION. One step of the block: take the next request and execute it (10_state.md R21, R38; 60_exceptions.md
R223). -/

namespace Sys2Proof.Machine

/-- Take the request `r`, with the state `s` holding the requests after it. A reserved selector is refused (R223): the
ghost bit is set, no register and no port is written, and the next `step` stops. -/
def takeRequest (r : Request) (s : State) : Host.Outcome State Fault Refusal :=
  match decode s.params.commands r with
  | .ok i => exec i s
  | .error .reservedSelector => .next (markRefused s)
  | .error .notACommandFrame => .refused .notACommandFrame
  | .error .shortRecord => .refused .malformedRecord
  | .error .notABit => .refused .malformedRecord

/-- One step. A run whose `FAULT` set is not empty or whose `REFUSED` bit is 1 has ended (R38). With no request the
block is idle and keeps all its state (R238, R260). -/
def step (s : State) : Host.Outcome State Fault Refusal :=
  if s.faults ≠ [] then .fault .runEnded
  else if s.refused then .refused .runEnded
  else
    match s.requests with
    | [] => .next s
    | r :: rs => takeRequest r (withRequests rs s)

/-- `s` with the request of the opcode-table bits `w` issued as the next one: it stands for the host presenting it.
Requests already pending stay behind it. -/
def State.withFetchWord (s : State) (nbits w : Nat) : State := withRequests (tableRequest nbits w :: s.requests) s

end Sys2Proof.Machine
end

