-- ==== Sys2Proof/Machine/HostView.lean ====
section
/-! DEFINITION. What the host reads of the block and does with it: the frames on offer (10_state.md R29, R31), the transport
write limit (60_exceptions.md R236), the load a transport read leads to (R231), the fields of a unit B reply
(30_encoding.md R80), the sentinel accessor (R239) and the pseudo-operations (R85). No meaning of `exec` uses any of it. -/

namespace Sys2Proof.Machine

/-- The unit A frame the host may transmit: `TXA[0..63]`, only when `TXA_VALID = 1` (R29, R269). -/
def offeredA (s : State) : Option (List Byte) := if s.txaValid then cellReadSeq s.txa 0 64 else none

/-- The unit B frame the host may transmit: `TXB[0..TXB_LEN-1]`, only when `TXB_VALID = 1` (R31, R269). -/
def offeredB (s : State) : Option (List Byte) := if s.txbValid then cellReadSeq s.txb 0 s.txbLen.toNat else none

/-- Whether a transport of kind `k` accepts a write of `f` (R236, R268). -/
def transportAccepts (k : Config.Transport) (f : List Byte) : Bool :=
  match k with
  | .usb => decide (f.length ≤ Config.usbMaxWrite)
  | .serial => true

/-- The operation the host issues for what `Transport.read` returned (R231): the load of the bytes, `some []` being a
timeout; `none` is `Err(TransportError)`, for which the block takes no operation. -/
def loadOfRead (u : CodecUnit) (r : Option (List Byte)) : Option Instr :=
  match u, r with
  | .a, some b => some (.aRxload b)
  | .b, some b => some (.bRxload b)
  | _, none => none

/-- The fields of a unit B reply (R80). PRESUMED, notes/assumptions/7.md. -/
inductive ReplyFields where
  | moveTime (position time : Half)
  | servoId (id : Byte)
  | angleOffset (offset : Int)
  | angleLimits (mn mx : Half)
  | vinLimits (mn mx : Half)
  | temperature (t : Byte)
  | voltage (mv : Half)
  | position (p : Int)
  | motorMode (mode : Byte) (speed : Int)
  | value (v : Byte)
  deriving DecidableEq, Repr

/-- The fields of the payload of a reply to a command (R80); `none` where R80 gives none. -/
def replyFields (n : Config.CommandName) (p : List Byte) : Option ReplyFields :=
  match n, p with
  | .moveTimeRead, [p0, p1, p2, p3] => some (.moveTime (le16 p0 p1) (le16 p2 p3))
  | .moveTimeWaitRead, [p0, p1, p2, p3] => some (.moveTime (le16 p0 p1) (le16 p2 p3))
  | .idRead, [p0] => some (.servoId p0)
  | .angleOffsetRead, [p0] => some (.angleOffset (s8 p0))
  | .angleLimitRead, [p0, p1, p2, p3] => some (.angleLimits (le16 p0 p1) (le16 p2 p3))
  | .vinLimitRead, [p0, p1, p2, p3] => some (.vinLimits (le16 p0 p1) (le16 p2 p3))
  | .tempMaxLimitRead, [p0] => some (.temperature p0)
  | .tempRead, [p0] => some (.temperature p0)
  | .vinRead, [p0, p1] => some (.voltage (le16 p0 p1))
  | .posRead, [p0, p1] => some (.position (s16 (le16 p0 p1)))
  | .orMotorModeRead, [p0, _, p2, p3] => some (.motorMode p0 (s16 (le16 p2 p3)))
  | .loadOrUnloadRead, [p0] => some (.value p0)
  | .ledCtrlRead, [p0] => some (.value p0)
  | .ledErrorRead, [p0] => some (.value p0)
  | _, _ => none

/-- The host's sentinel accessor (R239): `-1` for `NoResponse`, and for any other failure only where the caller asks for
it (`all`). What it answers for a failure the caller did not ask to convert is not stated: the caller's own value `v`.
DESIGN CHOICE, notes/assumptions/18.md. -/
def sentinel (all : Bool) (r : Response) (v : Int) : Int :=
  if r.status = outcomeCode .noResponse then -1
  else if all ∧ r.status ≠ outcomeCode .ok then -1
  else v

/-- The pseudo-operations that expand to one operation (R85). -/
inductive Pseudo where
  | aSetpos1 (id : Byte) (pos dur : Half)
  | aGetpos1 (id : Byte)
  | aDecpos1 (id : Byte)
  | aStopall
  | bPosread (id : Byte)
  | bIdread
  | bStop (id : Byte)
  deriving DecidableEq, Repr

/-- The expansions of R85, with the codes of the configuration (R85: they share the status of R79's). -/
def expandPseudo (c : Config.Commands) : Pseudo → Instr
  | .aSetpos1 id pos dur => .aSetpos dur [⟨id, pos⟩]
  | .aGetpos1 id => .aGetpos [id]
  | .aDecpos1 id => .aDecpos [id]
  | .aStopall => .aStop [1#8, 2#8, 3#8, 4#8, 5#8, 6#8]
  | .bPosread id => .bEnc (codeOf c .posRead) id false []
  | .bIdread => .bEnc (codeOf c .idRead) Config.broadcastId false []
  | .bStop id => .bEnc (codeOf c .moveStop) id false []

/-- `M.Z2R z` (R85, R187): `M.Z2I z`, then `M.I2R` of the `R_INT` it left. What the chain does where `M.Z2I` does not end
`OK` is not stated: no `M.I2R` is issued, and the chain ends with the answer of `M.Z2I`. DESIGN CHOICE,
notes/assumptions/20.md. After a fault of `M.Z2I` the run has ended (R38). -/
def runZ2r (z : F64) (s : State) : Answer :=
  match exec (.mZ2i z) s with
  | .next t =>
    match t.result.int with
    | some i => if t.faults = s.faults then exec (.mI2r (BitVec.ofNat 8 i.toNat)) t else .next t
    | none => .next t
  | .fault f => .fault f
  | .refused r => .refused r

end Sys2Proof.Machine
end

