-- ==== Sys2Proof/Safety.lean ====
section
/-! DEFINITION. What a claim may call a good run: the states a run can go on from, what each operation may write
(20_memory.md R51), and the invariant of every state a run reaches. -/

namespace Sys2Proof.Machine

/-- The run has not ended (R38): no fault is latched and no request was refused. -/
def State.running (s : State) : Prop := s.faults = [] ∧ s.refused = false

/-- The run of `k` steps from `s` is good: no step stops, and the last state can go on. -/
def goodRun (k : Nat) (s : State) : Prop := ∃ t, Sys2Proof.core.run k s = .next t ∧ t.running

/-- What an operation is, for the spaces it may write (R51) and the ghost `OUTSTANDING` (R37). -/
inductive OpKind where
  | encodeA
  | loadA
  | decodeA
  | encodeB
  | loadB
  | decodeB
  | checksum
  | loadArm
  | mapper
  deriving DecidableEq, Repr

/-- The kind of each operation (R51). -/
def opKind : Instr → OpKind
  | .aEnc _ _ _ => .encodeA
  | .aSetpos _ _ => .encodeA
  | .aGetpos _ => .encodeA
  | .aStop _ => .encodeA
  | .aBatt => .encodeA
  | .aRxload _ => .loadA
  | .aDec _ _ => .decodeA
  | .aDecpos _ => .decodeA
  | .aDecbatt => .decodeA
  | .bEnc _ _ _ _ => .encodeB
  | .bMove _ _ _ => .encodeB
  | .bMovew _ _ _ => .encodeB
  | .bAnglim _ _ _ => .encodeB
  | .bVinlim _ _ _ => .encodeB
  | .bTemplim _ _ => .encodeB
  | .bRxload _ => .loadB
  | .bDec _ _ => .decodeB
  | .bChk _ => .checksum
  | .mA2r _ _ _ => .mapper
  | .mR2a _ _ _ => .mapper
  | .mLoadarm _ _ _ _ => .loadArm
  | .mPz _ => .mapper
  | .mZ2i _ => .mapper
  | .mI2r _ => .mapper
  | .mTeta _ _ => .mapper
  | .cmdASetpos _ _ => .encodeA
  | .cmdAGetpos _ => .encodeA
  | .cmdAStop _ => .encodeA
  | .cmdABatt => .encodeA
  | .moveTimeWrite _ _ _ => .encodeB
  | .moveTimeRead _ => .encodeB
  | .moveTimeWaitWrite _ _ _ => .encodeB
  | .moveTimeWaitRead _ => .encodeB
  | .moveStart _ => .encodeB
  | .moveStop _ => .encodeB
  | .idWrite _ _ => .encodeB
  | .idRead _ => .encodeB
  | .angleOffsetAdjust _ _ => .encodeB
  | .angleOffsetWrite _ => .encodeB
  | .angleOffsetRead _ => .encodeB
  | .angleLimitWrite _ _ _ => .encodeB
  | .angleLimitRead _ => .encodeB
  | .vinLimitWrite _ _ _ => .encodeB
  | .vinLimitRead _ => .encodeB
  | .tempMaxLimitWrite _ _ => .encodeB
  | .tempMaxLimitRead _ => .encodeB
  | .tempRead _ => .encodeB
  | .vinRead _ => .encodeB
  | .posRead _ => .encodeB
  | .orMotorModeWrite _ _ _ _ _ => .encodeB
  | .orMotorModeRead _ => .encodeB
  | .loadOrUnloadWrite _ _ => .encodeB
  | .loadOrUnloadRead _ => .encodeB
  | .ledCtrlWrite _ _ => .encodeB
  | .ledCtrlRead _ => .encodeB
  | .ledErrorWrite _ _ => .encodeB
  | .ledErrorRead _ => .encodeB

/-- The codes an outcome can have: `TransportError` is the host's own, and every other code is reserved (R220). -/
def statusCodes : List Byte :=
  [0x00#8, 0x01#8, 0x03#8, 0x04#8, 0x05#8, 0x06#8, 0x07#8, 0x08#8, 0x09#8, 0x10#8]

/-- The configuration of a run keeps what the spec says of its parameters: the command bytes are distinct (R7), the
arctangent is one R188 describes, and the read timeout is positive (R6). -/
def paramsOk (p : Config.Params) : Bool := commandsOk p.commands && atanOk p.numeric.atan && decide (0 < p.readTimeout)

/-- Exactly the cells below `n` are written. -/
def cellsWrittenBelow {α : Type} (n : Nat) (m : Cells α) : Prop := ∀ a, (cellRead m a).isSome = true ↔ a < n

/-- The invariant of the states a run reaches. -/
structure Inv (s : State) : Prop where
  /-- The configuration is one R7 and R188 allow. -/
  params : paramsOk s.params = true
  /-- Every space is in canonical form. -/
  memory : memoryWf s = true
  /-- The response port is a copy of the registers (R25). -/
  response : s.response = ⟨s.status, s.info, s.result⟩
  /-- `STATUS` holds a code an outcome can have (R220). -/
  status : s.status ∈ statusCodes
  /-- `TXA` is unwritten or holds one whole frame (R29, R70). -/
  txa : s.txa = [] ∨ ∃ cmd p, p.length ≤ Config.payloadMaxA ∧ s.txa = cellsOf (frameA cmd p)
  /-- A valid `TXA` is written (R29). -/
  txaValid : s.txaValid = true → s.txa ≠ []
  /-- `RXA` holds what was received (R30). -/
  rxa : s.rxaCount.toNat ≤ Config.rxaMax ∧ cellsWrittenBelow s.rxaCount.toNat s.rxa
  /-- `TXB` is unwritten or holds one whole frame, and `TXB_LEN` is its length (R31, R73). -/
  txb : (s.txb = [] ∧ s.txbLen = 0#16) ∨
    ∃ cmd id p, p.length ≤ Config.payloadMaxB ∧ s.txb = cellsOf (frameB cmd id p) ∧ s.txbLen.toNat = p.length + 6
  /-- A valid `TXB` is written (R31). -/
  txbValid : s.txbValid = true → s.txb ≠ []
  /-- `RXB` holds what was received (R32). -/
  rxb : s.rxbCount.toNat ≤ Config.rxbMax ∧ cellsWrittenBelow s.rxbCount.toNat s.rxb
  /-- Before `M.LOADARM` the ArmModel and the table are unwritten (R41). -/
  unarmed : s.armValid = false →
    s.armL1 = none ∧ s.armL2 = none ∧ s.armL3 = none ∧ s.armL4 = none ∧ s.pz = []
  /-- After it, the table is the one R183 builds from valid lengths, and its entries are finite. -/
  armed : s.armValid = true → ∃ l1 l2 l3 l4,
    (lengthOk l1 && lengthOk l2 && lengthOk l3 && lengthOk l4) = true ∧
    s.armL1 = some l1 ∧ s.armL2 = some l2 ∧ s.armL3 = some l3 ∧ s.armL4 = some l4 ∧
    s.pz = cellsOf (heightTable s.params.numeric l1 l2 l3 l4) ∧
    (heightTable s.params.numeric l1 l2 l3 l4).all f64Finite = true
  /-- An outstanding unit A reply answers the frame in `TXA` (R37). -/
  pendingA : ∀ cmd, s.outstanding = some ⟨.a, cmd⟩ → s.txaValid = true ∧ cellRead s.txa 3 = some cmd
  /-- An outstanding unit B reply answers the frame in `TXB` (R37). -/
  pendingB : ∀ cmd, s.outstanding = some ⟨.b, cmd⟩ → s.txbValid = true ∧ cellRead s.txb 4 = some cmd

end Sys2Proof.Machine
end

