-- ==== Sys2Proof/Certificates/Slice0/Obligations.lean ====
section
/-! DEFINITION. The statements for the provers. -/

namespace Sys2Proof.Claims

open Sys2Proof Sys2Proof.Machine

/-! ### What an operation answers -/

/-- `RESULT` with every field unwritten (R28). -/
def noResult : Result := ⟨[], none, [], none, [], none, none, none, none⟩

/-- The operation ended with `code`, `info` and `r`, on the registers and on the response port (R25 to R28). -/
def Answers (code : Byte) (info : Info) (r : Result) (t : State) : Prop :=
  t.status = code ∧ t.info = info ∧ t.result = r ∧ t.response = ⟨code, info, r⟩

/-- The operation ended `OK` with `r`. -/
def AnswersOk (r : Result) (t : State) : Prop := Answers 0x00#8 ⟨0#8, 0#16, 0#16, 0#8⟩ r t

/-- The operation ended with an outcome that records nothing. -/
def AnswersPlain (code : Byte) (t : State) : Prop := Answers code ⟨0#8, 0#16, 0#16, 0#8⟩ noResult t

/-- The operation ended `BadRequest(reason)`. -/
def AnswersBadRequest (reason : Byte) (t : State) : Prop := Answers 0x10#8 ⟨0#8, 0#16, 0#16, reason⟩ noResult t

/-- The operation ended `ParameterOutOfRange(arg, lo, hi)`. -/
def AnswersOutOfRange (arg : Byte) (lo hi : Half) (t : State) : Prop := Answers 0x01#8 ⟨arg, lo, hi, 0#8⟩ noResult t

/-! ### What an operation leaves -/

/-- The configuration, the pending requests and the ghosts `FAULT` and `REFUSED` are as before. -/
def KeepsRun (s t : State) : Prop :=
  t.params = s.params ∧ t.requests = s.requests ∧ t.faults = s.faults ∧ t.refused = s.refused

/-- `TXA_VALID` and every cell of `TXA` are as before. -/
def KeepsTxa (s t : State) : Prop := t.txaValid = s.txaValid ∧ ∀ a, cellRead t.txa a = cellRead s.txa a

/-- `RXA_COUNT` and every cell of `RXA` are as before. -/
def KeepsRxa (s t : State) : Prop := t.rxaCount = s.rxaCount ∧ ∀ a, cellRead t.rxa a = cellRead s.rxa a

/-- `TXB_VALID`, `TXB_LEN` and every cell of `TXB` are as before. -/
def KeepsTxb (s t : State) : Prop :=
  t.txbValid = s.txbValid ∧ t.txbLen = s.txbLen ∧ ∀ a, cellRead t.txb a = cellRead s.txb a

/-- `RXB_COUNT` and every cell of `RXB` are as before. -/
def KeepsRxb (s t : State) : Prop := t.rxbCount = s.rxbCount ∧ ∀ a, cellRead t.rxb a = cellRead s.rxb a

/-- The ArmModel registers, `ARM_VALID` and every cell of `PZ` are as before. -/
def KeepsArm (s t : State) : Prop :=
  t.armL1 = s.armL1 ∧ t.armL2 = s.armL2 ∧ t.armL3 = s.armL3 ∧ t.armL4 = s.armL4 ∧ t.armValid = s.armValid ∧
    ∀ a, cellRead t.pz a = cellRead s.pz a

/-- Everything but unit A's transmit register, `OUTSTANDING` and the answer is as before. -/
def KeepsAllButTxa (s t : State) : Prop :=
  KeepsRun s t ∧ KeepsRxa s t ∧ KeepsTxb s t ∧ KeepsRxb s t ∧ KeepsArm s t

/-- Everything but unit B's transmit register, `OUTSTANDING` and the answer is as before. -/
def KeepsAllButTxb (s t : State) : Prop :=
  KeepsRun s t ∧ KeepsTxa s t ∧ KeepsRxa s t ∧ KeepsRxb s t ∧ KeepsArm s t

/-- Everything but `OUTSTANDING` and the answer is as before. -/
def KeepsAllSpaces (s t : State) : Prop :=
  KeepsRun s t ∧ KeepsTxa s t ∧ KeepsRxa s t ∧ KeepsTxb s t ∧ KeepsRxb s t ∧ KeepsArm s t

/-- Everything but the answer is as before. -/
def KeepsAll (s t : State) : Prop := KeepsAllSpaces s t ∧ t.outstanding = s.outstanding

/-! ### The frames, written from R70, R71 and R73 -/

/-- `v[7:0]` (R8). -/
def lo8 (v : Half) : Byte := v.extractLsb' 0 8

/-- `v[15:8]` (R8). -/
def hi8 (v : Half) : Byte := v.extractLsb' 8 8

/-- `b0 + 256*b1` (R8). -/
def leNat (b0 b1 : Byte) : Nat := b0.toNat + 256 * b1.toNat

/-- Byte `j` of the unit A frame of R70, for a payload of at most 60 bytes; there is none from offset 64 on. -/
def frameByteA (cmd : Byte) (p : List Byte) (j : Nat) : Option Byte :=
  if 64 ≤ j then none
  else if j = 0 ∨ j = 1 then some 0x55#8
  else if j = 2 then some (BitVec.ofNat 8 (p.length + 2))
  else if j = 3 then some cmd
  else if j < 4 + p.length then p[j - 4]?
  else some 0x00#8

/-- The exact sum of a byte sequence (R140). -/
def sumOf (bs : List Byte) : Nat := (bs.map BitVec.toNat).sum

/-- `255 - (sum mod 256)` (R140). -/
def checksumOf (bs : List Byte) : Byte := BitVec.ofNat 8 (255 - sumOf bs % 256)

/-- The unit B frame of R73, for a payload of at most 252 bytes. -/
def frameBytesB (cmd id : Byte) (p : List Byte) : List Byte :=
  [0x55#8, 0x55#8, id, BitVec.ofNat 8 (p.length + 3), cmd] ++ p ++
    [checksumOf ([id, BitVec.ofNat 8 (p.length + 3), cmd] ++ p)]

/-- A set-positions payload (R71). -/
def setposBytes (dur : Half) (pairs : List ServoPos) : List Byte :=
  [BitVec.ofNat 8 pairs.length, lo8 dur, hi8 dur] ++ pairs.flatMap fun q => [q.id, lo8 q.pos, hi8 q.pos]

/-- A get-positions request payload or a stop payload (R71). -/
def idsBytes (ids : List Byte) : List Byte := BitVec.ofNat 8 ids.length :: ids

/-- A get-positions reply payload (R71). -/
def replyBytes (pairs : List ServoPos) : List Byte :=
  BitVec.ofNat 8 pairs.length :: pairs.flatMap fun q => [q.id, lo8 q.pos, hi8 q.pos]

/-- The two `u16` fields of a four-byte payload, each low byte first (R52). -/
def twoHalves (v w : Half) : List Byte := [lo8 v, hi8 v, lo8 w, hi8 w]

/-- A successful unit A encode of `cmd` with payload `p` and `expects_response` `reply`: `BuildA`'s frame in `TXA`,
`TXA_VALID` set, `OUTSTANDING` as R37 says, everything else as before. -/
def FramesA (cmd : Byte) (p : List Byte) (reply : Bool) (s t : State) : Prop :=
  AnswersOk noResult t ∧ t.txaValid = true ∧ (∀ j, cellRead t.txa j = frameByteA cmd p j) ∧
    t.outstanding = (if reply then some ⟨.a, cmd⟩ else none) ∧ KeepsAllButTxa s t

/-- A successful unit B encode: `BuildB`'s frame in `TXB`, every cell after it unwritten, `TXB_LEN` its length,
`TXB_VALID` set, `OUTSTANDING` as R37 says, everything else as before. -/
def FramesB (cmd id : Byte) (p : List Byte) (reply : Bool) (s t : State) : Prop :=
  AnswersOk noResult t ∧ t.txbValid = true ∧ t.txbLen = BitVec.ofNat 16 (p.length + 6) ∧
    (∀ j, cellRead t.txb j = (frameBytesB cmd id p)[j]?) ∧
    t.outstanding = (if reply then some ⟨.b, cmd⟩ else none) ∧ KeepsAllButTxb s t

/-- A failed unit A encode leaves `TXA_VALID = 0` and everything but the answer otherwise as before (R29). -/
def DropsTxa (s t : State) : Prop :=
  t.txaValid = false ∧ (∀ a, cellRead t.txa a = cellRead s.txa a) ∧ t.outstanding = s.outstanding ∧ KeepsAllButTxa s t

/-- A failed unit B encode leaves `TXB_VALID = 0` and everything but the answer otherwise as before (R31). -/
def DropsTxb (s t : State) : Prop :=
  t.txbValid = false ∧ t.txbLen = s.txbLen ∧ (∀ a, cellRead t.txb a = cellRead s.txb a) ∧
    t.outstanding = s.outstanding ∧ KeepsAllButTxb s t

/-- The code a configuration gives a unit B command (R7, R79; log entry 15). -/
def code (s : State) (n : Config.CommandName) : Byte := codeOf s.params.commands n

/-- What `B.ENC` expects of a reply (R76): the `reply` column of a row of the table with the code `cmd`, or what `resp` says
where the table has no row of that code. -/
def ExpectsReply (c : Config.Commands) (cmd : Byte) (resp reply : Bool) : Prop :=
  (∀ r ∈ commandTable c, r.code = cmd → reply = r.reply) ∧ ((∀ r ∈ commandTable c, r.code ≠ cmd) → reply = resp)

/-- A payload begins with values within the bounds of R142. -/
def WithinBounds (b : Config.Bounds) (p : List Byte) : Prop :=
  match b with
  | .unbounded => True
  | .move => ∃ p0 p1 p2 p3 q, p = p0 :: p1 :: p2 :: p3 :: q ∧ leNat p0 p1 ≤ 1000 ∧ leNat p2 p3 ≤ 30000
  | .angleLimit => ∃ p0 p1 p2 p3 q, p = p0 :: p1 :: p2 :: p3 :: q ∧ leNat p0 p1 ≤ leNat p2 p3 ∧ leNat p2 p3 ≤ 1000
  | .vin => ∃ p0 p1 p2 p3 q, p = p0 :: p1 :: p2 :: p3 :: q ∧ 4500 ≤ leNat p0 p1 ∧ leNat p0 p1 ≤ 12000 ∧
      4500 ≤ leNat p2 p3 ∧ leNat p2 p3 ≤ 12000
  | .temp => ∃ p0 q, p = p0 :: q ∧ 50 ≤ p0.toNat ∧ p0.toNat ≤ 100

/-- The payload of command `cmd` is one `B.ENC` frames: where a row of the table gives the command bounds, it has the
length that row gives and values within those bounds. -/
def PayloadInBounds (c : Config.Commands) (cmd : Byte) (p : List Byte) : Prop :=
  ∀ r ∈ commandTable c, r.code = cmd → r.bounds ≠ .unbounded → p.length = r.preq ∧ WithinBounds r.bounds p

/-- Every unit B frame on offer carries a payload its command may carry. -/
def OffersInBounds (s : State) : Prop :=
  ∀ f, offeredB s = some f →
    ∃ cmd id p, f = frameBytesB cmd id p ∧ p.length ≤ 252 ∧ PayloadInBounds s.params.commands cmd p

/-- The unit B command frames that R143 emits, with their command and payload (R79). -/
def tableCommands (id p0 p1 p2 p3 : Byte) : List (Instr × Config.CommandName × List Byte) :=
  [ (.moveTimeRead id, .moveTimeRead, []), (.moveTimeWaitRead id, .moveTimeWaitRead, []), (.moveStart id, .moveStart, []),
    (.moveStop id, .moveStop, []), (.idWrite id p0, .idWrite, [p0]), (.idRead id, .idRead, []),
    (.angleOffsetAdjust id p0, .angleOffsetAdjust, [p0]), (.angleOffsetWrite id, .angleOffsetWrite, []),
    (.angleOffsetRead id, .angleOffsetRead, []), (.angleLimitRead id, .angleLimitRead, []),
    (.vinLimitRead id, .vinLimitRead, []), (.tempMaxLimitRead id, .tempMaxLimitRead, []) ] ++
  [ (.tempRead id, .tempRead, []), (.vinRead id, .vinRead, []), (.posRead id, .posRead, []),
    (.orMotorModeWrite id p0 p1 p2 p3, .orMotorModeWrite, [p0, p1, p2, p3]), (.orMotorModeRead id, .orMotorModeRead, []),
    (.loadOrUnloadWrite id p0, .loadOrUnloadWrite, [p0]), (.loadOrUnloadRead id, .loadOrUnloadRead, []),
    (.ledCtrlWrite id p0, .ledCtrlWrite, [p0]), (.ledCtrlRead id, .ledCtrlRead, []),
    (.ledErrorWrite id p0, .ledErrorWrite, [p0]), (.ledErrorRead id, .ledErrorRead, []) ]

/-- The unit B command table at reset, the rows of R79: name, code, `Preq`, `reply`, `Prep`, bounds. -/
def defaultTable : List Config.CommandRow :=
  [ ⟨some .moveTimeWrite, 1#8, 4, false, none, .move⟩, ⟨some .moveTimeRead, 2#8, 0, true, some 4, .unbounded⟩,
    ⟨some .moveTimeWaitWrite, 7#8, 4, false, none, .move⟩, ⟨some .moveTimeWaitRead, 8#8, 0, true, some 4, .unbounded⟩,
    ⟨some .moveStart, 11#8, 0, false, none, .unbounded⟩, ⟨some .moveStop, 12#8, 0, false, none, .unbounded⟩,
    ⟨some .idWrite, 13#8, 1, false, none, .unbounded⟩, ⟨some .idRead, 14#8, 0, true, some 1, .unbounded⟩,
    ⟨some .angleOffsetAdjust, 17#8, 1, false, none, .unbounded⟩,
    ⟨some .angleOffsetWrite, 18#8, 0, false, none, .unbounded⟩,
    ⟨some .angleOffsetRead, 19#8, 0, true, some 1, .unbounded⟩,
    ⟨some .angleLimitWrite, 20#8, 4, false, none, .angleLimit⟩,
    ⟨some .angleLimitRead, 21#8, 0, true, some 4, .unbounded⟩, ⟨some .vinLimitWrite, 22#8, 4, false, none, .vin⟩ ] ++
  [ ⟨some .vinLimitRead, 23#8, 0, true, some 4, .unbounded⟩, ⟨some .tempMaxLimitWrite, 24#8, 1, false, none, .temp⟩,
    ⟨some .tempMaxLimitRead, 25#8, 0, true, some 1, .unbounded⟩, ⟨some .tempRead, 26#8, 0, true, some 1, .unbounded⟩,
    ⟨some .vinRead, 27#8, 0, true, some 2, .unbounded⟩, ⟨some .posRead, 28#8, 0, true, some 2, .unbounded⟩,
    ⟨some .orMotorModeWrite, 29#8, 4, false, none, .unbounded⟩,
    ⟨some .orMotorModeRead, 30#8, 0, true, some 4, .unbounded⟩,
    ⟨some .loadOrUnloadWrite, 31#8, 1, false, none, .unbounded⟩,
    ⟨some .loadOrUnloadRead, 32#8, 0, true, some 1, .unbounded⟩, ⟨some .ledCtrlWrite, 33#8, 1, false, none, .unbounded⟩,
    ⟨some .ledCtrlRead, 34#8, 0, true, some 1, .unbounded⟩, ⟨some .ledErrorWrite, 35#8, 1, false, none, .unbounded⟩,
    ⟨some .ledErrorRead, 36#8, 0, true, some 1, .unbounded⟩ ]

/-- A unit A reply of at least `4 + elen` bytes with the right signature and command, its cells written (R108). -/
def ValidReplyA (cmd : Byte) (elen : Nat) (s : State) : Prop :=
  4 + elen ≤ s.rxaCount.toNat ∧ cellRead s.rxa 0 = some 0x55#8 ∧ cellRead s.rxa 1 = some 0x55#8 ∧
    cellRead s.rxa 3 = some cmd

/-- Every cell below the received count is written, as in every state a run reaches (R30). -/
def RxaWritten (s : State) : Prop := ∀ a, a < s.rxaCount.toNat → ∃ v, cellRead s.rxa a = some v

/-- Every cell below the received count is written, as in every state a run reaches (R32). -/
def RxbWritten (s : State) : Prop := ∀ a, a < s.rxbCount.toNat → ∃ v, cellRead s.rxb a = some v

/-- The received unit B bytes are exactly `f`. -/
def RxbHolds (f : List Byte) (s : State) : Prop :=
  s.rxbCount.toNat = f.length ∧ ∀ j, j < f.length → cellRead s.rxb j = f[j]?

/-- A valid ServoDefinition (R181, R182). -/
def ValidDefinition (mn mx : F64) : Prop :=
  f64Finite mn = true ∧ f64Finite mx = true ∧ f64Lt mn mx = true ∧ f64Finite (f64Sub mx mn) = true

/-- Link lengths the block accepts (R183). -/
def ValidLengths (l1 l2 l3 l4 : F64) : Prop := ∀ l ∈ [l1, l2, l3, l4], f64Finite l = true ∧ f64Le 0#64 l = true

/-- The height table of R183, entry `i` for every `i`, as R180 orders the formula. -/
def IsHeightTable (n : Config.Numeric) (l1 l2 l3 l4 : F64) (e : Nat → F64) : Prop :=
  ∀ i, e i =
    let a := f64Mul (f64Div (f64OfInt i) (f64OfInt 128)) (f64Div f64Pi (f64OfInt 2))
    f64Sub (f64Sub (f64Add l4 (f64Mul l3 (f64Sin n a))) (f64Mul l2 (f64Cos n (f64Mul (f64OfInt 2) a))))
      (f64Mul l1 (f64Sin n (f64Mul (f64OfInt 3) a)))

/-- The operation took `fault ReadUnwritten` in a decode: `OUTSTANDING` was cleared before it (R37, R225; log entry 8). -/
def DecodeReadsUnwritten (i : Instr) (s : State) : Prop :=
  exec i s = .next { s with outstanding := none, faults := [.readUnwritten] }

/-- The selectors of R75. -/
def selectors : List Nat :=
  [0x01, 0x02, 0x03, 0x04, 0x05, 0x06, 0x08, 0x09, 0x0A, 0x10, 0x11, 0x12, 0x13, 0x14, 0x15, 0x16, 0x18, 0x19,
   0x20, 0x21, 0x22, 0x23, 0x24, 0x25, 0x26]

end Sys2Proof.Claims

open Sys2Proof Sys2Proof.Machine Sys2Proof.Claims

/-! ### Requests and steps -/

/-- Decoding the encoding of a well-formed operation gives it back, with every operand at every value and for every
configuration whose command bytes are distinct (R7, R24, R70 to R75; the operand widths on the port are the model's, log
entry 1). -/
def Obligations.DecodeUndoesEncode : Prop :=
  ∀ (c : Config.Commands) (i : Instr), commandsOk c = true → i.wellFormed = true → decode c (encode c i) = .ok i

/-- The other direction, on the request port: what decodes was the encoding of a well-formed operation, followed only by
bytes the record does not use (log entry 1). -/
def Obligations.RequestPortDecodeIsExact : Prop :=
  ∀ (c : Config.Commands) (bs : List Byte) (i : Instr), decode c ⟨.request, bs⟩ = .ok i →
    i.wellFormed = true ∧ (encode c i).form = .request ∧ (encode c i).bytes <+: bs

/-- Words written out from R75, R70 and R73, with the default codes, decode to the operations they stand for. That a
command frame can be a request is log entry 2, and what of it is read log entry 3; the operand order on the port is log
entry 1. -/
def Obligations.SampleWordsDecode : Prop :=
  State.reset.params.commands = defaultCommands ∧
  decode defaultCommands ⟨.request, [0x02#8, 0xE8#8, 0x03#8, 0x01#8, 0x03#8, 0xF4#8, 0x01#8]⟩ =
    .ok (.aSetpos 1000#16 [⟨3#8, 500#16⟩]) ∧
  decode defaultCommands ⟨.request, [0x11#8, 0x01#8, 0xF4#8, 0x01#8, 0xE8#8, 0x03#8]⟩ =
    .ok (.bMove 1#8 500#16 1000#16) ∧
  decode defaultCommands ⟨.request, [0x25#8, 0x40#8]⟩ = .ok (.mI2r 64#8) ∧
  decode defaultCommands ⟨.wireA, [0x55#8, 0x55#8, 0x04#8, 0x15#8, 0x01#8, 0x03#8] ++ List.replicate 58 0x00#8⟩ =
    .ok (.cmdAGetpos [3#8]) ∧
  decode defaultCommands ⟨.wireB, [0x55#8, 0x55#8, 0x01#8, 0x03#8, 0x1C#8, 0xDF#8]⟩ = .ok (.posRead 1#8) ∧
  decode defaultCommands ⟨.request, [0x07#8]⟩ = .error .reservedSelector

/-- A step of a running block executes the operation its next request decodes to, on the state with that request taken
(R21, R58). -/
def Obligations.StepRunsTheDecodedRequest : Prop :=
  ∀ (s : State) (r : Request) (rs : List Request) (i : Instr), s.faults = [] → s.refused = false →
    s.requests = r :: rs → decode s.params.commands r = .ok i → step s = exec i { s with requests := rs }

/-- A request whose `OP` is none of the 25 values is refused: nothing is written but the ghost bit, and the run ends
(R223). -/
def Obligations.ReservedSelectorIsRefused : Prop :=
  ∀ (s : State) (op : Byte) (bs : List Byte) (rs : List Request), s.faults = [] → s.refused = false →
    s.requests = ⟨.request, op :: bs⟩ :: rs → op.toNat ∉ selectors →
    step s = .next { s with requests := rs, refused := true } ∧
    step { s with requests := rs, refused := true } = .refused .runEnded

/-- A run that has ended takes no further operation (R38), and a running block with no request is idle and keeps all its
state (R238). -/
def Obligations.EndedOrIdleBlockTakesNothing : Prop :=
  (∀ s : State, s.faults ≠ [] → step s = .fault .runEnded) ∧
  (∀ s : State, s.faults = [] → s.refused = true → step s = .refused .runEnded) ∧
  (∀ s : State, s.faults = [] → s.refused = false → s.requests = [] → step s = .next s)

/-- Every step takes at most the first pending request and leaves the others in their order (R58). -/
def Obligations.PendingRequestsKeepTheirOrder : Prop :=
  ∀ s t : State, step s = .next t → t.requests = s.requests.tail

/-! ### Reset and invariants -/

/-- Reset leaves every entry of the table of R41. -/
def Obligations.ResetLeavesTheTable : Prop :=
  State.reset.status = 0x00#8 ∧ State.reset.info = ⟨0#8, 0#16, 0#16, 0#8⟩ ∧ State.reset.result = noResult ∧
  (∀ a, cellRead State.reset.txa a = none) ∧ State.reset.txaValid = false ∧
  (∀ a, cellRead State.reset.rxa a = none) ∧ State.reset.rxaCount = 0#8 ∧
  (∀ a, cellRead State.reset.txb a = none) ∧ State.reset.txbLen = 0#16 ∧ State.reset.txbValid = false ∧
  (∀ a, cellRead State.reset.rxb a = none) ∧ State.reset.rxbCount = 0#16 ∧ Config.sig = 0x55#8 ∧
  State.reset.armL1 = none ∧ State.reset.armL2 = none ∧ State.reset.armL3 = none ∧ State.reset.armL4 = none ∧
  State.reset.armValid = false ∧ (∀ a, cellRead State.reset.pz a = none) ∧
  State.reset.outstanding = none ∧ State.reset.faults = [] ∧ State.reset.refused = false

/-- The invariant holds at reset. Its clauses on the registers follow from R41 and R260. Its clause on the configuration,
distinct command bytes, an arctangent with the laws of R188 and a positive read timeout, rests on the model's values at
reset: log entries 5, 6, 10, 12 and 15. -/
def Obligations.InvHoldsAtReset : Prop := Inv State.reset

/-- Every step keeps the canonical form of every addressed space (R50): from any state, reachable or not. -/
def Obligations.StepKeepsCanonicalMemory : Prop :=
  ∀ s t : State, memoryWf s = true → step s = .next t → memoryWf t = true

/-- Every step keeps the invariant: the response port copies the registers, each transmit register is unwritten or holds
one whole frame, each receive register holds what was received, the height table is the one R183 builds, and an
outstanding reply belongs to the frame on offer, and the configuration stays one R7 and R188 allow. -/
def Obligations.StepKeepsInv : Prop := ∀ s t : State, Inv s → step s = .next t → Inv t

/-- No operation reads an unwritten cell in a state that meets the invariant (R39). In a state that does not, the first
read of one, in the order of the operation's rule, is `fault ReadUnwritten`: it writes nothing, and a decode has cleared
`OUTSTANDING` before it (R37, R225; log entry 8). -/
def Obligations.NoRuleReadsUnwritten : Prop :=
  (∀ (i : Instr) (s t : State), Inv s → FaultName.readUnwritten ∉ s.faults → exec i s = .next t →
    FaultName.readUnwritten ∉ t.faults) ∧
  (∀ (i : Instr) (s : State) (cmd : Byte) (elen : Nat), s.faults = [] →
    (∃ e : Byte, i = .aDec cmd e ∧ e.toNat = elen ∧ elen ≤ 60) ∨
      (∃ ids, i = .aDecpos ids ∧ cmd = s.params.commands.getpos ∧ elen = 1 + 3 * ids.length ∧ 1 ≤ ids.length ∧
        ids.length ≤ 19) ∨
      (i = .aDecbatt ∧ cmd = s.params.commands.batt ∧ elen = 2) →
    (4 ≤ s.rxaCount.toNat →
      cellRead s.rxa 0 = none ∨ cellRead s.rxa 0 = some 0x55#8 ∧ cellRead s.rxa 1 = none ∨
        cellRead s.rxa 0 = some 0x55#8 ∧ cellRead s.rxa 1 = some 0x55#8 ∧ cellRead s.rxa 3 = none →
      DecodeReadsUnwritten i s) ∧
    (ValidReplyA cmd elen s → (∃ e, i = .aDec cmd e) ∨ i = .aDecbatt →
      (∃ j, j < elen ∧ cellRead s.rxa (4 + j) = none) → DecodeReadsUnwritten i s) ∧
    (∀ ids, ValidReplyA cmd elen s → i = .aDecpos ids →
      (∃ k, k < ids.length ∧ (∀ j, j < k → cellRead s.rxa (5 + 3 * j) = ids[j]?) ∧ cellRead s.rxa (5 + 3 * k) = none) ∨
        (∀ j, j < ids.length → cellRead s.rxa (5 + 3 * j) = ids[j]?) ∧
          (∃ k, k < ids.length ∧ (cellRead s.rxa (6 + 3 * k) = none ∨ cellRead s.rxa (7 + 3 * k) = none)) →
      DecodeReadsUnwritten i s)) ∧
  (∀ (ecmd eid : Byte) (s : State), s.faults = [] → 2 ≤ s.rxbCount.toNat →
    cellRead s.rxb 0 = none ∨ cellRead s.rxb 0 = some 0x55#8 ∧ cellRead s.rxb 1 = none ∨
      cellRead s.rxb 0 = some 0x55#8 ∧ cellRead s.rxb 1 = some 0x55#8 ∧ 6 ≤ s.rxbCount.toNat ∧
        (∃ j, 2 ≤ j ∧ j < s.rxbCount.toNat ∧ cellRead s.rxb j = none) →
    DecodeReadsUnwritten (.bDec ecmd eid) s) ∧
  (∀ (i : Byte) (s : State), s.faults = [] → i.toNat ≤ 127 → s.armValid = true → cellRead s.pz i.toNat = none →
    exec (.mPz i) s = .next { s with faults := [.readUnwritten] }) ∧
  (∀ (z : F64) (k : Nat) (h : Nat → F64) (s : State), s.faults = [] → f64IsNaN z = false → s.armValid = true → k < 128 →
    (∀ j, j < k → cellRead s.pz j = some (h j) ∧ f64Le z (h j) = false) → cellRead s.pz k = none →
    exec (.mZ2i z) s = .next { s with faults := [.readUnwritten] })

/-! ### Rules about every operation -/

/-- Every operation answers a next state; only a step takes requests or refuses one, and nothing writes the configuration
(R40). -/
def Obligations.EveryOperationAnswers : Prop :=
  ∀ (i : Instr) (s : State), ∃ t, exec i s = .next t ∧ t.requests = s.requests ∧ t.refused = s.refused ∧
    t.params = s.params

/-- An operation that latches no fault writes one outcome: the response port copies `STATUS`, `INFO` and `RESULT`; the
code is one an outcome can have; `INFO` is what R220 says of that code; and a failing operation leaves every `RESULT`
field unwritten (R25 to R28). -/
def Obligations.OutcomeWritesTheResponse : Prop :=
  ∀ (i : Instr) (s t : State), s.faults = [] → exec i s = .next t → t.faults = [] →
    t.response = ⟨t.status, t.info, t.result⟩ ∧ t.status ∈ statusCodes ∧
    (t.status ≠ 0x00#8 → t.result = noResult) ∧
    (t.status = 0x01#8 → t.info.reason = 0#8 ∧ 1 ≤ t.info.arg.toNat ∧ t.info.arg.toNat ≤ 7) ∧
    (t.status = 0x10#8 → t.info.arg = 0#8 ∧ t.info.lo = 0#16 ∧ t.info.hi = 0#16 ∧
      1 ≤ t.info.reason.toNat ∧ t.info.reason.toNat ≤ 12) ∧
    (t.status ≠ 0x01#8 → t.status ≠ 0x10#8 → t.info = ⟨0#8, 0#16, 0#16, 0#8⟩)

/-- An operation that takes a fault writes no register and no port: the ghost set gains one name and nothing else of the
state changes (R224), but for the ghost `OUTSTANDING`, which a decode has cleared before (R37, R225 "whatever follows"; log
entry 8). -/
def Obligations.FaultWritesNothingElse : Prop :=
  ∀ (i : Instr) (s t : State), s.faults = [] → exec i s = .next t → t.faults ≠ [] →
    ∃ n, t = { s with
      faults := [n]
      outstanding := if opKind i = .decodeA ∨ opKind i = .decodeB then none else s.outstanding }

/-- Every encode of either unit begins with the check of `OUTSTANDING`, before any other (R100). -/
def Obligations.EncodeWhileOutstandingTakesHazard : Prop :=
  ∀ (i : Instr) (s : State), opKind i = .encodeA ∨ opKind i = .encodeB → s.outstanding ≠ none → s.faults = [] →
    exec i s = .next { s with faults := [.hazardOutstanding] }

/-- `OUTSTANDING` (R37): a decode clears it whatever its outcome, a fault included (log entry 8); a load, a checksum or a
unit M operation leaves it; an encode that takes no fault leaves it `NONE`, or, only when it succeeds, sets it to its own
unit and the command it framed. -/
def Obligations.OutstandingFollowsTheOperations : Prop :=
  ∀ (i : Instr) (s t : State), exec i s = .next t →
    (opKind i = .decodeA ∨ opKind i = .decodeB → t.outstanding = none) ∧
    (opKind i = .loadA ∨ opKind i = .loadB ∨ opKind i = .checksum ∨ opKind i = .loadArm ∨ opKind i = .mapper →
      t.outstanding = s.outstanding) ∧
    (opKind i = .encodeA → t.faults = [] → t.outstanding = none ∨
      t.status = 0x00#8 ∧ ∃ cmd, t.outstanding = some ⟨.a, cmd⟩ ∧ cellRead t.txa 3 = some cmd) ∧
    (opKind i = .encodeB → t.faults = [] → t.outstanding = none ∨
      t.status = 0x00#8 ∧ ∃ cmd, t.outstanding = some ⟨.b, cmd⟩ ∧ cellRead t.txb 4 = some cmd)

/-- Each space is written only by the operations R51 names for it. -/
def Obligations.SpacesWrittenOnlyByTheirOperations : Prop :=
  ∀ (i : Instr) (s t : State), exec i s = .next t →
    (opKind i ≠ .encodeA → KeepsTxa s t) ∧ (opKind i ≠ .loadA → KeepsRxa s t) ∧
    (opKind i ≠ .encodeB → KeepsTxb s t) ∧ (opKind i ≠ .loadB → KeepsRxb s t) ∧
    (opKind i ≠ .loadArm → KeepsArm s t)

/-- Only `M.LOADARM` writes the ArmModel registers, and only while `ARM_VALID = 0`; once it is 1 they are read-only
(R34). -/
def Obligations.ArmModelReadOnlyOnceLoaded : Prop :=
  ∀ (i : Instr) (s t : State), exec i s = .next t → opKind i ≠ .loadArm ∨ s.armValid = true →
    t.armL1 = s.armL1 ∧ t.armL2 = s.armL2 ∧ t.armL3 = s.armL3 ∧ t.armL4 = s.armL4 ∧ t.armValid = s.armValid

/-- What an operation does depends only on its operands, the configuration and the space R51 lets it read (R55): two states
that agree on the configuration, on `OUTSTANDING`, on the received bytes and on the height table take the same fault or
get the same outcome and result, the same `OUTSTANDING`, and the same frame on offer. -/
def Obligations.OperationsArePure : Prop :=
  ∀ (i : Instr) (s s' t t' : State), s.faults = [] → s'.faults = [] → s.params = s'.params →
    s.outstanding = s'.outstanding →
    (opKind i = .decodeA → s.rxa = s'.rxa ∧ s.rxaCount = s'.rxaCount) →
    (opKind i = .decodeB → s.rxb = s'.rxb ∧ s.rxbCount = s'.rxbCount) →
    (opKind i = .mapper ∨ opKind i = .loadArm → s.pz = s'.pz ∧ s.armValid = s'.armValid) →
    exec i s = .next t → exec i s' = .next t' →
    t.faults = t'.faults ∧ t.outstanding = t'.outstanding ∧
    (t.faults = [] → t.response = t'.response ∧
      (opKind i = .encodeA → offeredA t = offeredA t') ∧ (opKind i = .encodeB → offeredB t = offeredB t'))

/-- A command frame, taken as a request, puts itself on offer: the block's encode emits exactly the frame, checksum
included, whenever the operation ends `OK` (R70, R73, R77, R79; log entry 2). -/
def Obligations.CommandFrameOffersItself : Prop :=
  (∀ (i : Instr) (s t : State), i.wellFormed = true → (encode s.params.commands i).form = .wireA → s.outstanding = none →
    exec i s = .next t → t.status = 0x00#8 → offeredA t = some (encode s.params.commands i).bytes) ∧
  (∀ (i : Instr) (s t : State), i.wellFormed = true → (encode s.params.commands i).form = .wireB → s.outstanding = none →
    exec i s = .next t → t.status = 0x00#8 → offeredB t = some (encode s.params.commands i).bytes)

/-! ### Unit A -/

/-- `A.ENC` with a payload of at most 60 bytes frames any command byte (R101, R102). -/
def Obligations.AEncFramesAnyCommand : Prop :=
  ∀ (cmd : Byte) (resp : Bool) (p : List Byte) (s : State), s.outstanding = none → p.length ≤ 60 →
    ∃ t, exec (.aEnc cmd resp p) s = .next t ∧ FramesA cmd p resp s t

/-- `A.SETPOS`, and the command frame it emits, with 1 to 19 servos: the triples in caller order, no value checked (R103,
R112). -/
def Obligations.SetPositionsFramesTriples : Prop :=
  ∀ (dur : Half) (pairs : List ServoPos) (s : State) (i : Instr), i = .aSetpos dur pairs ∨ i = .cmdASetpos dur pairs →
    s.outstanding = none → 1 ≤ pairs.length → pairs.length ≤ 19 →
    ∃ t, exec i s = .next t ∧ FramesA 0x03#8 (setposBytes dur pairs) false s t

/-- `A.GETPOS`, and the command frame it emits, with 1 to 19 servos: a reply is then outstanding (R104; the command byte
is the configuration's, R7). -/
def Obligations.GetPositionsFramesIds : Prop :=
  ∀ (ids : List Byte) (s : State) (i : Instr), i = .aGetpos ids ∨ i = .cmdAGetpos ids →
    s.outstanding = none → 1 ≤ ids.length → ids.length ≤ 19 →
    ∃ t, exec i s = .next t ∧ FramesA s.params.commands.getpos (idsBytes ids) true s t

/-- `A.STOP`, and the command frame it emits, with 1 to 59 servos (R105; the command byte is the configuration's,
R7). -/
def Obligations.StopFramesIds : Prop :=
  ∀ (ids : List Byte) (s : State) (i : Instr), i = .aStop ids ∨ i = .cmdAStop ids →
    s.outstanding = none → 1 ≤ ids.length → ids.length ≤ 59 →
    ∃ t, exec i s = .next t ∧ FramesA s.params.commands.stop (idsBytes ids) false s t

/-- `A.BATT`, and the command frame it emits (R106; the command byte is the configuration's, R7). -/
def Obligations.BatteryRequestFrame : Prop :=
  ∀ (s : State) (i : Instr), i = .aBatt ∨ i = .cmdABatt → s.outstanding = none →
    ∃ t, exec i s = .next t ∧ FramesA s.params.commands.batt [] true s t

/-- The operand checks of unit A (R102 to R105, R107, R109, R110, R222): a failed encode leaves `TXA_VALID = 0`, a failed
load leaves `RXA` as it was, a failed decode clears `OUTSTANDING`. -/
def Obligations.UnitABadRequests : Prop :=
  (∀ (cmd : Byte) (resp : Bool) (p : List Byte) (s : State), s.outstanding = none → 60 < p.length →
    ∃ t, exec (.aEnc cmd resp p) s = .next t ∧ AnswersBadRequest 1#8 t ∧ DropsTxa s t) ∧
  (∀ (dur : Half) (pairs : List ServoPos) (s : State) (i : Instr), i = .aSetpos dur pairs ∨ i = .cmdASetpos dur pairs →
    s.outstanding = none → pairs.length = 0 ∨ 19 < pairs.length →
    ∃ t, exec i s = .next t ∧ AnswersBadRequest 2#8 t ∧ DropsTxa s t) ∧
  (∀ (ids : List Byte) (s : State) (i : Instr), i = .aGetpos ids ∨ i = .cmdAGetpos ids →
    s.outstanding = none → ids.length = 0 ∨ 19 < ids.length →
    ∃ t, exec i s = .next t ∧ AnswersBadRequest 2#8 t ∧ DropsTxa s t) ∧
  (∀ (ids : List Byte) (s : State) (i : Instr), i = .aStop ids ∨ i = .cmdAStop ids →
    s.outstanding = none → ids.length = 0 ∨ 59 < ids.length →
    ∃ t, exec i s = .next t ∧ AnswersBadRequest 2#8 t ∧ DropsTxa s t) ∧
  (∀ (b : List Byte) (s : State), 64 < b.length →
    ∃ t, exec (.aRxload b) s = .next t ∧ AnswersBadRequest 11#8 t ∧ KeepsAll s t) ∧
  (∀ (cmd elen : Byte) (s : State), 60 < elen.toNat →
    ∃ t, exec (.aDec cmd elen) s = .next t ∧ AnswersBadRequest 12#8 t ∧ t.outstanding = none ∧ KeepsAllSpaces s t) ∧
  (∀ (ids : List Byte) (s : State), ids.length = 0 ∨ 19 < ids.length →
    ∃ t, exec (.aDecpos ids) s = .next t ∧ AnswersBadRequest 2#8 t ∧ t.outstanding = none ∧ KeepsAllSpaces s t)

/-- `A.RXLOAD` and `B.RXLOAD` of bytes that fit: cells `0` to `N-1` hold them, every later cell is unwritten, the count
is `N`, and `OUTSTANDING` is not touched (R107, R149); bytes that do not fit unit B's register change nothing. -/
def Obligations.ReceiveLoadsFill : Prop :=
  (∀ (b : List Byte) (s : State), b.length ≤ 64 →
    ∃ t, exec (.aRxload b) s = .next t ∧ AnswersOk noResult t ∧ t.rxaCount = BitVec.ofNat 8 b.length ∧
      (∀ a, cellRead t.rxa a = b[a]?) ∧ t.outstanding = s.outstanding ∧
      KeepsRun s t ∧ KeepsTxa s t ∧ KeepsTxb s t ∧ KeepsRxb s t ∧ KeepsArm s t) ∧
  (∀ (b : List Byte) (s : State), b.length ≤ 258 →
    ∃ t, exec (.bRxload b) s = .next t ∧ AnswersOk noResult t ∧ t.rxbCount = BitVec.ofNat 16 b.length ∧
      (∀ a, cellRead t.rxb a = b[a]?) ∧ t.outstanding = s.outstanding ∧
      KeepsRun s t ∧ KeepsTxa s t ∧ KeepsTxb s t ∧ KeepsRxa s t ∧ KeepsArm s t) ∧
  (∀ (b : List Byte) (s : State), 258 < b.length →
    ∃ t, exec (.bRxload b) s = .next t ∧ AnswersBadRequest 11#8 t ∧ KeepsAll s t)

/-- `A.DEC` on a valid reply of at least `elen` payload bytes returns those bytes and clears `OUTSTANDING` (R109). -/
def Obligations.ADecReturnsPayload : Prop :=
  ∀ (cmd elen : Byte) (s : State), elen.toNat ≤ 60 → ValidReplyA cmd elen.toNat s → RxaWritten s →
    ∃ t, exec (.aDec cmd elen) s = .next t ∧ t.outstanding = none ∧ KeepsAllSpaces s t ∧
      AnswersOk { noResult with plen := some elen, payload := t.result.payload } t ∧
      (∀ j, cellRead t.result.payload j = if j < elen.toNat then cellRead s.rxa (4 + j) else none)

/-- `A.DECPOS` on a valid reply that echoes the ids sent, in order, returns each position as the little-endian `u16` of
its triple (R110). -/
def Obligations.ADecposReturnsPositions : Prop :=
  ∀ (ids : List Byte) (s : State), 1 ≤ ids.length → ids.length ≤ 19 →
    ValidReplyA s.params.commands.getpos (1 + 3 * ids.length) s → RxaWritten s →
    (∀ k, k < ids.length → cellRead s.rxa (5 + 3 * k) = ids[k]?) →
    ∃ t, exec (.aDecpos ids) s = .next t ∧ t.outstanding = none ∧ KeepsAllSpaces s t ∧
      AnswersOk { noResult with n := some (BitVec.ofNat 8 ids.length), pos := t.result.pos, ids := t.result.ids } t ∧
      (∀ k, cellRead t.result.ids k = ids[k]?) ∧
      (∀ k b0 b1, k < ids.length → cellRead s.rxa (6 + 3 * k) = some b0 → cellRead s.rxa (7 + 3 * k) = some b1 →
        cellRead t.result.pos k = some (BitVec.ofNat 16 (leNat b0 b1))) ∧
      (∀ k, ids.length ≤ k → cellRead t.result.pos k = none)

/-- `A.DECBATT` on a valid reply returns the millivolts (R111). -/
def Obligations.ADecbattReturnsMillivolts : Prop :=
  ∀ (s : State) (b0 b1 : Byte), ValidReplyA s.params.commands.batt 2 s → cellRead s.rxa 4 = some b0 → cellRead s.rxa 5 = some b1 →
    ∃ t, exec .aDecbatt s = .next t ∧ t.outstanding = none ∧ KeepsAllSpaces s t ∧
      AnswersOk { noResult with val := some (BitVec.ofNat 16 (leNat b0 b1)) } t

/-- The failures of unit A decodes (R108, R110): a zero-byte read raises `NoResponse`; any other reply that is not valid,
or whose echoed ids differ, raises `ProtocolMismatch`; `OUTSTANDING` is cleared and no result is returned. -/
def Obligations.UnitADecodeFailures : Prop :=
  (∀ (i : Instr) (cmd : Byte) (elen : Nat) (s : State),
    (∃ e : Byte, i = .aDec cmd e ∧ e.toNat = elen ∧ elen ≤ 60) ∨
      (∃ ids, i = .aDecpos ids ∧ cmd = s.params.commands.getpos ∧ elen = 1 + 3 * ids.length ∧ 1 ≤ ids.length ∧
        ids.length ≤ 19) ∨
      (i = .aDecbatt ∧ cmd = s.params.commands.batt ∧ elen = 2) →
    RxaWritten s → ¬ ValidReplyA cmd elen s →
    ∃ t, exec i s = .next t ∧ t.outstanding = none ∧ KeepsAllSpaces s t ∧
      AnswersPlain (if s.rxaCount = 0#8 then 0x03#8 else 0x04#8) t) ∧
  (∀ (ids : List Byte) (s : State), 1 ≤ ids.length → ids.length ≤ 19 →
    ValidReplyA s.params.commands.getpos (1 + 3 * ids.length) s → RxaWritten s →
    (∃ k, k < ids.length ∧ cellRead s.rxa (5 + 3 * k) ≠ ids[k]?) →
    ∃ t, exec (.aDecpos ids) s = .next t ∧ t.outstanding = none ∧ KeepsAllSpaces s t ∧ AnswersPlain 0x04#8 t)

/-- Unit A round trips (R113): an encoded payload, loaded whole, decodes to itself; a reply built from ids and positions,
loaded whole, decodes to those positions. -/
def Obligations.UnitARoundTrip : Prop :=
  (∀ (cmd : Byte) (p : List Byte) (s : State), s.outstanding = none → p.length ≤ 60 →
    ∃ f t t' t'', exec (.aEnc cmd false p) s = .next t ∧ offeredA t = some f ∧ f.length = 64 ∧
      exec (.aRxload f) t = .next t' ∧ exec (.aDec cmd (BitVec.ofNat 8 p.length)) t' = .next t'' ∧
      t''.status = 0x00#8 ∧ t''.result.plen = some (BitVec.ofNat 8 p.length) ∧
      ∀ j, cellRead t''.result.payload j = p[j]?) ∧
  (∀ (pairs : List ServoPos) (s : State) (f : List Byte), 1 ≤ pairs.length → pairs.length ≤ 19 → f.length = 64 →
    (∀ j, f[j]? = frameByteA s.params.commands.getpos (replyBytes pairs) j) →
    ∃ t t', exec (.aRxload f) s = .next t ∧ exec (.aDecpos (pairs.map ServoPos.id)) t = .next t' ∧
      t'.status = 0x00#8 ∧ ∀ k, cellRead t'.result.pos k = (pairs[k]?).map ServoPos.pos)

/-! ### Unit B -/

/-- `B.ENC` with a payload of at most 252 bytes frames any command byte and any id; where the configuration's table gives a
command bounds, its payload must have the row's length and be in range; a reply is outstanding as the table says, or as
`resp` says for a command not in it (R76, R79, R141, R143). -/
def Obligations.BEncFramesAnyCommand : Prop :=
  ∀ (cmd id : Byte) (resp reply : Bool) (p : List Byte) (s : State), s.outstanding = none → p.length ≤ 252 →
    PayloadInBounds s.params.commands cmd p → ExpectsReply s.params.commands cmd resp reply →
    ∃ t, exec (.bEnc cmd id resp p) s = .next t ∧ FramesB cmd id p reply s t

/-- The operand checks of `B.ENC` (R143), for every usable table of the configuration: a payload over 252 bytes, then for a
command whose row has bounds a payload of another length than the row gives, then each bound of R142 in payload order with
the argument named (the rows at reset are log entry 6). -/
def Obligations.BEncRefusals : Prop :=
  (∀ (cmd id : Byte) (resp : Bool) (p : List Byte) (s : State), s.outstanding = none → 252 < p.length →
    ∃ t, exec (.bEnc cmd id resp p) s = .next t ∧ AnswersBadRequest 1#8 t ∧ DropsTxb s t) ∧
  (∀ (id : Byte) (resp : Bool) (p : List Byte) (r : Config.CommandRow) (s : State), s.outstanding = none →
    commandsOk s.params.commands = true → r ∈ commandTable s.params.commands → r.bounds ≠ .unbounded →
    p.length ≤ 252 → p.length ≠ r.preq →
    ∃ t, exec (.bEnc r.code id resp p) s = .next t ∧ AnswersBadRequest 3#8 t ∧ DropsTxb s t) ∧
  (∀ (id p0 p1 p2 p3 : Byte) (q : List Byte) (resp : Bool) (r : Config.CommandRow) (s : State), s.outstanding = none →
    commandsOk s.params.commands = true → r ∈ commandTable s.params.commands → q.length + 4 = r.preq → r.preq ≤ 252 →
    (r.bounds = .move →
      (1000 < leNat p0 p1 →
        ∃ t, exec (.bEnc r.code id resp (p0 :: p1 :: p2 :: p3 :: q)) s = .next t ∧
          AnswersOutOfRange 1#8 0#16 1000#16 t ∧ DropsTxb s t) ∧
      (leNat p0 p1 ≤ 1000 → 30000 < leNat p2 p3 →
        ∃ t, exec (.bEnc r.code id resp (p0 :: p1 :: p2 :: p3 :: q)) s = .next t ∧
          AnswersOutOfRange 2#8 0#16 30000#16 t ∧ DropsTxb s t)) ∧
    (r.bounds = .angleLimit →
      (1000 < leNat p0 p1 →
        ∃ t, exec (.bEnc r.code id resp (p0 :: p1 :: p2 :: p3 :: q)) s = .next t ∧
          AnswersOutOfRange 3#8 0#16 1000#16 t ∧ DropsTxb s t) ∧
      (leNat p0 p1 ≤ 1000 → 1000 < leNat p2 p3 →
        ∃ t, exec (.bEnc r.code id resp (p0 :: p1 :: p2 :: p3 :: q)) s = .next t ∧
          AnswersOutOfRange 4#8 0#16 1000#16 t ∧ DropsTxb s t) ∧
      (leNat p0 p1 ≤ 1000 → leNat p2 p3 < leNat p0 p1 →
        ∃ t, exec (.bEnc r.code id resp (p0 :: p1 :: p2 :: p3 :: q)) s = .next t ∧
          AnswersOutOfRange 3#8 0#16 (BitVec.ofNat 16 (leNat p2 p3)) t ∧ DropsTxb s t)) ∧
    (r.bounds = .vin →
      (leNat p0 p1 < 4500 ∨ 12000 < leNat p0 p1 →
        ∃ t, exec (.bEnc r.code id resp (p0 :: p1 :: p2 :: p3 :: q)) s = .next t ∧
          AnswersOutOfRange 5#8 4500#16 12000#16 t ∧ DropsTxb s t) ∧
      (4500 ≤ leNat p0 p1 → leNat p0 p1 ≤ 12000 → leNat p2 p3 < 4500 ∨ 12000 < leNat p2 p3 →
        ∃ t, exec (.bEnc r.code id resp (p0 :: p1 :: p2 :: p3 :: q)) s = .next t ∧
          AnswersOutOfRange 6#8 4500#16 12000#16 t ∧ DropsTxb s t))) ∧
  (∀ (id p0 : Byte) (q : List Byte) (resp : Bool) (r : Config.CommandRow) (s : State), s.outstanding = none →
    commandsOk s.params.commands = true → r ∈ commandTable s.params.commands → r.bounds = .temp →
    q.length + 1 = r.preq → r.preq ≤ 252 → p0.toNat < 50 ∨ 100 < p0.toNat →
    ∃ t, exec (.bEnc r.code id resp (p0 :: q)) s = .next t ∧ AnswersOutOfRange 7#8 50#16 100#16 t ∧ DropsTxb s t)

/-- `B.MOVE` and `B.MOVEW`, and the command frames they emit, with a position to 1000 and a time to 30000 (R144, R145; the
code of `MOVE_TIME_WRITE` is 1 in every configuration, R5). -/
def Obligations.MoveFrames : Prop :=
  ∀ (id : Byte) (pos time : Half) (s : State) (i : Instr) (cmd : Byte),
    (i = .bMove id pos time ∨ i = .moveTimeWrite id pos time) ∧ cmd = 1#8 ∨
      (i = .bMovew id pos time ∨ i = .moveTimeWaitWrite id pos time) ∧ cmd = code s .moveTimeWaitWrite →
    s.outstanding = none → pos.toNat ≤ 1000 → time.toNat ≤ 30000 →
    ∃ t, exec i s = .next t ∧ FramesB cmd id (twoHalves pos time) false s t

/-- `B.ANGLIM`, and the command frame it emits, with `min ≤ max ≤ 1000` (R146). -/
def Obligations.AngleLimitFrames : Prop :=
  ∀ (id : Byte) (mn mx : Half) (s : State) (i : Instr), i = .bAnglim id mn mx ∨ i = .angleLimitWrite id mn mx →
    s.outstanding = none → mn.toNat ≤ mx.toNat → mx.toNat ≤ 1000 →
    ∃ t, exec i s = .next t ∧ FramesB (code s .angleLimitWrite) id (twoHalves mn mx) false s t

/-- `B.VINLIM`, and the command frame it emits, with both limits in 4500 to 12000, in either order (R147, D18). -/
def Obligations.VinLimitFrames : Prop :=
  ∀ (id : Byte) (mn mx : Half) (s : State) (i : Instr), i = .bVinlim id mn mx ∨ i = .vinLimitWrite id mn mx →
    s.outstanding = none → 4500 ≤ mn.toNat → mn.toNat ≤ 12000 → 4500 ≤ mx.toNat → mx.toNat ≤ 12000 →
    ∃ t, exec i s = .next t ∧ FramesB (code s .vinLimitWrite) id (twoHalves mn mx) false s t

/-- `B.TEMPLIM`, and the command frame it emits, with 50 to 100 degrees; the payload is the one byte `t[7:0]`
(R148). -/
def Obligations.TempLimitFrames : Prop :=
  (∀ (id : Byte) (c : Half) (s : State), s.outstanding = none → 50 ≤ c.toNat → c.toNat ≤ 100 →
    ∃ t, exec (.bTemplim id c) s = .next t ∧ FramesB (code s .tempMaxLimitWrite) id [lo8 c] false s t) ∧
  (∀ (id p0 : Byte) (s : State), s.outstanding = none → 50 ≤ p0.toNat → p0.toNat ≤ 100 →
    ∃ t, exec (.tempMaxLimitWrite id p0) s = .next t ∧ FramesB (code s .tempMaxLimitWrite) id [p0] false s t)

/-- Bounded-parameter validation (R142, R221): the first argument out of range, in payload order, is named with the
violated bound; no frame is offered. -/
def Obligations.OutOfRangeParameterIsNamed : Prop :=
  (∀ (id : Byte) (pos time : Half) (s : State) (i : Instr),
    i = .bMove id pos time ∨ i = .bMovew id pos time ∨ i = .moveTimeWrite id pos time ∨
      i = .moveTimeWaitWrite id pos time → s.outstanding = none →
    (1000 < pos.toNat → ∃ t, exec i s = .next t ∧ AnswersOutOfRange 1#8 0#16 1000#16 t ∧ DropsTxb s t) ∧
    (pos.toNat ≤ 1000 → 30000 < time.toNat →
      ∃ t, exec i s = .next t ∧ AnswersOutOfRange 2#8 0#16 30000#16 t ∧ DropsTxb s t)) ∧
  (∀ (id : Byte) (mn mx : Half) (s : State) (i : Instr), i = .bAnglim id mn mx ∨ i = .angleLimitWrite id mn mx →
    s.outstanding = none →
    (1000 < mn.toNat → ∃ t, exec i s = .next t ∧ AnswersOutOfRange 3#8 0#16 1000#16 t ∧ DropsTxb s t) ∧
    (mn.toNat ≤ 1000 → 1000 < mx.toNat →
      ∃ t, exec i s = .next t ∧ AnswersOutOfRange 4#8 0#16 1000#16 t ∧ DropsTxb s t) ∧
    (mn.toNat ≤ 1000 → mx.toNat < mn.toNat →
      ∃ t, exec i s = .next t ∧ AnswersOutOfRange 3#8 0#16 mx t ∧ DropsTxb s t)) ∧
  (∀ (id : Byte) (mn mx : Half) (s : State) (i : Instr), i = .bVinlim id mn mx ∨ i = .vinLimitWrite id mn mx →
    s.outstanding = none →
    (mn.toNat < 4500 ∨ 12000 < mn.toNat →
      ∃ t, exec i s = .next t ∧ AnswersOutOfRange 5#8 4500#16 12000#16 t ∧ DropsTxb s t) ∧
    (4500 ≤ mn.toNat → mn.toNat ≤ 12000 → mx.toNat < 4500 ∨ 12000 < mx.toNat →
      ∃ t, exec i s = .next t ∧ AnswersOutOfRange 6#8 4500#16 12000#16 t ∧ DropsTxb s t)) ∧
  (∀ (id : Byte) (c : Half) (s : State), s.outstanding = none → c.toNat < 50 ∨ 100 < c.toNat →
    ∃ t, exec (.bTemplim id c) s = .next t ∧ AnswersOutOfRange 7#8 50#16 100#16 t ∧ DropsTxb s t) ∧
  (∀ (id p0 : Byte) (s : State), s.outstanding = none → p0.toNat < 50 ∨ 100 < p0.toNat →
    ∃ t, exec (.tempMaxLimitWrite id p0) s = .next t ∧ AnswersOutOfRange 7#8 50#16 100#16 t ∧ DropsTxb s t)

/-- No value that `ParameterOutOfRange` refuses is ever offered to the host (R155): if every unit B frame on offer carries
a payload its command may carry, the same holds after a step, for every usable table that gives the command of each typed
encode the length and bounds of R79, as the one at reset does (log entries 6 and 15); and a unit B encode that fails leaves
no frame on offer. -/
def Obligations.NoOutOfRangeValueIsOffered : Prop :=
  (∀ s t : State, commandsOk s.params.commands = true → typedRowsOk s.params.commands = true → OffersInBounds s →
    step s = .next t → OffersInBounds t) ∧
  (∀ (i : Instr) (s t : State), opKind i = .encodeB → s.outstanding = none → exec i s = .next t → t.status ≠ 0x00#8 →
    offeredB t = none)

/-- Every other command frame of unit B does what `B.ENC` of its command and payload does (R143); where the configuration's
table takes the payload, it frames the command for its servo, with the `reply` column of that table (R79). A name's code is
that of its row, and the table at reset is R79's (log entries 2, 6 and 15). -/
def Obligations.TableCommandFrames : Prop :=
  (∀ (id p0 p1 p2 p3 : Byte) (s : State), ∀ k ∈ tableCommands id p0 p1 p2 p3,
    exec k.1 s = exec (.bEnc (code s k.2.1) id false k.2.2) s ∧
    (∀ reply : Bool, s.outstanding = none → PayloadInBounds s.params.commands (code s k.2.1) k.2.2 →
      ExpectsReply s.params.commands (code s k.2.1) false reply →
      ∃ t, exec k.1 s = .next t ∧ FramesB (code s k.2.1) id k.2.2 reply s t)) ∧
  (∀ (s : State) (r : Config.CommandRow) (n : Config.CommandName), r ∈ commandTable s.params.commands →
    r.name = some n → (∀ r' ∈ commandTable s.params.commands, r'.name = some n → r' = r) → code s n = r.code) ∧
  commandTable State.reset.params.commands = defaultTable

/-- `B.DEC` on exactly one whole frame of the expected command returns the payload and the responding servo's id, from
the expected servo or, for the read-ID command, from any (R150, R151). -/
def Obligations.BDecReturnsPayload : Prop :=
  ∀ (cmd id eid : Byte) (p : List Byte) (s : State), p.length ≤ 252 → RxbHolds (frameBytesB cmd id p) s →
    id = eid ∨ cmd = code s .idRead →
    ∃ t, exec (.bDec cmd eid) s = .next t ∧ t.outstanding = none ∧ KeepsAllSpaces s t ∧
      AnswersOk { noResult with
        plen := some (BitVec.ofNat 8 p.length), payload := t.result.payload, byte := some id } t ∧
      (∀ j, cellRead t.result.payload j = p[j]?)

/-- The failures of `B.DEC` (R150), in the order of the checks: exactly one outcome is raised. -/
def Obligations.BDecFailureOrder : Prop :=
  ∀ (ecmd eid : Byte) (f : List Byte) (s : State), RxbHolds f s →
    (∀ code : Byte,
      code = 0x03#8 ∧ f.length = 0 ∨
      code = 0x05#8 ∧ f.length = 1 ∨
      code = 0x05#8 ∧ 2 ≤ f.length ∧ f.take 2 ≠ [0x55#8, 0x55#8] ∨
      code = 0x07#8 ∧ 2 ≤ f.length ∧ f.length < 6 ∧ f.take 2 = [0x55#8, 0x55#8] ∨
      code = 0x09#8 ∧ 6 ≤ f.length ∧ f.take 2 = [0x55#8, 0x55#8] ∧
        f.getLast? ≠ some (checksumOf (f.drop 2).dropLast) ∨
      (6 ≤ f.length ∧ f.take 2 = [0x55#8, 0x55#8] ∧ f.getLast? = some (checksumOf (f.drop 2).dropLast) ∧
        (code = 0x06#8 ∧ ecmd ≠ Claims.code s .idRead ∧ f[2]? ≠ some eid ∨
        (ecmd = Claims.code s .idRead ∨ f[2]? = some eid) ∧
          (code = 0x07#8 ∧ (f[3]?).map (fun b => b.toNat + 3) ≠ some f.length ∨
          code = 0x08#8 ∧ (f[3]?).map (fun b => b.toNat + 3) = some f.length ∧ f[4]? ≠ some ecmd))) →
      ∃ t, exec (.bDec ecmd eid) s = .next t ∧ t.outstanding = none ∧ KeepsAllSpaces s t ∧ AnswersPlain code t)

/-- `B.CHK` returns `255 - (sum mod 256)` and touches nothing else (R140, R152). -/
def Obligations.ChecksumOperation : Prop :=
  ∀ (b : List Byte) (s : State),
    ∃ t, exec (.bChk b) s = .next t ∧ AnswersOk { noResult with byte := some (checksumOf b) } t ∧ KeepsAll s t

/-- The checksum laws (R153): every frame a unit B encode offers ends in the checksum of its offsets 2 to `L-2`; and a
frame with one byte from offset 2 on replaced by another value fails `B.DEC` with `ChecksumMismatch`, whatever is
expected. -/
def Obligations.MutatedFrameFailsChecksum : Prop :=
  (∀ (i : Instr) (s t : State) (f : List Byte), opKind i = .encodeB → s.outstanding = none → exec i s = .next t →
    offeredB t = some f → f.getLast? = some (checksumOf (f.drop 2).dropLast)) ∧
  (∀ (cmd id ecmd eid b : Byte) (p : List Byte) (j : Nat) (s : State), p.length ≤ 252 → 2 ≤ j → j < p.length + 6 →
    (frameBytesB cmd id p)[j]? ≠ some b →
    ∃ t t', exec (.bRxload ((frameBytesB cmd id p).set j b)) s = .next t ∧ exec (.bDec ecmd eid) t = .next t' ∧
      AnswersPlain 0x09#8 t')

/-- Unit B round trip (R154): what `B.ENC` frames, loaded whole, decodes to the payload sent and the id. -/
def Obligations.UnitBRoundTrip : Prop :=
  ∀ (cmd id : Byte) (p : List Byte) (s : State), s.outstanding = none → p.length ≤ 252 →
    PayloadInBounds s.params.commands cmd p →
    ∃ f t t' t'', exec (.bEnc cmd id false p) s = .next t ∧ offeredB t = some f ∧
      exec (.bRxload f) t = .next t' ∧ exec (.bDec cmd id) t' = .next t'' ∧
      t''.status = 0x00#8 ∧ t''.result.byte = some id ∧ t''.result.plen = some (BitVec.ofNat 8 p.length) ∧
      ∀ j, cellRead t''.result.payload j = p[j]?

/-! ### Unit M -/

/-- `M.A2R` for a valid ServoDefinition and an angle that is not a NaN, where `v` is finite, returns `round(v)` of the
formula evaluated as R180 orders it (R181). -/
def Obligations.A2rRoundsTheQuotient : Prop :=
  ∀ (angle mn mx v : F64) (s : State), ValidDefinition mn mx → f64IsNaN angle = false →
    v = f64Div (f64Mul (f64OfInt 1000)
      (f64Sub (if f64Lt angle mn then mn else if f64Lt mx angle then mx else angle) mn)) (f64Sub mx mn) →
    f64Finite v = true →
    ∃ t, exec (.mA2r angle mn mx) s = .next t ∧ KeepsAll s t ∧
      AnswersOk { noResult with int := some (BitVec.ofInt 32 (f64Round s.params.numeric.midpoint v)) } t

/-- `M.A2R` for every valid ServoDefinition (R181, R190): the result is 0 to 1000, 0 for an angle at or below `min` and
1000 for one at or above `max`, infinities included. Where the formula overflows binary64 below `max` the value is the
model's free one, within the laws of R190 (log entry 11). -/
def Obligations.A2rStaysInRange : Prop :=
  ∀ (angle mn mx : F64) (s : State), ValidDefinition mn mx → f64IsNaN angle = false →
    ∃ t r, exec (.mA2r angle mn mx) s = .next t ∧ t.status = 0x00#8 ∧ t.result.int = some r ∧ r.toNat ≤ 1000 ∧
      (f64Le angle mn = true → r = 0#32) ∧ (f64Le mx angle = true → r = 1000#32)

/-- `M.A2R` is non-decreasing in the angle, for every valid ServoDefinition (R190). Where the formula overflows binary64
the value is the model's free one, which keeps this law (log entry 11). -/
def Obligations.A2rIsMonotonic : Prop :=
  ∀ (a a' mn mx : F64) (s t t' : State) (r r' : Word), ValidDefinition mn mx → f64Le a a' = true →
    exec (.mA2r a mn mx) s = .next t → exec (.mA2r a' mn mx) s = .next t' →
    t.result.int = some r → t'.result.int = some r' → r.toNat ≤ r'.toNat

/-- `M.R2A` for a valid ServoDefinition returns the formula of R182, with the raw value clamped as an integer. -/
def Obligations.R2aFollowsTheFormula : Prop :=
  ∀ (raw : Word) (mn mx : F64) (rc : Int) (s : State), ValidDefinition mn mx → rc = max 0 (min 1000 raw.toInt) →
    ∃ t, exec (.mR2a raw mn mx) s = .next t ∧ KeepsAll s t ∧
      AnswersOk { noResult with
        f64 := some (f64Add (f64Mul (f64Div (f64OfInt rc) (f64OfInt 1000)) (f64Sub mx mn)) mn) } t

/-- `M.LOADARM` of finite lengths that are not below zero, before any other, with every entry finite: the lengths and
all 128 entries are written in the step that sets `ARM_VALID`, each entry the formula of R183 as R180 orders it, with the
configuration's sine and cosine. -/
def Obligations.LoadarmBuildsTheTable : Prop :=
  ∀ (l1 l2 l3 l4 : F64) (e : Nat → F64) (s : State), ValidLengths l1 l2 l3 l4 → s.armValid = false →
    IsHeightTable s.params.numeric l1 l2 l3 l4 e → (∀ i, i < 128 → f64Finite (e i) = true) →
    ∃ t, exec (.mLoadarm l1 l2 l3 l4) s = .next t ∧ AnswersOk noResult t ∧
      t.armL1 = some l1 ∧ t.armL2 = some l2 ∧ t.armL3 = some l3 ∧ t.armL4 = some l4 ∧ t.armValid = true ∧
      (∀ i, cellRead t.pz i = if i < 128 then some (e i) else none) ∧ t.outstanding = s.outstanding ∧
      KeepsRun s t ∧ KeepsTxa s t ∧ KeepsRxa s t ∧ KeepsTxb s t ∧ KeepsRxb s t

/-- The refusals of unit M (R181 to R188, R222, R225), each with everything but the answer as before. -/
def Obligations.MapperRefusals : Prop :=
  (∀ (angle mn mx : F64) (s : State), ¬ ValidDefinition mn mx →
    ∃ t, exec (.mA2r angle mn mx) s = .next t ∧ AnswersBadRequest 4#8 t ∧ KeepsAll s t) ∧
  (∀ (angle mn mx : F64) (s : State), ValidDefinition mn mx → f64IsNaN angle = true →
    ∃ t, exec (.mA2r angle mn mx) s = .next t ∧ AnswersBadRequest 5#8 t ∧ KeepsAll s t) ∧
  (∀ (raw : Word) (mn mx : F64) (s : State), ¬ ValidDefinition mn mx →
    ∃ t, exec (.mR2a raw mn mx) s = .next t ∧ AnswersBadRequest 4#8 t ∧ KeepsAll s t) ∧
  (∀ (l1 l2 l3 l4 : F64) (s : State), ¬ ValidLengths l1 l2 l3 l4 →
    ∃ t, exec (.mLoadarm l1 l2 l3 l4) s = .next t ∧ AnswersBadRequest 6#8 t ∧ KeepsAll s t) ∧
  (∀ (l1 l2 l3 l4 : F64) (s : State), ValidLengths l1 l2 l3 l4 → s.armValid = true →
    ∃ t, exec (.mLoadarm l1 l2 l3 l4) s = .next t ∧ AnswersBadRequest 7#8 t ∧ KeepsAll s t) ∧
  (∀ (l1 l2 l3 l4 : F64) (e : Nat → F64) (i : Nat) (s : State), ValidLengths l1 l2 l3 l4 → s.armValid = false →
    IsHeightTable s.params.numeric l1 l2 l3 l4 e → i < 128 → f64Finite (e i) = false →
    ∃ t, exec (.mLoadarm l1 l2 l3 l4) s = .next t ∧ AnswersBadRequest 6#8 t ∧ KeepsAll s t) ∧
  (∀ (i : Byte) (s : State), 127 < i.toNat →
    ∃ t, exec (.mPz i) s = .next t ∧ AnswersBadRequest 9#8 t ∧ KeepsAll s t) ∧
  (∀ (i : Byte) (s : State), i.toNat ≤ 127 → s.armValid = false →
    ∃ t, exec (.mPz i) s = .next t ∧ AnswersBadRequest 8#8 t ∧ KeepsAll s t) ∧
  (∀ (z : F64) (s : State), f64IsNaN z = true →
    ∃ t, exec (.mZ2i z) s = .next t ∧ AnswersBadRequest 5#8 t ∧ KeepsAll s t) ∧
  (∀ (z : F64) (s : State), f64IsNaN z = false → s.armValid = false →
    ∃ t, exec (.mZ2i z) s = .next t ∧ AnswersBadRequest 8#8 t ∧ KeepsAll s t) ∧
  (∀ (i : Byte) (s : State), 127 < i.toNat →
    ∃ t, exec (.mI2r i) s = .next t ∧ AnswersBadRequest 9#8 t ∧ KeepsAll s t) ∧
  (∀ (x y : F64) (s : State), f64Finite x = false ∨ f64Finite y = false →
    ∃ t, exec (.mTeta x y) s = .next t ∧ AnswersBadRequest 5#8 t ∧ KeepsAll s t) ∧
  (∀ (x y : F64) (s : State), f64IsZero x = true → f64IsZero y = true →
    ∃ t, exec (.mTeta x y) s = .next t ∧ AnswersBadRequest 10#8 t ∧ KeepsAll s t)

/-- `M.PZ` returns the table entry (R184). -/
def Obligations.PzReadsTheEntry : Prop :=
  ∀ (i : Byte) (h : F64) (s : State), i.toNat ≤ 127 → s.armValid = true → cellRead s.pz i.toNat = some h →
    ∃ t, exec (.mPz i) s = .next t ∧ AnswersOk { noResult with f64 := some h } t ∧ KeepsAll s t

/-- `M.Z2I` returns the first index whose entry is at least `z`, and 127 if there is none (R185). -/
def Obligations.Z2iReturnsTheFirstIndex : Prop :=
  ∀ (z : F64) (h : Nat → F64) (s : State), f64IsNaN z = false → s.armValid = true →
    (∀ i, i < 128 → cellRead s.pz i = some (h i)) →
    ∃ t k, exec (.mZ2i z) s = .next t ∧ KeepsAll s t ∧
      AnswersOk { noResult with int := some (BitVec.ofNat 32 k) } t ∧ k ≤ 127 ∧
      (∀ j, j < k → f64Le z (h j) = false) ∧ (f64Le z (h k) = true ∨ k = 127)

/-- The inversion laws (R191), for every height table a run can hold: a `z` equal to entry `k` gives an index at most
`k`; a `z` above every entry gives 127; a `z` at most entry 0 gives 0; and where the table is non-decreasing the index is
non-decreasing in `z`. -/
def Obligations.Z2iInversionLaws : Prop :=
  ∀ (h : Nat → F64) (s : State), Inv s → s.armValid = true → (∀ i, i < 128 → cellRead s.pz i = some (h i)) →
    ∃ idx : F64 → Nat,
      (∀ z, f64IsNaN z = false → ∃ t, exec (.mZ2i z) s = .next t ∧ t.status = 0x00#8 ∧
        t.result.int = some (BitVec.ofNat 32 (idx z)) ∧ idx z ≤ 127) ∧
      (∀ k, k < 128 → idx (h k) ≤ k) ∧
      (∀ z, f64IsNaN z = false → (∀ i, i < 128 → f64Lt (h i) z = true) → idx z = 127) ∧
      (∀ z, f64Le z (h 0) = true → idx z = 0) ∧
      ((∀ i j, i ≤ j → j < 128 → f64Le (h i) (h j) = true) → ∀ z z', f64Le z z' = true → idx z ≤ idx z')

/-- `M.I2R` of an index to 127 (R186): the nearest integer to `900 - 3.125 * i`, an exact half (`i` = 4 mod 8) taken as
`ROUND_MIDPOINT` says, so 503 to 900; it needs no ArmModel. -/
def Obligations.I2rMapsTheIndex : Prop :=
  ∀ (i : Byte) (s : State), i.toNat ≤ 127 →
    ∃ t r, exec (.mI2r i) s = .next t ∧ KeepsAll s t ∧
      AnswersOk { noResult with int := some (BitVec.ofNat 32 r) } t ∧ 503 ≤ r ∧ r ≤ 900 ∧
      (i.toNat % 8 ≠ 4 → r = (7200 - 25 * i.toNat + 4) / 8) ∧
      (i.toNat % 8 = 4 → s.params.numeric.midpoint = .awayFromZero → r = (7200 - 25 * i.toNat + 4) / 8) ∧
      (i.toNat % 8 = 4 → s.params.numeric.midpoint = .toEven → 2 ∣ r ∧ (8 * r = 7200 - 25 * i.toNat + 4 ∨
        8 * r + 4 = 7200 - 25 * i.toNat))

/-- `M.Z2R`, the height-to-actuator chain, never fails once the index is found: its `M.I2R` ends `OK` (R187). -/
def Obligations.HeightToActuatorChainSucceeds : Prop :=
  ∀ (z : F64) (s : State), Inv s → s.armValid = true → f64IsNaN z = false →
    ∃ t, runZ2r z s = .next t ∧ t.status = 0x00#8 ∧
      ∃ r : Word, t.result.int = some r ∧ 503 ≤ r.toNat ∧ r.toNat ≤ 900

/-- `M.TETA` divides by the operand of larger magnitude, a tie taking the first branch (R188, D29). With an arctangent that
takes `[-1, 1]` into `[-π/4, π/4]` and a zero to the zero of its sign, as R188 says of it, the first branch answers within
`[-π/4, π/4]` and the second within `[π/4, 3π/4]`; `(-1, 0)` gives `-0.0` and `(0, -1)` gives `π/2` (log entry 10). -/
def Obligations.TetaChoosesTheLargerDivisor : Prop :=
  (∀ (x y : F64) (s : State), f64Finite x = true → f64Finite y = true → ¬ (f64IsZero x = true ∧ f64IsZero y = true) →
    (f64Le (f64Abs y) (f64Abs x) = true →
      ∃ t v, exec (.mTeta x y) s = .next t ∧ KeepsAll s t ∧ AnswersOk { noResult with f64 := some v } t ∧
        v = f64Atan s.params.numeric (f64Div y x) ∧
        (atanOk s.params.numeric.atan = true →
          f64Le 0xBFE921FB54442D18#64 v = true ∧ f64Le v 0x3FE921FB54442D18#64 = true)) ∧
    (f64Le (f64Abs y) (f64Abs x) = false →
      ∃ t v, exec (.mTeta x y) s = .next t ∧ KeepsAll s t ∧ AnswersOk { noResult with f64 := some v } t ∧
        v = f64Sub (f64Div f64Pi (f64OfInt 2)) (f64Atan s.params.numeric (f64Div x y)) ∧
        (atanOk s.params.numeric.atan = true →
          f64Le 0x3FE921FB54442D18#64 v = true ∧ f64Le v 0x4002D97C7F3321D2#64 = true))) ∧
  (∀ s : State, atanOk s.params.numeric.atan = true →
    (∃ t, exec (.mTeta 0xBFF0000000000000#64 0x0000000000000000#64) s = .next t ∧
      t.result.f64 = some 0x8000000000000000#64) ∧
    (∃ t, exec (.mTeta 0x0000000000000000#64 0xBFF0000000000000#64) s = .next t ∧
      t.result.f64 = some 0x3FF921FB54442D18#64))

/-- The rounding behind `+ - * /` (R11, R180) is to nearest with ties to even: no finite binary64 magnitude is nearer to
`num / den` units than the answer, and where another is as near the answer's last bit is 0; and the answer is an infinity
exactly from half a spacing above the largest finite magnitude on. -/
def Obligations.RoundingIsNearestEven : Prop :=
  (∀ num den m : Nat, 0 < den → roundUnits num den < infMag → m < infMag →
    ((magUnits (roundUnits num den) : Int) * den - num).natAbs ≤ ((magUnits m : Int) * den - num).natAbs ∧
    (((magUnits (roundUnits num den) : Int) * den - num).natAbs = ((magUnits m : Int) * den - num).natAbs →
      m ≠ roundUnits num den → roundUnits num den % 2 = 0)) ∧
  (∀ num den : Nat, 0 < den → roundUnits num den ≤ infMag ∧
    (roundUnits num den = infMag ↔ (2 ^ 54 - 1) * 2 ^ 2044 * den ≤ num))
end

