-- ==== Sys2Proof/Laws/Binary64.lean ====
section
/-! SUPPORT. What `roundUnits` answers, said once: it is monotonic, it never passes a finite magnitude, and it is exact on
one; and the fields of packed values, sums, products and quotients. -/

namespace Sys2Proof.Machine

/-- The units of a magnitude written as a spacing and a significand of at most `2^53`. -/
theorem magUnits_scaled {s d : Nat} (hd : d ≤ 2 ^ 53) (h : s = 0 ∨ 2 ^ 52 ≤ d) :
    magUnits (s * 2 ^ 52 + d) = d * 2 ^ s := by
  unfold magUnits
  rcases Nat.lt_or_ge d (2 ^ 52) with h1 | h1
  · have hs : s = 0 := by omega
    subst hs
    rw [if_pos (by omega)]; omega
  · rcases Nat.lt_or_ge d (2 ^ 53) with h2 | h2
    · have e1 : (s * 2 ^ 52 + d) / 2 ^ 52 = s + 1 := by omega
      have e2 : (s * 2 ^ 52 + d) % 2 ^ 52 = d - 2 ^ 52 := by omega
      rw [e1, e2, if_neg (by omega), show 2 ^ 52 + (d - 2 ^ 52) = d by omega, Nat.add_sub_cancel]
    · have e0 : d = 2 ^ 53 := by omega
      subst e0
      have e1 : (s * 2 ^ 52 + 2 ^ 53) / 2 ^ 52 = s + 2 := by omega
      have e2 : (s * 2 ^ 52 + 2 ^ 53) % 2 ^ 52 = 0 := by omega
      rw [e1, e2, if_neg (by omega), show s + 2 - 1 = s + 1 by omega]
      ring

/-- Every magnitude is a spacing and a significand. -/
theorem mag_scaled (m : Nat) : ∃ s d, m = s * 2 ^ 52 + d ∧ d < 2 ^ 53 ∧ (s = 0 ∨ 2 ^ 52 ≤ d) := by
  by_cases h : m / 2 ^ 52 = 0
  · exact ⟨0, m, by omega, by omega, .inl rfl⟩
  · exact ⟨m / 2 ^ 52 - 1, 2 ^ 52 + m % 2 ^ 52, by omega, by omega, .inr (by omega)⟩

theorem magUnits_succ_lt (m : Nat) : magUnits m < magUnits (m + 1) := by
  obtain ⟨s, d, rfl, hd, h⟩ := mag_scaled m
  rw [Nat.add_assoc, magUnits_scaled (by omega) h, magUnits_scaled (by omega) (by omega)]
  exact Nat.mul_lt_mul_of_pos_right (Nat.lt_succ_self d) (Nat.two_pow_pos s)

theorem magUnits_strictMono : StrictMono magUnits := strictMono_nat_of_lt_succ magUnits_succ_lt

theorem magUnits_le {m n : Nat} (h : m ≤ n) : magUnits m ≤ magUnits n := magUnits_strictMono.monotone h

@[simp] theorem magUnits_zero : magUnits 0 = 0 := rfl

/-- Rounding to an integer never goes below the integer part, and goes above it only from a remainder. -/
theorem divRoundEven_bounds (num : Nat) {den : Nat} (h : 0 < den) :
    num / den ≤ divRoundEven num den ∧ divRoundEven num den ≤ num / den + 1 ∧
      (num % den = 0 → divRoundEven num den = num / den) := by
  unfold divRoundEven
  refine ⟨?_, ?_, fun h0 => ?_⟩
  · split
    · omega
    split <;> omega
  · split
    · omega
    split
    · omega
    · omega
  · rw [if_pos (by omega)]

/-- Rounding to an integer errs by at most a half. -/
theorem divRoundEven_err (num : Nat) {den : Nat} (h : 0 < den) :
    2 * (divRoundEven num den * den) ≤ 2 * num + den ∧ 2 * num ≤ 2 * (divRoundEven num den * den) + den := by
  have hn : num / den * den + num % den = num := Nat.div_add_mod' num den
  have hr : num % den < den := Nat.mod_lt _ h
  unfold divRoundEven
  generalize num / den = q at *
  generalize num % den = r at *
  split
  · constructor <;> omega
  split
  · rw [Nat.add_mul, Nat.one_mul]; constructor <;> omega
  · rcases Nat.mod_two_eq_zero_or_one q with h2 | h2 <;> rw [h2]
    · rw [Nat.add_zero]; constructor <;> omega
    · rw [Nat.add_mul, Nat.one_mul]; constructor <;> omega

theorem spacing_bounds (q : Nat) : q < 2 ^ (53 + spacing q) ∧ (spacing q = 0 ∨ 2 ^ (52 + spacing q) ≤ q) := by
  unfold spacing
  split
  · rename_i h
    exact ⟨h, .inl rfl⟩
  · rename_i h
    have hq : q ≠ 0 := by rintro rfl; simp at h
    have h1 : 53 ≤ q.log2 := (Nat.le_log2 hq).2 (by omega)
    refine ⟨?_, .inr ?_⟩
    · rw [show 53 + (q.log2 - 52) = q.log2 + 1 by omega]; exact Nat.lt_log2_self
    · rw [show 52 + (q.log2 - 52) = q.log2 by omega]; exact Nat.log2_self_le hq

/-- Before its cap, `roundUnits` is a spacing and a significand whose units are the quotient rounded to that spacing. -/
theorem roundUnits_scaled (num : Nat) {den : Nat} (h : 0 < den) :
    ∃ s d, roundUnits num den = min (s * 2 ^ 52 + d) infMag ∧ d ≤ 2 ^ 53 ∧ (s = 0 ∨ 2 ^ 52 ≤ d) ∧
      d = divRoundEven num (den * 2 ^ s) ∧ num < den * 2 ^ (53 + s) ∧ (s = 0 ∨ den * 2 ^ (52 + s) ≤ num) := by
  obtain ⟨h1, h2⟩ := spacing_bounds (num / den)
  refine ⟨spacing (num / den), _, rfl, ?_, ?_, rfl, ?_, ?_⟩
  · have hp : 0 < den * 2 ^ spacing (num / den) := Nat.mul_pos h (Nat.two_pow_pos _)
    have := (divRoundEven_bounds num hp).2.1
    have hlt : num / (den * 2 ^ spacing (num / den)) < 2 ^ 53 := by
      rw [← Nat.div_div_eq_div_mul, Nat.div_lt_iff_lt_mul (Nat.two_pow_pos _), ← Nat.pow_add]; exact h1
    omega
  · rcases h2 with h2 | h2
    · exact .inl h2
    · right
      have hp : 0 < den * 2 ^ spacing (num / den) := Nat.mul_pos h (Nat.two_pow_pos _)
      have := (divRoundEven_bounds num hp).1
      have hle : 2 ^ 52 ≤ num / (den * 2 ^ spacing (num / den)) := by
        rw [← Nat.div_div_eq_div_mul, Nat.le_div_iff_mul_le (Nat.two_pow_pos _), ← Nat.pow_add]; exact h2
      omega
  · rw [Nat.mul_comm]; exact (Nat.div_lt_iff_lt_mul h).1 h1
  · rcases h2 with h2 | h2
    · exact .inl h2
    · right; rw [Nat.mul_comm]; exact (Nat.le_div_iff_mul_le h).1 h2

/-- A quotient at least a magnitude's units rounds to at least that magnitude. -/
theorem le_roundUnits {num den m : Nat} (h : 0 < den) (hm : m ≤ infMag) (hle : magUnits m * den ≤ num) :
    m ≤ roundUnits num den := by
  obtain ⟨s, d, hr, hd, hs, hdef, hlt, -⟩ := roundUnits_scaled num h
  rw [hr]
  refine le_min ?_ hm
  by_contra hc
  have hc : s * 2 ^ 52 + d + 1 ≤ m := by omega
  have hp : 0 < den * 2 ^ s := Nat.mul_pos h (Nat.two_pow_pos _)
  have hmono := magUnits_le hc
  rcases Nat.lt_or_ge d (2 ^ 53) with h1 | h1
  · rw [Nat.add_assoc, magUnits_scaled (by omega) (by omega)] at hmono
    have h2 : (d + 1) * (den * 2 ^ s) ≤ num :=
      calc (d + 1) * (den * 2 ^ s) = (d + 1) * 2 ^ s * den := by ring
        _ ≤ magUnits m * den := Nat.mul_le_mul_right _ hmono
        _ ≤ num := hle
    have h3 : d + 1 ≤ num / (den * 2 ^ s) := (Nat.le_div_iff_mul_le hp).2 h2
    have := (divRoundEven_bounds num hp).1
    omega
  · have e : d = 2 ^ 53 := by omega
    have h0 : magUnits (s * 2 ^ 52 + d) ≤ magUnits m := magUnits_le (Nat.le_of_succ_le hc)
    rw [magUnits_scaled hd hs, e] at h0
    have : den * 2 ^ (53 + s) ≤ num :=
      calc den * 2 ^ (53 + s) = 2 ^ 53 * 2 ^ s * den := by rw [Nat.pow_add]; ring
        _ ≤ magUnits m * den := Nat.mul_le_mul_right _ h0
        _ ≤ num := hle
    omega

/-- A quotient at most a magnitude's units rounds to at most that magnitude. -/
theorem roundUnits_le {num den m : Nat} (h : 0 < den) (hle : num ≤ magUnits m * den) : roundUnits num den ≤ m := by
  obtain ⟨s, d, hr, hd, hs, hdef, -, hge⟩ := roundUnits_scaled num h
  rw [hr]
  refine (min_le_left _ _).trans ?_
  by_contra hc
  have hc : m + 1 ≤ s * 2 ^ 52 + d := by omega
  have hp : 0 < den * 2 ^ s := Nat.mul_pos h (Nat.two_pow_pos _)
  obtain ⟨b1, b2, b3⟩ := divRoundEven_bounds num hp
  rw [← hdef] at b1 b2 b3
  by_cases h1 : s = 0 ∨ 2 ^ 52 < d
  · have h0 : magUnits m ≤ magUnits (s * 2 ^ 52 + (d - 1)) := magUnits_le (by omega)
    rw [magUnits_scaled (by omega) (by omega)] at h0
    have h2 : num ≤ (d - 1) * (den * 2 ^ s) :=
      calc num ≤ magUnits m * den := hle
        _ ≤ (d - 1) * 2 ^ s * den := Nat.mul_le_mul_right _ h0
        _ = (d - 1) * (den * 2 ^ s) := by ring
    have h3 : num / (den * 2 ^ s) ≤ d - 1 := Nat.div_le_of_le_mul (by rw [Nat.mul_comm]; exact h2)
    have hd1 : 1 ≤ d := by
      by_contra h0
      have : d = 0 := by omega
      rcases h1 with h1 | h1 <;> omega
    have h4 : num / (den * 2 ^ s) = d - 1 := by omega
    have h5 : num % (den * 2 ^ s) = 0 := by
      have := Nat.div_add_mod num (den * 2 ^ s)
      rw [h4] at this
      have h6 : den * 2 ^ s * (d - 1) = (d - 1) * (den * 2 ^ s) := Nat.mul_comm _ _
      omega
    have := b3 h5
    omega
  · have hs0 : s ≠ 0 := fun h => h1 (.inl h)
    have e : d = 2 ^ 52 := by omega
    have h0 : magUnits m < magUnits (s * 2 ^ 52 + d) := magUnits_strictMono (by omega)
    rw [magUnits_scaled hd hs, e] at h0
    have h2 : den * 2 ^ (52 + s) ≤ num := by omega
    have h3 : num < den * 2 ^ (52 + s) :=
      calc num ≤ magUnits m * den := hle
        _ < 2 ^ 52 * 2 ^ s * den := Nat.mul_lt_mul_of_pos_right h0 h
        _ = den * 2 ^ (52 + s) := by rw [Nat.pow_add]; ring
    omega

/-- A quotient that is a finite magnitude's units is that magnitude. -/
theorem roundUnits_exact {m den : Nat} (h : 0 < den) (hm : m ≤ infMag) : roundUnits (magUnits m * den) den = m :=
  Nat.le_antisymm (roundUnits_le h (Nat.le_refl _)) (le_roundUnits h hm (Nat.le_refl _))

@[simp] theorem roundUnits_zero (den : Nat) (h : 0 < den) : roundUnits 0 den = 0 := by
  have := roundUnits_exact (m := 0) h (by decide)
  simpa using this

theorem roundUnits_le_infMag (num den : Nat) : roundUnits num den ≤ infMag := min_le_right _ _

theorem divRoundEven_mono {a b den : Nat} (h : 0 < den) (hab : a ≤ b) : divRoundEven a den ≤ divRoundEven b den := by
  obtain ⟨a1, a2, a3⟩ := divRoundEven_bounds a h
  obtain ⟨b1, b2, b3⟩ := divRoundEven_bounds b h
  have hq : a / den ≤ b / den := Nat.div_le_div_right hab
  rcases Nat.lt_or_ge (a / den) (b / den) with h1 | h1
  · omega
  · have he : a / den = b / den := by omega
    have hr : a % den ≤ b % den := by
      have ha := Nat.div_add_mod a den
      have hb := Nat.div_add_mod b den
      rw [he] at ha
      omega
    unfold divRoundEven
    rw [he]
    split
    · split
      · omega
      split <;> omega
    split
    · rw [if_neg (by omega), if_pos (by omega)]
    · rw [if_neg (by omega)]
      split <;> omega

/-- Rounding is monotonic in the quotient's numerator. -/
theorem roundUnits_mono {a b den : Nat} (h : 0 < den) (hab : a ≤ b) : roundUnits a den ≤ roundUnits b den := by
  obtain ⟨s, d, hr, hd, hs, hdef, hlt, hge⟩ := roundUnits_scaled a h
  obtain ⟨s', d', hr', hd', hs', hdef', hlt', hge'⟩ := roundUnits_scaled b h
  rcases Nat.lt_trichotomy s s' with h1 | h1 | h1
  · have h2 : s * 2 ^ 52 + d ≤ s' * 2 ^ 52 + d' := by omega
    rw [hr, hr']; exact min_le_min_right _ h2
  · subst h1
    rw [hr, hr', hdef, hdef']
    exact min_le_min_right _ (Nat.add_le_add_left (divRoundEven_mono (Nat.mul_pos h (Nat.two_pow_pos _)) hab) _)
  · exfalso
    have h2 : den * 2 ^ (52 + s) ≤ a := by omega
    have h3 : den * 2 ^ (53 + s') ≤ den * 2 ^ (52 + s) :=
      Nat.mul_le_mul_left _ (Nat.pow_le_pow_right (by omega) (by omega))
    omega

/-! ### The fields of a packed value -/

theorem f64Mag_lt (x : F64) : f64Mag x < 2 ^ 63 := Nat.mod_lt _ (by decide)

theorem f64Mag_pack (neg : Bool) {m : Nat} (h : m < 2 ^ 63) : f64Mag (f64Pack neg m) = m := by
  cases neg <;> simp [f64Mag, f64Pack] <;> omega

theorem f64Neg_pack (neg : Bool) {m : Nat} (h : m < 2 ^ 63) : f64Neg (f64Pack neg m) = neg := by
  cases neg <;> simp [f64Neg, f64Pack] <;> omega

theorem f64Pack_fields (x : F64) : f64Pack (f64Neg x) (f64Mag x) = x := by
  have := x.isLt
  apply BitVec.eq_of_toNat_eq
  simp only [f64Pack, f64Neg, f64Mag, decide_eq_true_eq, BitVec.toNat_ofNat]
  split <;> omega

theorem f64Mag_negate (x : F64) : f64Mag (f64Negate x) = f64Mag x := f64Mag_pack _ (f64Mag_lt x)

theorem f64Neg_negate (x : F64) : f64Neg (f64Negate x) = !f64Neg x := f64Neg_pack _ (f64Mag_lt x)

theorem f64Mag_abs (x : F64) : f64Mag (f64Abs x) = f64Mag x := f64Mag_pack _ (f64Mag_lt x)

theorem f64Units_negate (x : F64) : f64Units (f64Negate x) = -f64Units x := by
  unfold f64Units
  rw [f64Mag_negate, f64Neg_negate]
  cases f64Neg x <;> simp

theorem f64Finite_iff_lt (x : F64) : f64Finite x = true ↔ f64Mag x < infMag := decide_eq_true_iff

theorem f64IsNaN_eq_false (x : F64) : f64IsNaN x = false ↔ f64Mag x ≤ infMag := by
  rw [f64IsNaN, decide_eq_false_iff_not, Nat.not_lt]

theorem f64IsZero_iff (x : F64) : f64IsZero x = true ↔ f64Mag x = 0 := decide_eq_true_iff

theorem f64Le_iff (x y : F64) :
    f64Le x y = true ↔ f64IsNaN x = false ∧ f64IsNaN y = false ∧ f64Key x ≤ f64Key y := by
  simp [f64Le, and_assoc]

theorem f64Lt_iff (x y : F64) :
    f64Lt x y = true ↔ f64IsNaN x = false ∧ f64IsNaN y = false ∧ f64Key x < f64Key y := by
  simp [f64Lt, and_assoc]

/-- A finite value is neither a NaN nor an infinity. -/
theorem f64Finite_iff (x : F64) : f64Finite x = true ↔ f64IsNaN x = false ∧ f64IsInf x = false := by
  simp only [f64Finite, f64IsNaN, f64IsInf, decide_eq_true_eq, decide_eq_false_iff_not]
  omega

/-- On values that are not NaNs the order is the order of the units, infinities included. -/
theorem f64Key_le_iff (x y : F64) : f64Key x ≤ f64Key y ↔ f64Units x ≤ f64Units y := by
  have key : ∀ {m n : Nat}, magUnits m ≤ magUnits n ↔ m ≤ n := magUnits_strictMono.le_iff_le
  have zero : ∀ {m : Nat}, magUnits m = 0 ↔ m = 0 := by
    intro m
    constructor
    · intro h
      have : magUnits m ≤ magUnits 0 := by simp [h]
      have := key.1 this
      omega
    · rintro rfl; rfl
  unfold f64Key f64Units
  have k1 := key (m := f64Mag x) (n := f64Mag y)
  have k2 := key (m := f64Mag y) (n := f64Mag x)
  have z1 := zero (m := f64Mag x)
  have z2 := zero (m := f64Mag y)
  cases f64Neg x <;> cases f64Neg y <;> simp only [if_true, if_false, Bool.false_eq_true] <;> omega

/-- The units of a finite sum (R11): the exact sum rounded once. -/
theorem f64Mag_add {x y : F64} (hx : f64Finite x = true) (hy : f64Finite y = true) :
    f64Mag (f64Add x y) = roundUnits (f64Units x + f64Units y).natAbs 1 := by
  obtain ⟨x1, x2⟩ := (f64Finite_iff x).1 hx
  obtain ⟨y1, y2⟩ := (f64Finite_iff y).1 hy
  have hlt : roundUnits (f64Units x + f64Units y).natAbs 1 < 2 ^ 63 :=
    Nat.lt_of_le_of_lt (roundUnits_le_infMag _ _) (by decide)
  simp only [f64Add, x1, x2, y1, y2, Bool.or_self, Bool.false_eq_true, if_false]
  split
  · rename_i h
    rw [h, Int.natAbs_zero, roundUnits_zero 1 (by decide), f64Mag_pack _ (by decide)]
  · exact f64Mag_pack _ hlt

/-- The units of a finite product (R11). -/
theorem f64Mag_mul {x y : F64} (hx : f64Finite x = true) (hy : f64Finite y = true) :
    f64Mag (f64Mul x y) = roundUnits (magUnits (f64Mag x) * magUnits (f64Mag y)) unitsPerOne := by
  obtain ⟨x1, x2⟩ := (f64Finite_iff x).1 hx
  obtain ⟨y1, y2⟩ := (f64Finite_iff y).1 hy
  simp only [f64Mul, x1, x2, y1, y2, Bool.or_self, Bool.false_eq_true, if_false]
  exact f64Mag_pack _ (Nat.lt_of_le_of_lt (roundUnits_le_infMag _ _) (by decide))

/-- The units of a finite quotient (R11). -/
theorem f64Mag_div {x y : F64} (hx : f64Finite x = true) (hy : f64Finite y = true) (h0 : f64IsZero y = false) :
    f64Mag (f64Div x y) = roundUnits (magUnits (f64Mag x) * unitsPerOne) (magUnits (f64Mag y)) := by
  obtain ⟨x1, x2⟩ := (f64Finite_iff x).1 hx
  obtain ⟨y1, y2⟩ := (f64Finite_iff y).1 hy
  simp only [f64Div, x1, x2, y1, y2, h0, Bool.or_self, Bool.false_eq_true, if_false]
  exact f64Mag_pack _ (Nat.lt_of_le_of_lt (roundUnits_le_infMag _ _) (by decide))

end Sys2Proof.Machine
end

