-- ==== Sys2Proof/Laws/Cells.lean ====
section
/-! SUPPORT. The addressed spaces: what a load leaves to be read, what a read of several cells answers, and the canonical
form. -/

namespace Sys2Proof.Machine

variable {α : Type}

theorem cellRead_cellsFrom (vs : List α) (a b : Nat) :
    cellRead (cellsFrom a vs) b = if a ≤ b then vs[b - a]? else none := by
  induction vs generalizing a with
  | nil => simp [cellsFrom, cellRead]
  | cons v vs ih =>
    simp only [cellsFrom, cellRead, ih]
    by_cases h : a = b
    · simp [h]
    · by_cases h' : a ≤ b
      · have h1 : a + 1 ≤ b := by omega
        have h2 : b - a = (b - (a + 1)) + 1 := by omega
        simp [h, h', h1, h2]
      · have h1 : ¬ a + 1 ≤ b := by omega
        simp [h, h', h1]

/-- Reading back a loaded space. -/
@[simp] theorem cellRead_cellsOf (vs : List α) (a : Nat) : cellRead (cellsOf vs) a = vs[a]? := by
  simp [cellsOf, cellRead_cellsFrom]

@[simp] theorem cellRead_nil (a : Nat) : cellRead ([] : Cells α) a = none := rfl

/-- What a read of `n` cells answers, cell by cell. -/
theorem cellReadSeq_eq_some {m : Cells α} {a n : Nat} {vs : List α} :
    cellReadSeq m a n = some vs ↔ vs.length = n ∧ ∀ j, j < n → cellRead m (a + j) = vs[j]? := by
  induction n generalizing a vs with
  | zero => cases vs <;> simp [cellReadSeq]
  | succ n ih =>
    simp only [cellReadSeq]
    constructor
    · intro h
      split at h
      · rename_i v ws hv hws
        obtain ⟨hl, hr⟩ := ih.1 hws
        simp only [Option.some.injEq] at h
        subst h
        refine ⟨by simp [hl], fun j hj => ?_⟩
        cases j with
        | zero => simpa using hv
        | succ j =>
          have := hr j (by omega)
          rw [show a + 1 + j = a + (j + 1) by omega] at this
          simpa using this
      · cases h
    · rintro ⟨hl, hr⟩
      cases vs with
      | nil => simp at hl
      | cons v ws =>
        have h0 : cellRead m a = some v := by simpa using hr 0 (by omega)
        have h1 : cellReadSeq m (a + 1) n = some ws := by
          refine ih.2 ⟨by simpa using hl, fun j hj => ?_⟩
          have := hr (j + 1) (by omega)
          rw [show a + (j + 1) = a + 1 + j by omega] at this
          simpa using this
        simp [h0, h1]

theorem cellReadSeq_length {m : Cells α} {a n : Nat} {vs : List α} (h : cellReadSeq m a n = some vs) :
    vs.length = n := (cellReadSeq_eq_some.1 h).1

/-- A read of cells that are all written answers their values. -/
theorem cellReadSeq_of_written {m : Cells α} {a n : Nat} (h : ∀ j, j < n → (cellRead m (a + j)).isSome = true) :
    ∃ vs, cellReadSeq m a n = some vs := by
  induction n generalizing a with
  | zero => exact ⟨[], rfl⟩
  | succ n ih =>
    obtain ⟨v, hv⟩ := Option.isSome_iff_exists.1 (h 0 (by omega))
    obtain ⟨ws, hws⟩ := ih (a := a + 1) fun j hj => by
      have := h (j + 1) (by omega)
      rwa [show a + 1 + j = a + (j + 1) by omega]
    exact ⟨v :: ws, by simp only [Nat.add_zero] at hv; simp [cellReadSeq, hv, hws]⟩

/-- A read inside a loaded space answers the loaded values. -/
theorem cellReadSeq_cellsOf {vs : List α} {a n : Nat} (h : a + n ≤ vs.length) :
    cellReadSeq (cellsOf vs) a n = some ((vs.drop a).take n) := by
  refine cellReadSeq_eq_some.2 ⟨by simp; omega, fun j hj => ?_⟩
  simp [hj]

theorem cellsWfFrom_cellsFrom (size : Nat) (vs : List α) (a lo : Nat) (hlo : lo ≤ a) (h : a + vs.length ≤ size) :
    cellsWfFrom size lo (cellsFrom a vs) = true := by
  induction vs generalizing a lo with
  | nil => rfl
  | cons v vs ih =>
    simp only [List.length_cons] at h
    have h1 : a < size := by omega
    simp [cellsFrom, cellsWfFrom, hlo, h1, ih (a + 1) (a + 1) (Nat.le_refl _) (by omega)]

/-- A load of values that fit the space has the canonical form. -/
theorem cellsWf_cellsOf {size : Nat} {vs : List α} (h : vs.length ≤ size) : cellsWf size (cellsOf vs) = true :=
  cellsWfFrom_cellsFrom size vs 0 0 (Nat.le_refl _) (by omega)

@[simp] theorem cellsWf_nil (size : Nat) : cellsWf size ([] : Cells α) = true := rfl

/-- A cell outside a space in canonical form is unwritten. -/
theorem cellRead_of_wfFrom {size lo : Nat} {m : Cells α} (h : cellsWfFrom size lo m = true) {a : Nat}
    (ha : a < lo ∨ size ≤ a) : cellRead m a = none := by
  induction m generalizing lo with
  | nil => rfl
  | cons c m ih =>
    obtain ⟨b, v⟩ := c
    simp only [cellsWfFrom, Bool.and_eq_true, decide_eq_true_eq] at h
    have hb : b ≠ a := by omega
    simp only [cellRead, hb, if_false]
    exact ih h.2 (by omega)

theorem cellRead_of_wf {size : Nat} {m : Cells α} (h : cellsWf size m = true) {a : Nat} (ha : size ≤ a) :
    cellRead m a = none := cellRead_of_wfFrom h (.inr ha)

/-- Two spaces in canonical form that read alike are equal data. -/
theorem cells_ext_from {size lo : Nat} {m m' : Cells α} (h : cellsWfFrom size lo m = true)
    (h' : cellsWfFrom size lo m' = true) (hr : ∀ a, cellRead m a = cellRead m' a) : m = m' := by
  induction m generalizing lo m' with
  | nil =>
    cases m' with
    | nil => rfl
    | cons c m' => have := hr c.1; simp [cellRead] at this
  | cons c m ih =>
    cases m' with
    | nil => have := hr c.1; simp [cellRead] at this
    | cons d m' =>
      obtain ⟨a, v⟩ := c
      obtain ⟨b, w⟩ := d
      simp only [cellsWfFrom, Bool.and_eq_true, decide_eq_true_eq] at h h'
      have hab : a = b := by
        rcases Nat.lt_trichotomy a b with hl | he | hl
        · have := hr a
          rw [show cellRead ((b, w) :: m') a = none by
            simp only [cellRead, show b ≠ a by omega, if_false]
            exact cellRead_of_wfFrom h'.2 (by omega)] at this
          simp [cellRead] at this
        · exact he
        · have := hr b
          rw [show cellRead ((a, v) :: m) b = none by
            simp only [cellRead, show a ≠ b by omega, if_false]
            exact cellRead_of_wfFrom h.2 (by omega)] at this
          simp [cellRead] at this
      subst hab
      have hv := hr a
      simp only [cellRead, if_true, Option.some.injEq] at hv
      subst hv
      congr 1
      refine ih h.2 h'.2 fun x => ?_
      by_cases hx : a = x
      · subst hx
        rw [cellRead_of_wfFrom h.2 (by omega), cellRead_of_wfFrom h'.2 (by omega)]
      · have := hr x
        simpa [cellRead, hx] using this

theorem cells_ext {size : Nat} {m m' : Cells α} (h : cellsWf size m = true) (h' : cellsWf size m' = true)
    (hr : ∀ a, cellRead m a = cellRead m' a) : m = m' := cells_ext_from h h' hr

end Sys2Proof.Machine
end

