-- ==== Sys2Proof/Laws/Commands.lean ====
section
/-! SUPPORT. The command bytes and the command table of a configuration: what the lookups of Machine/Commands.lean
answer. -/

namespace Sys2Proof.Machine

theorem mem_allCommands (n : Config.CommandName) : n ∈ allCommands := by cases n <;> decide

/-- The name found for a code has that code. -/
theorem commandOf_some {c : Config.Commands} {b : Byte} {n : Config.CommandName} (h : commandOf c b = some n) :
    codeOf c n = b := by
  simpa using List.find?_some h

/-- No name is found for a code that none has. -/
theorem commandOf_none {c : Config.Commands} {b : Byte} : commandOf c b = none ↔ ∀ n, codeOf c n ≠ b := by
  unfold commandOf
  simp [mem_allCommands]

/-- What a usable configuration is (R7, R79). -/
theorem commandsOk_iff {c : Config.Commands} : commandsOk c = true ↔
    [Config.cmdASetpos, c.getpos, c.stop, c.batt].Nodup ∧ (allCommands.map (codeOf c)).Nodup ∧
      ((commandTable c).map Config.CommandRow.code).Nodup ∧ ∀ r ∈ commandTable c, boundsWidth r.bounds ≤ r.preq := by
  simp only [commandsOk, Bool.and_eq_true, decide_eq_true_eq, List.all_eq_true, and_assoc]

/-- Where the codes are distinct, a code stands for the name that has it. -/
theorem commandOf_codeOf {c : Config.Commands} (h : commandsOk c = true) (n : Config.CommandName) :
    commandOf c (codeOf c n) = some n := by
  have hd := (commandsOk_iff.1 h).2.1
  cases e : commandOf c (codeOf c n) with
  | none => exact absurd rfl (commandOf_none.1 e n)
  | some m => rw [List.inj_on_of_nodup_map hd (mem_allCommands m) (mem_allCommands n) (commandOf_some e)]

/-- The unit A commands are told apart by their bytes (R7). -/
theorem commandsOk_unitA {c : Config.Commands} (h : commandsOk c = true) :
    [Config.cmdASetpos, c.getpos, c.stop, c.batt].Nodup := (commandsOk_iff.1 h).1

/-- The row found for a code is one of the table and has that code. -/
theorem rowOf_some {c : Config.Commands} {b : Byte} {r : Config.CommandRow} (h : rowOf c b = some r) :
    r ∈ commandTable c ∧ r.code = b :=
  ⟨List.mem_of_find?_eq_some h, by simpa using List.find?_some h⟩

/-- No row is found for a code that is not in the table. -/
theorem rowOf_none {c : Config.Commands} {b : Byte} : rowOf c b = none ↔ ∀ r ∈ commandTable c, r.code ≠ b := by
  simp [rowOf]

/-- Where the codes are distinct, a code stands for the row that has it. -/
theorem rowOf_code {c : Config.Commands} (h : commandsOk c = true) {r : Config.CommandRow} (hr : r ∈ commandTable c) :
    rowOf c r.code = some r := by
  cases e : rowOf c r.code with
  | none => exact absurd rfl (rowOf_none.1 e r hr)
  | some q =>
    obtain ⟨hq, hc⟩ := rowOf_some e
    rw [List.inj_on_of_nodup_map (commandsOk_iff.1 h).2.2.1 hq hr hc]

/-- A name has the code of its row. -/
theorem codeOf_row {c : Config.Commands} {n : Config.CommandName} {r : Config.CommandRow} (h : rowNamed c n = some r) :
    codeOf c n = r.code := by
  simp [codeOf, h]

/-- A name without a row has the code of R79. -/
theorem codeOf_default {c : Config.Commands} {n : Config.CommandName} (h : rowNamed c n = none) :
    codeOf c n = (commandRow n).code := by
  simp [codeOf, h]

/-- `MOVE_TIME_WRITE` is 1 in every configuration (R5, R78). -/
@[simp] theorem codeOf_moveTimeWrite (c : Config.Commands) : codeOf c .moveTimeWrite = 1#8 := rfl

/-- The table of the defaults is R79's. -/
theorem defaultCommands_table : commandTable defaultCommands = allCommands.map commandRow := rfl

/-- The defaults of R7 and R79 are usable. -/
theorem defaultCommands_ok : commandsOk defaultCommands = true := by decide +kernel

theorem defaultCommands_typed : typedRowsOk defaultCommands = true := by decide +kernel

end Sys2Proof.Machine
end

