-- ==== Sys2Proof/Laws/Frames.lean ====
section
/-! SUPPORT. Byte order and the wire frames: fields read back, and the lengths of payloads and frames. -/

namespace Sys2Proof.Machine

theorem lowByte_toNat (v : Half) : (lowByte v).toNat = v.toNat % 256 := by simp [lowByte]

theorem highByte_toNat (v : Half) : (highByte v).toNat = v.toNat / 256 := by
  have := v.isLt
  simp [highByte]; omega

theorem le16_toNat (b0 b1 : Byte) : (le16 b0 b1).toNat = b0.toNat + 256 * b1.toNat := by
  have := b0.isLt
  have := b1.isLt
  simp [le16]; omega

/-- A `u16` field reads back (R74). -/
@[simp] theorem le16_lowByte_highByte (v : Half) : le16 (lowByte v) (highByte v) = v := by
  apply BitVec.eq_of_toNat_eq
  rw [le16_toNat, lowByte_toNat, highByte_toNat]; omega

@[simp] theorem lowByte_le16 (b0 b1 : Byte) : lowByte (le16 b0 b1) = b0 := by
  have := b0.isLt
  apply BitVec.eq_of_toNat_eq
  rw [lowByte_toNat, le16_toNat]; omega

@[simp] theorem highByte_le16 (b0 b1 : Byte) : highByte (le16 b0 b1) = b1 := by
  have := b0.isLt
  apply BitVec.eq_of_toNat_eq
  rw [highByte_toNat, le16_toNat]; omega

/-- An `i32` operand reads back. -/
theorem le32_bytes32 (v : Word) :
    le32 (BitVec.ofNat 8 (v.toNat % 256)) (BitVec.ofNat 8 (v.toNat / 256 % 256))
      (BitVec.ofNat 8 (v.toNat / 65536 % 256)) (BitVec.ofNat 8 (v.toNat / 16777216 % 256)) = v := by
  have := v.isLt
  apply BitVec.eq_of_toNat_eq
  simp [le32]; omega

theorem bytes32_le32 (b0 b1 b2 b3 : Byte) : bytes32 (le32 b0 b1 b2 b3) = [b0, b1, b2, b3] := by
  have := b0.isLt
  have := b1.isLt
  have := b2.isLt
  have := b3.isLt
  have h : (le32 b0 b1 b2 b3).toNat = b0.toNat + 256 * b1.toNat + 65536 * b2.toNat + 16777216 * b3.toNat := by
    simp [le32]; omega
  simp only [bytes32, h, List.cons.injEq, and_true]
  refine ⟨?_, ?_, ?_, ?_⟩ <;> apply BitVec.eq_of_toNat_eq <;> simp <;> omega

/-- The two halves of an `f64` operand read back. -/
theorem le64_halves (v : F64) :
    le64 (BitVec.ofNat 32 (v.toNat % 4294967296)) (BitVec.ofNat 32 (v.toNat / 4294967296)) = v := by
  have := v.isLt
  apply BitVec.eq_of_toNat_eq
  simp [le64]; omega

theorem bytes64_le64 (lo hi : Word) : bytes64 (le64 lo hi) = bytes32 lo ++ bytes32 hi := by
  have := lo.isLt
  have := hi.isLt
  have h : (le64 lo hi).toNat = lo.toNat + 4294967296 * hi.toNat := by simp [le64]; omega
  have h0 : BitVec.ofNat 32 ((le64 lo hi).toNat % 4294967296) = lo := by
    apply BitVec.eq_of_toNat_eq; rw [h]; simp; omega
  have h1 : BitVec.ofNat 32 ((le64 lo hi).toNat / 4294967296) = hi := by
    apply BitVec.eq_of_toNat_eq; rw [h]; simp; omega
  simp only [bytes64, h0, h1]

theorem countByte_toNat {n : Nat} (h : n ≤ 255) : (countByte n).toNat = n := by simp [countByte]; omega

theorem countHalf_toNat {n : Nat} (h : n ≤ 65535) : (countHalf n).toNat = n := by simp [countHalf]; omega

@[simp] theorem countByte_of_toNat (b : Byte) : countByte b.toNat = b := by simp [countByte]

@[simp] theorem countHalf_of_toNat (b : Half) : countHalf b.toNat = b := by simp [countHalf]

theorem zext16_toNat (b : Byte) : (zext16 b).toNat = b.toNat := by
  have := b.isLt
  simp [zext16]; omega

@[simp] theorem lowByte_zext16 (b : Byte) : lowByte (zext16 b) = b := by
  have := b.isLt
  apply BitVec.eq_of_toNat_eq
  rw [lowByte_toNat, zext16_toNat]; omega

@[simp] theorem triples_length (qs : List ServoPos) : (triples qs).length = 3 * qs.length := by
  induction qs with
  | nil => rfl
  | cons q qs ih => simp [triples, ih]; omega

@[simp] theorem setposPayload_length (dur : Half) (qs : List ServoPos) :
    (setposPayload dur qs).length = 3 + 3 * qs.length := by
  simp [setposPayload, bytes16]; omega

@[simp] theorem idsPayload_length (ids : List Byte) : (idsPayload ids).length = 1 + ids.length := by
  simp [idsPayload]; omega

@[simp] theorem positionsPayload_length (qs : List ServoPos) :
    (positionsPayload qs).length = 1 + 3 * qs.length := by
  simp [positionsPayload]; omega

/-- A unit A frame is 64 bytes (R70). -/
theorem frameA_length (cmd : Byte) {p : List Byte} (h : p.length ≤ 60) : (frameA cmd p).length = 64 := by
  simp [frameA, Config.payloadMaxA]; omega

/-- The bytes of a unit A frame by offset (R70). -/
theorem frameA_getElem? (cmd : Byte) {p : List Byte} (h : p.length ≤ 60) (j : Nat) :
    (frameA cmd p)[j]? =
      if j < 64 then
        some (if j < 2 then 0x55#8 else if j = 2 then countByte (p.length + 2) else if j = 3 then cmd
          else (p[j - 4]?).getD 0#8)
      else none := by
  rcases j with _ | _ | _ | _ | j
  · rfl
  · rfl
  · rfl
  · rfl
  · simp only [frameA, Config.payloadMaxA, List.cons_append, List.nil_append, List.getElem?_cons_succ,
      List.getElem?_append, List.getElem?_replicate]
    by_cases h1 : j < p.length
    · have h2 : j + 1 + 1 + 1 + 1 < 64 := by omega
      simp [h1, h2]
    · by_cases h2 : j + 1 + 1 + 1 + 1 < 64
      · have h3 : j - p.length < 60 - p.length := by omega
        simp [h1, h2, h3]
      · have h3 : ¬ j - p.length < 60 - p.length := by omega
        simp [h1, h2, h3]

@[simp] theorem frameBodyB_length (cmd id : Byte) (p : List Byte) : (frameBodyB cmd id p).length = p.length + 3 := by
  simp [frameBodyB]

/-- A unit B frame is `P + 6` bytes (R73). -/
@[simp] theorem frameB_length (cmd id : Byte) (p : List Byte) : (frameB cmd id p).length = p.length + 6 := by
  simp [frameB]

theorem byteSum_append (s t : List Byte) : byteSum (s ++ t) = byteSum s + byteSum t := by
  induction s with
  | nil => simp [byteSum]
  | cons b s ih => simp [byteSum, ih]; omega

theorem checksum_toNat (s : List Byte) : (checksum s).toNat = 255 - byteSum s % 256 := by
  simp [checksum]; omega

end Sys2Proof.Machine
end

