-- ==== Sys2Proof/Laws/Decode.lean ====
section
/-! SUPPORT. Each operand reader of the decoder gives back what the encoder writes, and the bytes after it. -/

namespace Sys2Proof

open Sys2Proof.Machine

theorem takeBytes_append (xs ys : List Byte) : takeBytes xs.length (xs ++ ys) = .ok (xs, ys) := by
  induction xs with
  | nil => simp [takeBytes]
  | cons x xs ih => simp [takeBytes, ih]

theorem takePairs_triples (qs : List ServoPos) (ys : List Byte) :
    takePairs qs.length (triples qs ++ ys) = .ok (qs, ys) := by
  induction qs with
  | nil => simp [takePairs, triples]
  | cons q qs ih => simp [takePairs, triples, ih]

theorem takeCounted_counted {xs : List Byte} (h : xs.length ≤ 255) (ys : List Byte) :
    takeCounted (counted xs ++ ys) = .ok (xs, ys) := by
  simp [takeCounted, counted, takeU8, bind, Except.bind, countByte_toNat h, takeBytes_append]

theorem takeCounted_counted' {xs : List Byte} (h : xs.length ≤ 255) :
    takeCounted (counted xs) = .ok (xs, []) := by
  simpa using takeCounted_counted h []

theorem takeU16_bytes16 (v : Half) (ys : List Byte) : takeU16 (bytes16 v ++ ys) = .ok (v, ys) := by
  simp [takeU16, bytes16]

theorem takeF64_bytes64 (v : F64) (ys : List Byte) : takeF64 (bytes64 v ++ ys) = .ok (v, ys) := by
  have h := le64_halves v
  have h0 := le32_bytes32 (BitVec.ofNat 32 (v.toNat % 4294967296))
  have h1 := le32_bytes32 (BitVec.ofNat 32 (v.toNat / 4294967296))
  simp only [bytes64, bytes32, List.cons_append, List.nil_append, takeF64, h0, h1, h]

theorem takeI32_bytes32 (v : Word) (ys : List Byte) : takeI32 (bytes32 v ++ ys) = .ok (v, ys) := by
  simp only [bytes32, List.cons_append, List.nil_append, takeI32, le32_bytes32 v]

theorem takeBit_bitByte (b : Bool) (ys : List Byte) : takeBit (bitByte b :: ys) = .ok (b, ys) := by
  cases b <;> simp [takeBit, bitByte]

theorem takeCounted16_eq {xs : List Byte} (h : xs.length ≤ 65535) :
    takeCounted16 (bytes16 (countHalf xs.length) ++ xs) = .ok (xs, []) := by
  have := takeBytes_append xs []
  simp only [List.append_nil] at this
  simp [takeCounted16, takeU16_bytes16, bind, Except.bind, countHalf_toNat h, this]

/-! ### What each reader answers, both ways -/

theorem take_bind_ok {α β : Type} {x : Except DecodeError (α × List Byte)} {f : α × List Byte → Except DecodeError β} {b : β} :
    (x >>= f) = .ok b ↔ ∃ a bs, x = .ok (a, bs) ∧ f (a, bs) = .ok b := by
  rcases x with e | ⟨a, bs⟩ <;> simp [bind, Except.bind]

theorem takeU8_ok {bs r : List Byte} {v} : takeU8 bs = .ok (v, r) ↔ bs = v :: r := by
  cases bs <;> simp [takeU8]
theorem takeBit_ok {bs r : List Byte} {v} : takeBit bs = .ok (v, r) ↔ bs = bitByte v :: r := by
  cases bs with
  | nil => simp [takeBit]
  | cons b bs =>
    by_cases h0 : b = 0#8
    · cases v <;> simp [takeBit, bitByte, h0]
    · by_cases h1 : b = 1#8
      · cases v <;> simp [takeBit, bitByte, h1]
      · cases v <;> simp [takeBit, bitByte, h0, h1]
theorem takeU16_ok {bs r : List Byte} {v} : takeU16 bs = .ok (v, r) ↔ bs = bytes16 v ++ r := by
  constructor
  · intro h
    rcases bs with _ | ⟨a, _ | ⟨b, bs⟩⟩ <;> simp [takeU16] at h
    obtain ⟨rfl, rfl⟩ := h
    simp [bytes16]
  · rintro rfl; exact takeU16_bytes16 v r
theorem takeI32_ok {bs r : List Byte} {v} : takeI32 bs = .ok (v, r) ↔ bs = bytes32 v ++ r := by
  constructor
  · intro h
    rcases bs with _ | ⟨a, _ | ⟨b, _ | ⟨c, _ | ⟨d, bs⟩⟩⟩⟩ <;> simp [takeI32] at h
    obtain ⟨rfl, rfl⟩ := h
    simp [bytes32_le32]
  · rintro rfl; exact takeI32_bytes32 v r
theorem takeF64_ok {bs r : List Byte} {v} : takeF64 bs = .ok (v, r) ↔ bs = bytes64 v ++ r := by
  constructor
  · intro h
    rcases bs with _ | ⟨a, _ | ⟨b, _ | ⟨c, _ | ⟨d, _ | ⟨e, _ | ⟨f, _ | ⟨g, _ | ⟨k, bs⟩⟩⟩⟩⟩⟩⟩⟩ <;> simp [takeF64] at h
    obtain ⟨rfl, rfl⟩ := h
    simp [bytes64_le64, bytes32_le32]
  · rintro rfl; exact takeF64_bytes64 v r
theorem takeBytes_ok {n : Nat} {bs r xs : List Byte} : takeBytes n bs = .ok (xs, r) ↔ xs.length = n ∧ bs = xs ++ r := by
  constructor
  · intro h
    induction n generalizing bs xs with
    | zero => simp [takeBytes] at h; simp [h]
    | succ n ih =>
      cases bs with
      | nil => simp [takeBytes] at h
      | cons b bs =>
        simp only [takeBytes] at h
        split at h
        · rename_i ys rest hh
          simp at h
          obtain ⟨rfl, rfl⟩ := h
          obtain ⟨h1, h2⟩ := ih hh
          simp [h1, h2]
        · cases h
  · rintro ⟨rfl, rfl⟩; exact takeBytes_append xs r
theorem takePairs_ok {n : Nat} {bs r : List Byte} {xs} : takePairs n bs = .ok (xs, r) ↔ xs.length = n ∧ bs = triples xs ++ r := by
  constructor
  · intro h
    induction n generalizing bs xs with
    | zero => simp [takePairs] at h; simp [h, triples]
    | succ n ih =>
      rcases bs with _ | ⟨a, _ | ⟨b, _ | ⟨c, bs⟩⟩⟩ <;> simp only [takePairs] at h
      all_goals try cases h
      split at h
      · rename_i ys rest hh
        simp at h
        obtain ⟨rfl, rfl⟩ := h
        obtain ⟨h1, h2⟩ := ih hh
        simp [h1, h2, triples]
      · cases h
  · rintro ⟨rfl, rfl⟩; exact takePairs_triples xs r
theorem takeCounted_ok {bs r xs : List Byte} : takeCounted bs = .ok (xs, r) ↔ xs.length ≤ 255 ∧ bs = counted xs ++ r := by
  simp only [takeCounted, take_bind_ok, takeU8_ok, takeBytes_ok]
  constructor
  · rintro ⟨n, bs', rfl, h, rfl⟩
    have := n.isLt
    refine ⟨by omega, ?_⟩
    simp [counted, h]
  · rintro ⟨h, rfl⟩
    exact ⟨countByte xs.length, xs ++ r, rfl, (countByte_toNat h).symm, rfl⟩
theorem takeCounted16_ok {bs r xs : List Byte} : takeCounted16 bs = .ok (xs, r) ↔ xs.length ≤ 65535 ∧ bs = bytes16 (countHalf xs.length) ++ xs ++ r := by
  simp only [takeCounted16, take_bind_ok, takeU16_ok, takeBytes_ok]
  constructor
  · rintro ⟨n, bs', rfl, h, rfl⟩
    have := n.isLt
    refine ⟨by omega, ?_⟩
    simp [h]
  · rintro ⟨h, rfl⟩
    exact ⟨countHalf xs.length, xs ++ r, by simp, (countHalf_toNat h).symm, rfl⟩

end Sys2Proof
end

