-- ==== Sys2Proof/Laws/State.lean ====
section
/-! SUPPORT. One lemma for each field of the state and each named update of it. -/

namespace Sys2Proof.Machine

section
variable (s : State)

@[simp] theorem withRequests_params (rs : List Request) : (withRequests rs s).params = s.params := rfl
@[simp] theorem withRequests_requests (rs : List Request) : (withRequests rs s).requests = rs := rfl
@[simp] theorem withRequests_status (rs : List Request) : (withRequests rs s).status = s.status := rfl
@[simp] theorem withRequests_info (rs : List Request) : (withRequests rs s).info = s.info := rfl
@[simp] theorem withRequests_result (rs : List Request) : (withRequests rs s).result = s.result := rfl
@[simp] theorem withRequests_response (rs : List Request) : (withRequests rs s).response = s.response := rfl
@[simp] theorem withRequests_txa (rs : List Request) : (withRequests rs s).txa = s.txa := rfl
@[simp] theorem withRequests_txaValid (rs : List Request) : (withRequests rs s).txaValid = s.txaValid := rfl
@[simp] theorem withRequests_rxa (rs : List Request) : (withRequests rs s).rxa = s.rxa := rfl
@[simp] theorem withRequests_rxaCount (rs : List Request) : (withRequests rs s).rxaCount = s.rxaCount := rfl
@[simp] theorem withRequests_txb (rs : List Request) : (withRequests rs s).txb = s.txb := rfl
@[simp] theorem withRequests_txbLen (rs : List Request) : (withRequests rs s).txbLen = s.txbLen := rfl
@[simp] theorem withRequests_txbValid (rs : List Request) : (withRequests rs s).txbValid = s.txbValid := rfl
@[simp] theorem withRequests_rxb (rs : List Request) : (withRequests rs s).rxb = s.rxb := rfl
@[simp] theorem withRequests_rxbCount (rs : List Request) : (withRequests rs s).rxbCount = s.rxbCount := rfl
@[simp] theorem withRequests_armL1 (rs : List Request) : (withRequests rs s).armL1 = s.armL1 := rfl
@[simp] theorem withRequests_armL2 (rs : List Request) : (withRequests rs s).armL2 = s.armL2 := rfl
@[simp] theorem withRequests_armL3 (rs : List Request) : (withRequests rs s).armL3 = s.armL3 := rfl
@[simp] theorem withRequests_armL4 (rs : List Request) : (withRequests rs s).armL4 = s.armL4 := rfl
@[simp] theorem withRequests_armValid (rs : List Request) : (withRequests rs s).armValid = s.armValid := rfl
@[simp] theorem withRequests_pz (rs : List Request) : (withRequests rs s).pz = s.pz := rfl
@[simp] theorem withRequests_outstanding (rs : List Request) : (withRequests rs s).outstanding = s.outstanding := rfl
@[simp] theorem withRequests_faults (rs : List Request) : (withRequests rs s).faults = s.faults := rfl
@[simp] theorem withRequests_refused (rs : List Request) : (withRequests rs s).refused = s.refused := rfl

@[simp] theorem loadTxa_params (f : List Byte) : (loadTxa f s).params = s.params := rfl
@[simp] theorem loadTxa_requests (f : List Byte) : (loadTxa f s).requests = s.requests := rfl
@[simp] theorem loadTxa_status (f : List Byte) : (loadTxa f s).status = s.status := rfl
@[simp] theorem loadTxa_info (f : List Byte) : (loadTxa f s).info = s.info := rfl
@[simp] theorem loadTxa_result (f : List Byte) : (loadTxa f s).result = s.result := rfl
@[simp] theorem loadTxa_response (f : List Byte) : (loadTxa f s).response = s.response := rfl
@[simp] theorem loadTxa_txa (f : List Byte) : (loadTxa f s).txa = cellsOf f := rfl
@[simp] theorem loadTxa_txaValid (f : List Byte) : (loadTxa f s).txaValid = true := rfl
@[simp] theorem loadTxa_rxa (f : List Byte) : (loadTxa f s).rxa = s.rxa := rfl
@[simp] theorem loadTxa_rxaCount (f : List Byte) : (loadTxa f s).rxaCount = s.rxaCount := rfl
@[simp] theorem loadTxa_txb (f : List Byte) : (loadTxa f s).txb = s.txb := rfl
@[simp] theorem loadTxa_txbLen (f : List Byte) : (loadTxa f s).txbLen = s.txbLen := rfl
@[simp] theorem loadTxa_txbValid (f : List Byte) : (loadTxa f s).txbValid = s.txbValid := rfl
@[simp] theorem loadTxa_rxb (f : List Byte) : (loadTxa f s).rxb = s.rxb := rfl
@[simp] theorem loadTxa_rxbCount (f : List Byte) : (loadTxa f s).rxbCount = s.rxbCount := rfl
@[simp] theorem loadTxa_armL1 (f : List Byte) : (loadTxa f s).armL1 = s.armL1 := rfl
@[simp] theorem loadTxa_armL2 (f : List Byte) : (loadTxa f s).armL2 = s.armL2 := rfl
@[simp] theorem loadTxa_armL3 (f : List Byte) : (loadTxa f s).armL3 = s.armL3 := rfl
@[simp] theorem loadTxa_armL4 (f : List Byte) : (loadTxa f s).armL4 = s.armL4 := rfl
@[simp] theorem loadTxa_armValid (f : List Byte) : (loadTxa f s).armValid = s.armValid := rfl
@[simp] theorem loadTxa_pz (f : List Byte) : (loadTxa f s).pz = s.pz := rfl
@[simp] theorem loadTxa_outstanding (f : List Byte) : (loadTxa f s).outstanding = s.outstanding := rfl
@[simp] theorem loadTxa_faults (f : List Byte) : (loadTxa f s).faults = s.faults := rfl
@[simp] theorem loadTxa_refused (f : List Byte) : (loadTxa f s).refused = s.refused := rfl

@[simp] theorem dropTxa_params : (dropTxa s).params = s.params := rfl
@[simp] theorem dropTxa_requests : (dropTxa s).requests = s.requests := rfl
@[simp] theorem dropTxa_status : (dropTxa s).status = s.status := rfl
@[simp] theorem dropTxa_info : (dropTxa s).info = s.info := rfl
@[simp] theorem dropTxa_result : (dropTxa s).result = s.result := rfl
@[simp] theorem dropTxa_response : (dropTxa s).response = s.response := rfl
@[simp] theorem dropTxa_txa : (dropTxa s).txa = s.txa := rfl
@[simp] theorem dropTxa_txaValid : (dropTxa s).txaValid = false := rfl
@[simp] theorem dropTxa_rxa : (dropTxa s).rxa = s.rxa := rfl
@[simp] theorem dropTxa_rxaCount : (dropTxa s).rxaCount = s.rxaCount := rfl
@[simp] theorem dropTxa_txb : (dropTxa s).txb = s.txb := rfl
@[simp] theorem dropTxa_txbLen : (dropTxa s).txbLen = s.txbLen := rfl
@[simp] theorem dropTxa_txbValid : (dropTxa s).txbValid = s.txbValid := rfl
@[simp] theorem dropTxa_rxb : (dropTxa s).rxb = s.rxb := rfl
@[simp] theorem dropTxa_rxbCount : (dropTxa s).rxbCount = s.rxbCount := rfl
@[simp] theorem dropTxa_armL1 : (dropTxa s).armL1 = s.armL1 := rfl
@[simp] theorem dropTxa_armL2 : (dropTxa s).armL2 = s.armL2 := rfl
@[simp] theorem dropTxa_armL3 : (dropTxa s).armL3 = s.armL3 := rfl
@[simp] theorem dropTxa_armL4 : (dropTxa s).armL4 = s.armL4 := rfl
@[simp] theorem dropTxa_armValid : (dropTxa s).armValid = s.armValid := rfl
@[simp] theorem dropTxa_pz : (dropTxa s).pz = s.pz := rfl
@[simp] theorem dropTxa_outstanding : (dropTxa s).outstanding = s.outstanding := rfl
@[simp] theorem dropTxa_faults : (dropTxa s).faults = s.faults := rfl
@[simp] theorem dropTxa_refused : (dropTxa s).refused = s.refused := rfl

@[simp] theorem loadTxb_params (f : List Byte) : (loadTxb f s).params = s.params := rfl
@[simp] theorem loadTxb_requests (f : List Byte) : (loadTxb f s).requests = s.requests := rfl
@[simp] theorem loadTxb_status (f : List Byte) : (loadTxb f s).status = s.status := rfl
@[simp] theorem loadTxb_info (f : List Byte) : (loadTxb f s).info = s.info := rfl
@[simp] theorem loadTxb_result (f : List Byte) : (loadTxb f s).result = s.result := rfl
@[simp] theorem loadTxb_response (f : List Byte) : (loadTxb f s).response = s.response := rfl
@[simp] theorem loadTxb_txa (f : List Byte) : (loadTxb f s).txa = s.txa := rfl
@[simp] theorem loadTxb_txaValid (f : List Byte) : (loadTxb f s).txaValid = s.txaValid := rfl
@[simp] theorem loadTxb_rxa (f : List Byte) : (loadTxb f s).rxa = s.rxa := rfl
@[simp] theorem loadTxb_rxaCount (f : List Byte) : (loadTxb f s).rxaCount = s.rxaCount := rfl
@[simp] theorem loadTxb_txb (f : List Byte) : (loadTxb f s).txb = cellsOf f := rfl
@[simp] theorem loadTxb_txbLen (f : List Byte) : (loadTxb f s).txbLen = countHalf f.length := rfl
@[simp] theorem loadTxb_txbValid (f : List Byte) : (loadTxb f s).txbValid = true := rfl
@[simp] theorem loadTxb_rxb (f : List Byte) : (loadTxb f s).rxb = s.rxb := rfl
@[simp] theorem loadTxb_rxbCount (f : List Byte) : (loadTxb f s).rxbCount = s.rxbCount := rfl
@[simp] theorem loadTxb_armL1 (f : List Byte) : (loadTxb f s).armL1 = s.armL1 := rfl
@[simp] theorem loadTxb_armL2 (f : List Byte) : (loadTxb f s).armL2 = s.armL2 := rfl
@[simp] theorem loadTxb_armL3 (f : List Byte) : (loadTxb f s).armL3 = s.armL3 := rfl
@[simp] theorem loadTxb_armL4 (f : List Byte) : (loadTxb f s).armL4 = s.armL4 := rfl
@[simp] theorem loadTxb_armValid (f : List Byte) : (loadTxb f s).armValid = s.armValid := rfl
@[simp] theorem loadTxb_pz (f : List Byte) : (loadTxb f s).pz = s.pz := rfl
@[simp] theorem loadTxb_outstanding (f : List Byte) : (loadTxb f s).outstanding = s.outstanding := rfl
@[simp] theorem loadTxb_faults (f : List Byte) : (loadTxb f s).faults = s.faults := rfl
@[simp] theorem loadTxb_refused (f : List Byte) : (loadTxb f s).refused = s.refused := rfl

@[simp] theorem dropTxb_params : (dropTxb s).params = s.params := rfl
@[simp] theorem dropTxb_requests : (dropTxb s).requests = s.requests := rfl
@[simp] theorem dropTxb_status : (dropTxb s).status = s.status := rfl
@[simp] theorem dropTxb_info : (dropTxb s).info = s.info := rfl
@[simp] theorem dropTxb_result : (dropTxb s).result = s.result := rfl
@[simp] theorem dropTxb_response : (dropTxb s).response = s.response := rfl
@[simp] theorem dropTxb_txa : (dropTxb s).txa = s.txa := rfl
@[simp] theorem dropTxb_txaValid : (dropTxb s).txaValid = s.txaValid := rfl
@[simp] theorem dropTxb_rxa : (dropTxb s).rxa = s.rxa := rfl
@[simp] theorem dropTxb_rxaCount : (dropTxb s).rxaCount = s.rxaCount := rfl
@[simp] theorem dropTxb_txb : (dropTxb s).txb = s.txb := rfl
@[simp] theorem dropTxb_txbLen : (dropTxb s).txbLen = s.txbLen := rfl
@[simp] theorem dropTxb_txbValid : (dropTxb s).txbValid = false := rfl
@[simp] theorem dropTxb_rxb : (dropTxb s).rxb = s.rxb := rfl
@[simp] theorem dropTxb_rxbCount : (dropTxb s).rxbCount = s.rxbCount := rfl
@[simp] theorem dropTxb_armL1 : (dropTxb s).armL1 = s.armL1 := rfl
@[simp] theorem dropTxb_armL2 : (dropTxb s).armL2 = s.armL2 := rfl
@[simp] theorem dropTxb_armL3 : (dropTxb s).armL3 = s.armL3 := rfl
@[simp] theorem dropTxb_armL4 : (dropTxb s).armL4 = s.armL4 := rfl
@[simp] theorem dropTxb_armValid : (dropTxb s).armValid = s.armValid := rfl
@[simp] theorem dropTxb_pz : (dropTxb s).pz = s.pz := rfl
@[simp] theorem dropTxb_outstanding : (dropTxb s).outstanding = s.outstanding := rfl
@[simp] theorem dropTxb_faults : (dropTxb s).faults = s.faults := rfl
@[simp] theorem dropTxb_refused : (dropTxb s).refused = s.refused := rfl

@[simp] theorem loadRxa_params (b : List Byte) : (loadRxa b s).params = s.params := rfl
@[simp] theorem loadRxa_requests (b : List Byte) : (loadRxa b s).requests = s.requests := rfl
@[simp] theorem loadRxa_status (b : List Byte) : (loadRxa b s).status = s.status := rfl
@[simp] theorem loadRxa_info (b : List Byte) : (loadRxa b s).info = s.info := rfl
@[simp] theorem loadRxa_result (b : List Byte) : (loadRxa b s).result = s.result := rfl
@[simp] theorem loadRxa_response (b : List Byte) : (loadRxa b s).response = s.response := rfl
@[simp] theorem loadRxa_txa (b : List Byte) : (loadRxa b s).txa = s.txa := rfl
@[simp] theorem loadRxa_txaValid (b : List Byte) : (loadRxa b s).txaValid = s.txaValid := rfl
@[simp] theorem loadRxa_rxa (b : List Byte) : (loadRxa b s).rxa = cellsOf b := rfl
@[simp] theorem loadRxa_rxaCount (b : List Byte) : (loadRxa b s).rxaCount = countByte b.length := rfl
@[simp] theorem loadRxa_txb (b : List Byte) : (loadRxa b s).txb = s.txb := rfl
@[simp] theorem loadRxa_txbLen (b : List Byte) : (loadRxa b s).txbLen = s.txbLen := rfl
@[simp] theorem loadRxa_txbValid (b : List Byte) : (loadRxa b s).txbValid = s.txbValid := rfl
@[simp] theorem loadRxa_rxb (b : List Byte) : (loadRxa b s).rxb = s.rxb := rfl
@[simp] theorem loadRxa_rxbCount (b : List Byte) : (loadRxa b s).rxbCount = s.rxbCount := rfl
@[simp] theorem loadRxa_armL1 (b : List Byte) : (loadRxa b s).armL1 = s.armL1 := rfl
@[simp] theorem loadRxa_armL2 (b : List Byte) : (loadRxa b s).armL2 = s.armL2 := rfl
@[simp] theorem loadRxa_armL3 (b : List Byte) : (loadRxa b s).armL3 = s.armL3 := rfl
@[simp] theorem loadRxa_armL4 (b : List Byte) : (loadRxa b s).armL4 = s.armL4 := rfl
@[simp] theorem loadRxa_armValid (b : List Byte) : (loadRxa b s).armValid = s.armValid := rfl
@[simp] theorem loadRxa_pz (b : List Byte) : (loadRxa b s).pz = s.pz := rfl
@[simp] theorem loadRxa_outstanding (b : List Byte) : (loadRxa b s).outstanding = s.outstanding := rfl
@[simp] theorem loadRxa_faults (b : List Byte) : (loadRxa b s).faults = s.faults := rfl
@[simp] theorem loadRxa_refused (b : List Byte) : (loadRxa b s).refused = s.refused := rfl

@[simp] theorem loadRxb_params (b : List Byte) : (loadRxb b s).params = s.params := rfl
@[simp] theorem loadRxb_requests (b : List Byte) : (loadRxb b s).requests = s.requests := rfl
@[simp] theorem loadRxb_status (b : List Byte) : (loadRxb b s).status = s.status := rfl
@[simp] theorem loadRxb_info (b : List Byte) : (loadRxb b s).info = s.info := rfl
@[simp] theorem loadRxb_result (b : List Byte) : (loadRxb b s).result = s.result := rfl
@[simp] theorem loadRxb_response (b : List Byte) : (loadRxb b s).response = s.response := rfl
@[simp] theorem loadRxb_txa (b : List Byte) : (loadRxb b s).txa = s.txa := rfl
@[simp] theorem loadRxb_txaValid (b : List Byte) : (loadRxb b s).txaValid = s.txaValid := rfl
@[simp] theorem loadRxb_rxa (b : List Byte) : (loadRxb b s).rxa = s.rxa := rfl
@[simp] theorem loadRxb_rxaCount (b : List Byte) : (loadRxb b s).rxaCount = s.rxaCount := rfl
@[simp] theorem loadRxb_txb (b : List Byte) : (loadRxb b s).txb = s.txb := rfl
@[simp] theorem loadRxb_txbLen (b : List Byte) : (loadRxb b s).txbLen = s.txbLen := rfl
@[simp] theorem loadRxb_txbValid (b : List Byte) : (loadRxb b s).txbValid = s.txbValid := rfl
@[simp] theorem loadRxb_rxb (b : List Byte) : (loadRxb b s).rxb = cellsOf b := rfl
@[simp] theorem loadRxb_rxbCount (b : List Byte) : (loadRxb b s).rxbCount = countHalf b.length := rfl
@[simp] theorem loadRxb_armL1 (b : List Byte) : (loadRxb b s).armL1 = s.armL1 := rfl
@[simp] theorem loadRxb_armL2 (b : List Byte) : (loadRxb b s).armL2 = s.armL2 := rfl
@[simp] theorem loadRxb_armL3 (b : List Byte) : (loadRxb b s).armL3 = s.armL3 := rfl
@[simp] theorem loadRxb_armL4 (b : List Byte) : (loadRxb b s).armL4 = s.armL4 := rfl
@[simp] theorem loadRxb_armValid (b : List Byte) : (loadRxb b s).armValid = s.armValid := rfl
@[simp] theorem loadRxb_pz (b : List Byte) : (loadRxb b s).pz = s.pz := rfl
@[simp] theorem loadRxb_outstanding (b : List Byte) : (loadRxb b s).outstanding = s.outstanding := rfl
@[simp] theorem loadRxb_faults (b : List Byte) : (loadRxb b s).faults = s.faults := rfl
@[simp] theorem loadRxb_refused (b : List Byte) : (loadRxb b s).refused = s.refused := rfl

@[simp] theorem setOutstanding_params (o : Option Pending) : (setOutstanding o s).params = s.params := rfl
@[simp] theorem setOutstanding_requests (o : Option Pending) : (setOutstanding o s).requests = s.requests := rfl
@[simp] theorem setOutstanding_status (o : Option Pending) : (setOutstanding o s).status = s.status := rfl
@[simp] theorem setOutstanding_info (o : Option Pending) : (setOutstanding o s).info = s.info := rfl
@[simp] theorem setOutstanding_result (o : Option Pending) : (setOutstanding o s).result = s.result := rfl
@[simp] theorem setOutstanding_response (o : Option Pending) : (setOutstanding o s).response = s.response := rfl
@[simp] theorem setOutstanding_txa (o : Option Pending) : (setOutstanding o s).txa = s.txa := rfl
@[simp] theorem setOutstanding_txaValid (o : Option Pending) : (setOutstanding o s).txaValid = s.txaValid := rfl
@[simp] theorem setOutstanding_rxa (o : Option Pending) : (setOutstanding o s).rxa = s.rxa := rfl
@[simp] theorem setOutstanding_rxaCount (o : Option Pending) : (setOutstanding o s).rxaCount = s.rxaCount := rfl
@[simp] theorem setOutstanding_txb (o : Option Pending) : (setOutstanding o s).txb = s.txb := rfl
@[simp] theorem setOutstanding_txbLen (o : Option Pending) : (setOutstanding o s).txbLen = s.txbLen := rfl
@[simp] theorem setOutstanding_txbValid (o : Option Pending) : (setOutstanding o s).txbValid = s.txbValid := rfl
@[simp] theorem setOutstanding_rxb (o : Option Pending) : (setOutstanding o s).rxb = s.rxb := rfl
@[simp] theorem setOutstanding_rxbCount (o : Option Pending) : (setOutstanding o s).rxbCount = s.rxbCount := rfl
@[simp] theorem setOutstanding_armL1 (o : Option Pending) : (setOutstanding o s).armL1 = s.armL1 := rfl
@[simp] theorem setOutstanding_armL2 (o : Option Pending) : (setOutstanding o s).armL2 = s.armL2 := rfl
@[simp] theorem setOutstanding_armL3 (o : Option Pending) : (setOutstanding o s).armL3 = s.armL3 := rfl
@[simp] theorem setOutstanding_armL4 (o : Option Pending) : (setOutstanding o s).armL4 = s.armL4 := rfl
@[simp] theorem setOutstanding_armValid (o : Option Pending) : (setOutstanding o s).armValid = s.armValid := rfl
@[simp] theorem setOutstanding_pz (o : Option Pending) : (setOutstanding o s).pz = s.pz := rfl
@[simp] theorem setOutstanding_outstanding (o : Option Pending) : (setOutstanding o s).outstanding = o := rfl
@[simp] theorem setOutstanding_faults (o : Option Pending) : (setOutstanding o s).faults = s.faults := rfl
@[simp] theorem setOutstanding_refused (o : Option Pending) : (setOutstanding o s).refused = s.refused := rfl

@[simp] theorem loadArm_params (l1 l2 l3 l4 : F64) (h : List F64) : (loadArm l1 l2 l3 l4 h s).params = s.params := rfl
@[simp] theorem loadArm_requests (l1 l2 l3 l4 : F64) (h : List F64) : (loadArm l1 l2 l3 l4 h s).requests = s.requests := rfl
@[simp] theorem loadArm_status (l1 l2 l3 l4 : F64) (h : List F64) : (loadArm l1 l2 l3 l4 h s).status = s.status := rfl
@[simp] theorem loadArm_info (l1 l2 l3 l4 : F64) (h : List F64) : (loadArm l1 l2 l3 l4 h s).info = s.info := rfl
@[simp] theorem loadArm_result (l1 l2 l3 l4 : F64) (h : List F64) : (loadArm l1 l2 l3 l4 h s).result = s.result := rfl
@[simp] theorem loadArm_response (l1 l2 l3 l4 : F64) (h : List F64) : (loadArm l1 l2 l3 l4 h s).response = s.response := rfl
@[simp] theorem loadArm_txa (l1 l2 l3 l4 : F64) (h : List F64) : (loadArm l1 l2 l3 l4 h s).txa = s.txa := rfl
@[simp] theorem loadArm_txaValid (l1 l2 l3 l4 : F64) (h : List F64) : (loadArm l1 l2 l3 l4 h s).txaValid = s.txaValid := rfl
@[simp] theorem loadArm_rxa (l1 l2 l3 l4 : F64) (h : List F64) : (loadArm l1 l2 l3 l4 h s).rxa = s.rxa := rfl
@[simp] theorem loadArm_rxaCount (l1 l2 l3 l4 : F64) (h : List F64) : (loadArm l1 l2 l3 l4 h s).rxaCount = s.rxaCount := rfl
@[simp] theorem loadArm_txb (l1 l2 l3 l4 : F64) (h : List F64) : (loadArm l1 l2 l3 l4 h s).txb = s.txb := rfl
@[simp] theorem loadArm_txbLen (l1 l2 l3 l4 : F64) (h : List F64) : (loadArm l1 l2 l3 l4 h s).txbLen = s.txbLen := rfl
@[simp] theorem loadArm_txbValid (l1 l2 l3 l4 : F64) (h : List F64) : (loadArm l1 l2 l3 l4 h s).txbValid = s.txbValid := rfl
@[simp] theorem loadArm_rxb (l1 l2 l3 l4 : F64) (h : List F64) : (loadArm l1 l2 l3 l4 h s).rxb = s.rxb := rfl
@[simp] theorem loadArm_rxbCount (l1 l2 l3 l4 : F64) (h : List F64) : (loadArm l1 l2 l3 l4 h s).rxbCount = s.rxbCount := rfl
@[simp] theorem loadArm_armL1 (l1 l2 l3 l4 : F64) (h : List F64) : (loadArm l1 l2 l3 l4 h s).armL1 = some l1 := rfl
@[simp] theorem loadArm_armL2 (l1 l2 l3 l4 : F64) (h : List F64) : (loadArm l1 l2 l3 l4 h s).armL2 = some l2 := rfl
@[simp] theorem loadArm_armL3 (l1 l2 l3 l4 : F64) (h : List F64) : (loadArm l1 l2 l3 l4 h s).armL3 = some l3 := rfl
@[simp] theorem loadArm_armL4 (l1 l2 l3 l4 : F64) (h : List F64) : (loadArm l1 l2 l3 l4 h s).armL4 = some l4 := rfl
@[simp] theorem loadArm_armValid (l1 l2 l3 l4 : F64) (h : List F64) : (loadArm l1 l2 l3 l4 h s).armValid = true := rfl
@[simp] theorem loadArm_pz (l1 l2 l3 l4 : F64) (h : List F64) : (loadArm l1 l2 l3 l4 h s).pz = cellsOf h := rfl
@[simp] theorem loadArm_outstanding (l1 l2 l3 l4 : F64) (h : List F64) : (loadArm l1 l2 l3 l4 h s).outstanding = s.outstanding := rfl
@[simp] theorem loadArm_faults (l1 l2 l3 l4 : F64) (h : List F64) : (loadArm l1 l2 l3 l4 h s).faults = s.faults := rfl
@[simp] theorem loadArm_refused (l1 l2 l3 l4 : F64) (h : List F64) : (loadArm l1 l2 l3 l4 h s).refused = s.refused := rfl

@[simp] theorem respond_params (st : Byte) (inf : Info) (r : Result) : (respond st inf r s).params = s.params := rfl
@[simp] theorem respond_requests (st : Byte) (inf : Info) (r : Result) : (respond st inf r s).requests = s.requests := rfl
@[simp] theorem respond_status (st : Byte) (inf : Info) (r : Result) : (respond st inf r s).status = st := rfl
@[simp] theorem respond_info (st : Byte) (inf : Info) (r : Result) : (respond st inf r s).info = inf := rfl
@[simp] theorem respond_result (st : Byte) (inf : Info) (r : Result) : (respond st inf r s).result = r := rfl
@[simp] theorem respond_response (st : Byte) (inf : Info) (r : Result) : (respond st inf r s).response = { status := st, info := inf, result := r } := rfl
@[simp] theorem respond_txa (st : Byte) (inf : Info) (r : Result) : (respond st inf r s).txa = s.txa := rfl
@[simp] theorem respond_txaValid (st : Byte) (inf : Info) (r : Result) : (respond st inf r s).txaValid = s.txaValid := rfl
@[simp] theorem respond_rxa (st : Byte) (inf : Info) (r : Result) : (respond st inf r s).rxa = s.rxa := rfl
@[simp] theorem respond_rxaCount (st : Byte) (inf : Info) (r : Result) : (respond st inf r s).rxaCount = s.rxaCount := rfl
@[simp] theorem respond_txb (st : Byte) (inf : Info) (r : Result) : (respond st inf r s).txb = s.txb := rfl
@[simp] theorem respond_txbLen (st : Byte) (inf : Info) (r : Result) : (respond st inf r s).txbLen = s.txbLen := rfl
@[simp] theorem respond_txbValid (st : Byte) (inf : Info) (r : Result) : (respond st inf r s).txbValid = s.txbValid := rfl
@[simp] theorem respond_rxb (st : Byte) (inf : Info) (r : Result) : (respond st inf r s).rxb = s.rxb := rfl
@[simp] theorem respond_rxbCount (st : Byte) (inf : Info) (r : Result) : (respond st inf r s).rxbCount = s.rxbCount := rfl
@[simp] theorem respond_armL1 (st : Byte) (inf : Info) (r : Result) : (respond st inf r s).armL1 = s.armL1 := rfl
@[simp] theorem respond_armL2 (st : Byte) (inf : Info) (r : Result) : (respond st inf r s).armL2 = s.armL2 := rfl
@[simp] theorem respond_armL3 (st : Byte) (inf : Info) (r : Result) : (respond st inf r s).armL3 = s.armL3 := rfl
@[simp] theorem respond_armL4 (st : Byte) (inf : Info) (r : Result) : (respond st inf r s).armL4 = s.armL4 := rfl
@[simp] theorem respond_armValid (st : Byte) (inf : Info) (r : Result) : (respond st inf r s).armValid = s.armValid := rfl
@[simp] theorem respond_pz (st : Byte) (inf : Info) (r : Result) : (respond st inf r s).pz = s.pz := rfl
@[simp] theorem respond_outstanding (st : Byte) (inf : Info) (r : Result) : (respond st inf r s).outstanding = s.outstanding := rfl
@[simp] theorem respond_faults (st : Byte) (inf : Info) (r : Result) : (respond st inf r s).faults = s.faults := rfl
@[simp] theorem respond_refused (st : Byte) (inf : Info) (r : Result) : (respond st inf r s).refused = s.refused := rfl

@[simp] theorem addFault_params (n : FaultName) : (addFault n s).params = s.params := rfl
@[simp] theorem addFault_requests (n : FaultName) : (addFault n s).requests = s.requests := rfl
@[simp] theorem addFault_status (n : FaultName) : (addFault n s).status = s.status := rfl
@[simp] theorem addFault_info (n : FaultName) : (addFault n s).info = s.info := rfl
@[simp] theorem addFault_result (n : FaultName) : (addFault n s).result = s.result := rfl
@[simp] theorem addFault_response (n : FaultName) : (addFault n s).response = s.response := rfl
@[simp] theorem addFault_txa (n : FaultName) : (addFault n s).txa = s.txa := rfl
@[simp] theorem addFault_txaValid (n : FaultName) : (addFault n s).txaValid = s.txaValid := rfl
@[simp] theorem addFault_rxa (n : FaultName) : (addFault n s).rxa = s.rxa := rfl
@[simp] theorem addFault_rxaCount (n : FaultName) : (addFault n s).rxaCount = s.rxaCount := rfl
@[simp] theorem addFault_txb (n : FaultName) : (addFault n s).txb = s.txb := rfl
@[simp] theorem addFault_txbLen (n : FaultName) : (addFault n s).txbLen = s.txbLen := rfl
@[simp] theorem addFault_txbValid (n : FaultName) : (addFault n s).txbValid = s.txbValid := rfl
@[simp] theorem addFault_rxb (n : FaultName) : (addFault n s).rxb = s.rxb := rfl
@[simp] theorem addFault_rxbCount (n : FaultName) : (addFault n s).rxbCount = s.rxbCount := rfl
@[simp] theorem addFault_armL1 (n : FaultName) : (addFault n s).armL1 = s.armL1 := rfl
@[simp] theorem addFault_armL2 (n : FaultName) : (addFault n s).armL2 = s.armL2 := rfl
@[simp] theorem addFault_armL3 (n : FaultName) : (addFault n s).armL3 = s.armL3 := rfl
@[simp] theorem addFault_armL4 (n : FaultName) : (addFault n s).armL4 = s.armL4 := rfl
@[simp] theorem addFault_armValid (n : FaultName) : (addFault n s).armValid = s.armValid := rfl
@[simp] theorem addFault_pz (n : FaultName) : (addFault n s).pz = s.pz := rfl
@[simp] theorem addFault_outstanding (n : FaultName) : (addFault n s).outstanding = s.outstanding := rfl
@[simp] theorem addFault_faults (n : FaultName) : (addFault n s).faults = if n ∈ s.faults then s.faults else n :: s.faults := rfl
@[simp] theorem addFault_refused (n : FaultName) : (addFault n s).refused = s.refused := rfl

@[simp] theorem markRefused_params : (markRefused s).params = s.params := rfl
@[simp] theorem markRefused_requests : (markRefused s).requests = s.requests := rfl
@[simp] theorem markRefused_status : (markRefused s).status = s.status := rfl
@[simp] theorem markRefused_info : (markRefused s).info = s.info := rfl
@[simp] theorem markRefused_result : (markRefused s).result = s.result := rfl
@[simp] theorem markRefused_response : (markRefused s).response = s.response := rfl
@[simp] theorem markRefused_txa : (markRefused s).txa = s.txa := rfl
@[simp] theorem markRefused_txaValid : (markRefused s).txaValid = s.txaValid := rfl
@[simp] theorem markRefused_rxa : (markRefused s).rxa = s.rxa := rfl
@[simp] theorem markRefused_rxaCount : (markRefused s).rxaCount = s.rxaCount := rfl
@[simp] theorem markRefused_txb : (markRefused s).txb = s.txb := rfl
@[simp] theorem markRefused_txbLen : (markRefused s).txbLen = s.txbLen := rfl
@[simp] theorem markRefused_txbValid : (markRefused s).txbValid = s.txbValid := rfl
@[simp] theorem markRefused_rxb : (markRefused s).rxb = s.rxb := rfl
@[simp] theorem markRefused_rxbCount : (markRefused s).rxbCount = s.rxbCount := rfl
@[simp] theorem markRefused_armL1 : (markRefused s).armL1 = s.armL1 := rfl
@[simp] theorem markRefused_armL2 : (markRefused s).armL2 = s.armL2 := rfl
@[simp] theorem markRefused_armL3 : (markRefused s).armL3 = s.armL3 := rfl
@[simp] theorem markRefused_armL4 : (markRefused s).armL4 = s.armL4 := rfl
@[simp] theorem markRefused_armValid : (markRefused s).armValid = s.armValid := rfl
@[simp] theorem markRefused_pz : (markRefused s).pz = s.pz := rfl
@[simp] theorem markRefused_outstanding : (markRefused s).outstanding = s.outstanding := rfl
@[simp] theorem markRefused_faults : (markRefused s).faults = s.faults := rfl
@[simp] theorem markRefused_refused : (markRefused s).refused = true := rfl

end

end Sys2Proof.Machine
end

