-- ==== Sys2Proof/Laws/Ops.lean ====
section
/-! SUPPORT. What each shared operation can do, said once. -/

namespace Sys2Proof.Machine

/-- An encode while a reply is outstanding only latches the hazard (R100). -/
theorem encodePreamble_pending {s : State} (h : s.outstanding ≠ none) (body : Answer) :
    encodePreamble s body = .next (addFault .hazardOutstanding s) := by
  unfold encodePreamble
  cases ho : s.outstanding with
  | none => exact absurd ho h
  | some p => rfl

theorem encodePreamble_idle {s : State} (h : s.outstanding = none) (body : Answer) : encodePreamble s body = body := by
  simp [encodePreamble, h]

/-- Every answer of a unit A encode: the hazard, a raised outcome, or the frame. -/
theorem encodeA_cases (bad : Option Raise) (cmd : Byte) (p : List Byte) (reply : Bool) (s : State) :
    (s.outstanding ≠ none ∧ encodeA bad cmd p reply s = .next (addFault .hazardOutstanding s)) ∨
    (s.outstanding = none ∧ ∃ r, bad = some r ∧
      encodeA bad cmd p reply s = .next (respond (outcomeCode r.kind) r.info Result.unwritten (dropTxa s))) ∨
    (s.outstanding = none ∧ bad = none ∧
      encodeA bad cmd p reply s = .next (respond 0x00#8 Info.zero Result.unwritten
        (setOutstanding (if reply then some ⟨.a, cmd⟩ else none) (loadTxa (frameA cmd p) s)))) := by
  by_cases h : s.outstanding = none
  · cases bad with
    | some r => exact .inr (.inl ⟨h, r, rfl, by simp [encodeA, encodePreamble, h, raiseOutcome]⟩)
    | none => exact .inr (.inr ⟨h, rfl, by simp [encodeA, encodePreamble, h, complete, outcomeCode]⟩)
  · exact .inl ⟨h, encodePreamble_pending h _⟩

/-- Every answer of a unit B encode: the hazard, a raised outcome, or the frame. -/
theorem encodeB_cases (bad : Option Raise) (cmd id : Byte) (p : List Byte) (reply : Bool) (s : State) :
    (s.outstanding ≠ none ∧ encodeB bad cmd id p reply s = .next (addFault .hazardOutstanding s)) ∨
    (s.outstanding = none ∧ ∃ r, bad = some r ∧
      encodeB bad cmd id p reply s = .next (respond (outcomeCode r.kind) r.info Result.unwritten (dropTxb s))) ∨
    (s.outstanding = none ∧ bad = none ∧
      encodeB bad cmd id p reply s = .next (respond 0x00#8 Info.zero Result.unwritten
        (setOutstanding (if reply then some ⟨.b, cmd⟩ else none) (loadTxb (frameB cmd id p) s)))) := by
  by_cases h : s.outstanding = none
  · cases bad with
    | some r => exact .inr (.inl ⟨h, r, rfl, by simp [encodeB, encodePreamble, h, raiseOutcome]⟩)
    | none => exact .inr (.inr ⟨h, rfl, by simp [encodeB, encodePreamble, h, complete, outcomeCode]⟩)
  · exact .inl ⟨h, encodePreamble_pending h _⟩

/-- Every answer of an operation that ends through `finish`. -/
theorem finish_cases (f : State → State) (body : Except Stop Result) (s : State) :
    (∃ r, body = .ok r ∧ finish f body s = .next (respond 0x00#8 Info.zero r (f s))) ∨
    (∃ r, body = .error (.raise r) ∧
      finish f body s = .next (respond (outcomeCode r.kind) r.info Result.unwritten (f s))) ∨
    (∃ n, body = .error (.fault n) ∧ finish f body s = .next (addFault n (f s))) := by
  cases body with
  | ok r => exact .inl ⟨r, rfl, rfl⟩
  | error e =>
    cases e with
    | raise r => exact .inr (.inl ⟨r, rfl, rfl⟩)
    | fault n => exact .inr (.inr ⟨n, rfl, rfl⟩)

@[simp] theorem need_some {α : Type} (v : α) : need (some v) = .ok v := rfl

@[simp] theorem need_none {α : Type} : need (none : Option α) = .error (.fault .readUnwritten) := rfl

theorem need_eq_ok {α : Type} {o : Option α} {v : α} : need o = .ok v ↔ o = some v := by
  cases o <;> simp [need]

/-- `CheckA` passes exactly where R108 says a reply is valid, on cells that are written. -/
theorem checkA_eq_ok {m : Cells Byte} {count : Nat} {cmd : Byte} {elen : Nat} :
    checkA m count cmd elen = .ok () ↔
      4 + elen ≤ count ∧ cellRead m 0 = some Config.sig ∧ cellRead m 1 = some Config.sig ∧
        cellRead m 3 = some cmd := by
  unfold checkA mismatch
  by_cases h0 : count = 0
  · simp [h0]
  by_cases h4 : count < 4
  · simp [h0, h4]; omega
  simp only [h0, h4, if_false]
  cases hb0 : cellRead m 0 with
  | none => simp [bind, Except.bind]
  | some b0 =>
    cases hb1 : cellRead m 1 with
    | none => simp [bind, Except.bind]
    | some b1 =>
      by_cases hs : b0 ≠ Config.sig ∨ b1 ≠ Config.sig
      · simp [bind, Except.bind, hs]
        intro _ h1 h2; rcases hs with hs | hs
        · exact absurd h1 hs
        · exact absurd h2 hs
      · simp only [ne_eq, not_or, not_not] at hs
        obtain ⟨rfl, rfl⟩ := hs
        cases hb3 : cellRead m 3 with
        | none => simp [bind, Except.bind]
        | some b3 =>
          by_cases hc : b3 = cmd
          · by_cases he : count < 4 + elen
            · simp [bind, Except.bind, hc, he]
            · simp [bind, Except.bind, hc, he]; omega
          · simp [bind, Except.bind, hc]

/-! ### The operand checks with their bounds written out -/

theorem validateMove_eq (pos time : Half) : validateMove pos time =
    if 1000 < pos.toNat then some (outOfRange .position 0 1000)
    else if 30000 < time.toNat then some (outOfRange .time 0 30000) else none := rfl

theorem validateAngleLimit_eq (mn mx : Half) : validateAngleLimit mn mx =
    if 1000 < mn.toNat then some (outOfRange .minAngle 0 1000)
    else if 1000 < mx.toNat then some (outOfRange .maxAngle 0 1000)
    else if mx.toNat < mn.toNat then some (outOfRange .minAngle 0 mx.toNat) else none := rfl

theorem validateVin_eq (mn mx : Half) : validateVin mn mx =
    if mn.toNat < 4500 ∨ 12000 < mn.toNat then some (outOfRange .minVoltage 4500 12000)
    else if mx.toNat < 4500 ∨ 12000 < mx.toNat then some (outOfRange .maxVoltage 4500 12000) else none := rfl

theorem validateTemp_eq (t : Half) : validateTemp t =
    if t.toNat < 50 ∨ 100 < t.toNat then some (outOfRange .maxTemperature 50 100) else none := rfl

/-! ### Bodies that stop early -/

theorem bind_eq_ok {α β : Type} {x : Except Stop α} {f : α → Except Stop β} {b : β} :
    (x >>= f) = .ok b ↔ ∃ a, x = .ok a ∧ f a = .ok b := by
  cases x <;> simp [bind, Except.bind]

/-- The echoed ids pass when every one is the id sent (R110). -/
theorem checkEchoedIds_ok {m : Cells Byte} {off : Nat} {ids : List Byte}
    (h : ∀ k, k < ids.length → cellRead m (off + 3 * k) = ids[k]?) : checkEchoedIds m off ids = .ok () := by
  induction ids generalizing off with
  | nil => rfl
  | cons b ids ih =>
    have h0 := h 0 (by simp)
    simp at h0
    rw [checkEchoedIds, h0]
    simp only [need_some, bind, Except.bind, ne_eq, not_true, if_false]
    refine ih fun k hk => ?_
    have := h (k + 1) (by simpa using hk)
    rw [show off + 3 + 3 * k = off + 3 * (k + 1) by omega, this]; simp

/-- Written triples are all read, in order (R110). -/
theorem readTriples_ok {m : Cells Byte} {off n : Nat} (h : ∀ k, k < 3 * n → ∃ v, cellRead m (off + k) = some v) :
    ∃ qs, readTriples m off n = .ok qs ∧ qs.length = n ∧ ∀ k, k < n →
      cellRead m (off + 3 * k) = (qs[k]?).map ServoPos.id ∧
      ∀ b0 b1, cellRead m (off + 1 + 3 * k) = some b0 → cellRead m (off + 2 + 3 * k) = some b1 →
        (qs[k]?).map ServoPos.pos = some (le16 b0 b1) := by
  induction n generalizing off with
  | zero => exact ⟨[], rfl, rfl, by simp⟩
  | succ n ih =>
    obtain ⟨a, ha⟩ := h 0 (by omega)
    obtain ⟨b, hb⟩ := h 1 (by omega)
    obtain ⟨c, hc⟩ := h 2 (by omega)
    obtain ⟨qs, hq, hl, hr⟩ := ih (off := off + 3) fun k hk => by
      have := h (k + 3) (by omega)
      rwa [show off + 3 + k = off + (k + 3) by omega]
    refine ⟨⟨a, le16 b c⟩ :: qs, ?_, by simp [hl], ?_⟩
    · simp only [Nat.add_zero] at ha
      rw [readTriples, ha, hb, hc, hq]; rfl
    · intro k hk
      cases k with
      | zero =>
        simp only [Nat.add_zero] at ha
        simp only [Nat.mul_zero, Nat.add_zero, List.getElem?_cons_zero, Option.map_some]
        refine ⟨ha, fun b0 b1 h0 h1 => ?_⟩
        rw [hb] at h0; rw [hc] at h1; cases h0; cases h1; rfl
      | succ k =>
        have := hr k (by omega)
        rw [show off + 3 + 3 * k = off + 3 * (k + 1) by omega,
          show off + 3 + 1 + 3 * k = off + 1 + 3 * (k + 1) by omega,
          show off + 3 + 2 + 3 * k = off + 2 + 3 * (k + 1) by omega] at this
        simpa using this

/-- The scan of R185 over written entries answers the first index that reaches `z`, or 127. -/
theorem scanHeights_ok {m : Cells F64} {h : Nat → F64} {z : F64} {i n : Nat}
    (hm : ∀ j, j < i + n → cellRead m j = some (h j)) :
    ∃ k, scanHeights m z i n = .ok k ∧
      ((i ≤ k ∧ k < i + n ∧ f64Le z (h k) = true ∧ ∀ j, i ≤ j → j < k → f64Le z (h j) = false) ∨
        (k = 127 ∧ ∀ j, i ≤ j → j < i + n → f64Le z (h j) = false)) := by
  induction n generalizing i with
  | zero => exact ⟨127, rfl, .inr ⟨rfl, by omega⟩⟩
  | succ n ih =>
    have h0 := hm i (by omega)
    by_cases hle : f64Le z (h i) = true
    · refine ⟨i, ?_, .inl ⟨by omega, by omega, hle, by omega⟩⟩
      simp only [scanHeights, h0, need_some, bind, Except.bind, hle, if_true]
    · obtain ⟨k, hk, hr⟩ := ih (i := i + 1) fun j hj => hm j (by omega)
      have hle' : f64Le z (h i) = false := by simpa using hle
      refine ⟨k, ?_, ?_⟩
      · simp only [scanHeights, h0, need_some, bind, Except.bind, hle', Bool.false_eq_true, if_false, hk]
      have hsplit : ∀ j, i ≤ j → j = i ∨ i + 1 ≤ j := fun j hj => by omega
      rcases hr with ⟨h1, h2, h3, h4⟩ | ⟨h1, h2⟩
      · refine .inl ⟨by omega, by omega, h3, fun j hj hjk => ?_⟩
        rcases hsplit j hj with rfl | hj
        · exact hle'
        · exact h4 j hj hjk
      · refine .inr ⟨h1, fun j hj hjk => ?_⟩
        rcases hsplit j hj with rfl | hj
        · exact hle'
        · exact h2 j hj (by omega)

end Sys2Proof.Machine
end

