-- ==== Sys2Proof/Laws/Exec.lean ====
section
/-! SUPPORT. What each kind of operation can do, said once: the shape of `exec` by `opKind`, and what a check can raise. -/

namespace Sys2Proof.Machine

/-- What an outcome other than `OK` can record (R220 to R222): a `BadRequest` its reason, a `ParameterOutOfRange` its
argument and bound, a decode failure nothing. -/
def RaiseOk (r : Raise) : Prop :=
  (∃ x, r = badRequest x) ∨ (∃ a lo hi, r = outOfRange a lo hi) ∨
    ∃ k, r = plainRaise k ∧ k ≠ .ok ∧ k ≠ .parameterOutOfRange ∧ k ≠ .transportError ∧ k ≠ .badRequest

theorem raiseOk_badRequest (x : Reason) : RaiseOk (badRequest x) := .inl ⟨x, rfl⟩

theorem checkCount_ok {most n : Nat} {r : Raise} (h : checkCount most n = some r) : RaiseOk r := by
  unfold checkCount at h
  split at h
  · cases h; exact .inl ⟨_, rfl⟩
  · cases h

theorem checkCount_none {most n : Nat} : checkCount most n = none ↔ 1 ≤ n ∧ n ≤ most := by
  unfold checkCount
  split <;> simp <;> omega

theorem validateMove_ok {a b : Half} {r : Raise} (h : validateMove a b = some r) : RaiseOk r := by
  unfold validateMove at h
  repeat' split at h
  all_goals first | (cases h; exact .inr (.inl ⟨_, _, _, rfl⟩)) | cases h

theorem validateAngleLimit_ok {a b : Half} {r : Raise} (h : validateAngleLimit a b = some r) : RaiseOk r := by
  unfold validateAngleLimit at h
  repeat' split at h
  all_goals first | (cases h; exact .inr (.inl ⟨_, _, _, rfl⟩)) | cases h

theorem validateVin_ok {a b : Half} {r : Raise} (h : validateVin a b = some r) : RaiseOk r := by
  unfold validateVin at h
  repeat' split at h
  all_goals first | (cases h; exact .inr (.inl ⟨_, _, _, rfl⟩)) | cases h

theorem validateTemp_ok {t : Half} {r : Raise} (h : validateTemp t = some r) : RaiseOk r := by
  unfold validateTemp at h
  repeat' split at h
  all_goals first | (cases h; exact .inr (.inl ⟨_, _, _, rfl⟩)) | cases h

theorem validatePayload_ok {b : Config.Bounds} {p : List Byte} {r : Raise} (h : validatePayload b p = some r) :
    RaiseOk r := by
  unfold validatePayload at h
  split at h
  · exact validateMove_ok h
  · exact validateAngleLimit_ok h
  · exact validateVin_ok h
  · exact validateTemp_ok h
  · cases h

theorem checkCommandB_ok {c : Config.Commands} {cmd : Byte} {p : List Byte} {r : Raise}
    (h : checkCommandB c cmd p = some r) : RaiseOk r := by
  unfold checkCommandB at h
  split at h
  · cases h; exact .inl ⟨_, rfl⟩
  · split at h
    · cases h
    · split at h
      · cases h
      · split at h
        · cases h; exact .inl ⟨_, rfl⟩
        · exact validatePayload_ok h

/-- What `B.ENC` checks of a payload that fits a frame (R143). -/
theorem checkCommandB_of_length {c : Config.Commands} {cmd : Byte} {p : List Byte} (h : p.length ≤ 252) :
    checkCommandB c cmd p =
      match rowOf c cmd with
      | none => none
      | some r =>
        if r.bounds = .unbounded then none
        else if p.length ≠ r.preq then some (badRequest .payloadLengthMismatch)
        else validatePayload r.bounds p :=
  if_neg (by simpa [Config.payloadMaxB] using h)

theorem checkCommandB_none_length {c : Config.Commands} {cmd : Byte} {p : List Byte} (h : checkCommandB c cmd p = none) :
    p.length ≤ 252 := by
  unfold checkCommandB at h
  split at h
  · cases h
  · rename_i h'; simpa [Config.payloadMaxB] using h'

/-- Every unit A encode is `BuildA` behind the preamble and a check of its operands (R100 to R106); of the state it reads
the configuration and `OUTSTANDING`. -/
theorem exec_encodeA {i : Instr} (h : opKind i = .encodeA) (q : Config.Params) :
    ∃ bad cmd p reply, (∀ s : State, s.params = q → exec i s = encodeA bad cmd p reply s) ∧
      (bad = none → p.length ≤ 60) ∧ ∀ r, bad = some r → RaiseOk r := by
  have hc : ∀ {most n : Nat} {p : List Byte}, (checkCount most n = none → p.length ≤ 60) →
      (checkCount most n = none → p.length ≤ 60) ∧ ∀ r, checkCount most n = some r → RaiseOk r :=
    fun h => ⟨h, fun _ => checkCount_ok⟩
  have hs : ∀ (dur : Half) (pairs : List ServoPos), checkCount Config.posCountMax pairs.length = none →
      (setposPayload dur pairs).length ≤ 60 := by
    intro dur pairs h
    rw [checkCount_none, Config.posCountMax] at h
    rw [setposPayload_length]; omega
  have hi : ∀ (most : Nat) (ids : List Byte), most ≤ 59 → checkCount most ids.length = none →
      (idsPayload ids).length ≤ 60 := by
    intro most ids hm h
    rw [checkCount_none] at h
    rw [idsPayload_length]; omega
  cases i <;> simp only [opKind, reduceCtorEq] at h
  case aEnc cmd resp p =>
    refine ⟨_, cmd, p, resp, fun _ _ => rfl, fun h => ?_, fun r h => ?_⟩
    · split at h
      · cases h
      · rename_i h'; simpa [Config.payloadMaxA] using h'
    · split at h
      · cases h; exact raiseOk_badRequest _
      · cases h
  case aSetpos dur pairs => exact ⟨_, _, _, _, fun _ _ => rfl, hc (hs dur pairs)⟩
  case aGetpos ids => exact ⟨_, q.commands.getpos, _, _, fun s e => by subst e; rfl, hc (hi _ ids (by decide))⟩
  case aStop ids => exact ⟨_, q.commands.stop, _, _, fun s e => by subst e; rfl, hc (hi _ ids (by decide))⟩
  case aBatt => exact ⟨none, q.commands.batt, [], true, fun s e => by subst e; rfl, by simp, by simp⟩
  case cmdASetpos dur pairs => exact ⟨_, _, _, _, fun _ _ => rfl, hc (hs dur pairs)⟩
  case cmdAGetpos ids => exact ⟨_, q.commands.getpos, _, _, fun s e => by subst e; rfl, hc (hi _ ids (by decide))⟩
  case cmdAStop ids => exact ⟨_, q.commands.stop, _, _, fun s e => by subst e; rfl, hc (hi _ ids (by decide))⟩
  case cmdABatt => exact ⟨none, q.commands.batt, [], true, fun s e => by subst e; rfl, by simp, by simp⟩

/-- What a unit B encode is, for the configuration `q`. -/
def IsEncodeB (q : Config.Params) (f : State → Answer) : Prop :=
  ∃ bad cmd id p reply, (∀ s : State, s.params = q → f s = encodeB bad cmd id p reply s) ∧
    (bad = none → p.length ≤ 252) ∧ ∀ r, bad = some r → RaiseOk r

theorem isEncodeB_command (q : Config.Params) (cmd id : Byte) (resp : Bool) (p : List Byte) :
    IsEncodeB q (encodeCommandB cmd id resp p) :=
  ⟨checkCommandB q.commands cmd p, cmd, id, p, expectsReplyB q.commands cmd resp,
    fun s e => by subst e; simp only [encodeCommandB], checkCommandB_none_length, fun _ => checkCommandB_ok⟩

theorem isEncodeB_named (q : Config.Params) (n : Config.CommandName) (id : Byte) (p : List Byte) :
    IsEncodeB q (encodeNamedB n id p) :=
  ⟨checkCommandB q.commands (codeOf q.commands n) p, codeOf q.commands n, id, p,
    expectsReplyB q.commands (codeOf q.commands n) false,
    fun s e => by subst e; simp only [encodeNamedB, encodeCommandB], checkCommandB_none_length, fun _ => checkCommandB_ok⟩

theorem isEncodeB_move (q : Config.Params) (n : Config.CommandName) (id : Byte) (x y : Half) :
    IsEncodeB q (encodeMove n id x y) :=
  ⟨_, codeOf q.commands n, _, _, _, fun s e => by subst e; rfl, fun _ => by simp [bytes16], fun _ => validateMove_ok⟩

theorem isEncodeB_angleLimit (q : Config.Params) (id : Byte) (x y : Half) : IsEncodeB q (encodeAngleLimit id x y) :=
  ⟨_, codeOf q.commands .angleLimitWrite, _, _, _, fun s e => by subst e; rfl, fun _ => by simp [bytes16],
    fun _ => validateAngleLimit_ok⟩

theorem isEncodeB_vinLimit (q : Config.Params) (id : Byte) (x y : Half) : IsEncodeB q (encodeVinLimit id x y) :=
  ⟨_, codeOf q.commands .vinLimitWrite, _, _, _, fun s e => by subst e; rfl, fun _ => by simp [bytes16],
    fun _ => validateVin_ok⟩

theorem isEncodeB_tempLimit (q : Config.Params) (id : Byte) (x : Half) : IsEncodeB q (encodeTempLimit id x) :=
  ⟨_, codeOf q.commands .tempMaxLimitWrite, _, _, _, fun s e => by subst e; rfl, fun _ => by simp,
    fun _ => validateTemp_ok⟩

/-- Every unit B encode is `BuildB` behind the preamble and a check of its operands (R100, R141 to R148); of the state it
reads the configuration and `OUTSTANDING`. -/
theorem exec_encodeB {i : Instr} (h : opKind i = .encodeB) (q : Config.Params) : IsEncodeB q (exec i) := by
  cases i <;> simp only [opKind, reduceCtorEq] at h
  case bEnc cmd id resp p => exact isEncodeB_command q cmd id resp p
  case bMove id x y => exact isEncodeB_move q .moveTimeWrite id x y
  case bMovew id x y => exact isEncodeB_move q .moveTimeWaitWrite id x y
  case moveTimeWrite id x y => exact isEncodeB_move q .moveTimeWrite id x y
  case moveTimeWaitWrite id x y => exact isEncodeB_move q .moveTimeWaitWrite id x y
  case bAnglim id x y => exact isEncodeB_angleLimit q id x y
  case angleLimitWrite id x y => exact isEncodeB_angleLimit q id x y
  case bVinlim id x y => exact isEncodeB_vinLimit q id x y
  case vinLimitWrite id x y => exact isEncodeB_vinLimit q id x y
  case bTemplim id x => exact isEncodeB_tempLimit q id x
  case tempMaxLimitWrite id p0 => exact isEncodeB_tempLimit q id (zext16 p0)
  case moveTimeRead id => exact isEncodeB_named q .moveTimeRead id []
  case moveTimeWaitRead id => exact isEncodeB_named q .moveTimeWaitRead id []
  case moveStart id => exact isEncodeB_named q .moveStart id []
  case moveStop id => exact isEncodeB_named q .moveStop id []
  case idWrite id p0 => exact isEncodeB_named q .idWrite id [p0]
  case idRead id => exact isEncodeB_named q .idRead id []
  case angleOffsetAdjust id p0 => exact isEncodeB_named q .angleOffsetAdjust id [p0]
  case angleOffsetWrite id => exact isEncodeB_named q .angleOffsetWrite id []
  case angleOffsetRead id => exact isEncodeB_named q .angleOffsetRead id []
  case angleLimitRead id => exact isEncodeB_named q .angleLimitRead id []
  case vinLimitRead id => exact isEncodeB_named q .vinLimitRead id []
  case tempMaxLimitRead id => exact isEncodeB_named q .tempMaxLimitRead id []
  case tempRead id => exact isEncodeB_named q .tempRead id []
  case vinRead id => exact isEncodeB_named q .vinRead id []
  case posRead id => exact isEncodeB_named q .posRead id []
  case orMotorModeWrite id p0 p1 p2 p3 => exact isEncodeB_named q .orMotorModeWrite id [p0, p1, p2, p3]
  case orMotorModeRead id => exact isEncodeB_named q .orMotorModeRead id []
  case loadOrUnloadWrite id p0 => exact isEncodeB_named q .loadOrUnloadWrite id [p0]
  case loadOrUnloadRead id => exact isEncodeB_named q .loadOrUnloadRead id []
  case ledCtrlWrite id p0 => exact isEncodeB_named q .ledCtrlWrite id [p0]
  case ledCtrlRead id => exact isEncodeB_named q .ledCtrlRead id []
  case ledErrorWrite id p0 => exact isEncodeB_named q .ledErrorWrite id [p0]
  case ledErrorRead id => exact isEncodeB_named q .ledErrorRead id []

/-- A body raises only what an outcome can record. -/
def BodyOk (b : Except Stop Result) : Prop := ∀ r, b = .error (.raise r) → RaiseOk r

theorem need_bind_ok {α β : Type} {o : Option α} {f : α → Except Stop β} {e : Stop}
    (h : (need o >>= f) = .error e) : (o = none ∧ e = .fault .readUnwritten) ∨ ∃ v, o = some v ∧ f v = .error e := by
  cases o with
  | none => left; simp [bind, Except.bind] at h; exact ⟨rfl, h.symm⟩
  | some v => right; exact ⟨v, rfl, by simpa [bind, Except.bind] using h⟩

/-- What a check or a body raises where it stops with a raised outcome. -/
theorem except_bind_error {α β : Type} {x : Except Stop α} {f : α → Except Stop β} {e : Stop}
    (h : (x >>= f) = .error e) : x = .error e ∨ ∃ v, x = .ok v ∧ f v = .error e := by
  cases x with
  | error e' => left; simpa [bind, Except.bind] using h
  | ok v => right; exact ⟨v, rfl, by simpa [bind, Except.bind] using h⟩

theorem checkA_raise {m : Cells Byte} {count : Nat} {cmd : Byte} {elen : Nat} {e : Stop}
    (h : checkA m count cmd elen = .error e) :
    e = .fault .readUnwritten ∨ e = .raise (plainRaise (if count = 0 then .noResponse else .protocolMismatch)) := by
  unfold checkA mismatch at h
  by_cases h0 : count = 0
  · simp [h0] at h; simp [h0, h]
  · simp only [h0, if_false] at h ⊢
    split at h
    · cases h; simp
    · rcases need_bind_ok h with ⟨-, h⟩ | ⟨b0, -, h⟩
      · exact .inl h
      rcases need_bind_ok h with ⟨-, h⟩ | ⟨b1, -, h⟩
      · exact .inl h
      split at h
      · cases h; simp
      · rcases need_bind_ok h with ⟨-, h⟩ | ⟨b3, -, h⟩
        · exact .inl h
        split at h
        · cases h; simp
        · split at h
          · cases h; simp
          · cases h

theorem checkEchoedIds_raise {m : Cells Byte} {off : Nat} {ids : List Byte} {e : Stop}
    (h : checkEchoedIds m off ids = .error e) : e = .fault .readUnwritten ∨ e = .raise (plainRaise .protocolMismatch) := by
  induction ids generalizing off with
  | nil => cases h
  | cons b ids ih =>
    rw [checkEchoedIds] at h
    rcases need_bind_ok h with ⟨-, h⟩ | ⟨b0, -, h⟩
    · exact .inl h
    split at h
    · cases h; exact .inr rfl
    · exact ih h

theorem readTriples_raise {m : Cells Byte} {off n : Nat} {e : Stop} (h : readTriples m off n = .error e) :
    e = .fault .readUnwritten := by
  induction n generalizing off with
  | zero => cases h
  | succ n ih =>
    rw [readTriples] at h
    rcases need_bind_ok h with ⟨-, h⟩ | ⟨_, -, h⟩
    · exact h
    rcases need_bind_ok h with ⟨-, h⟩ | ⟨_, -, h⟩
    · exact h
    rcases need_bind_ok h with ⟨-, h⟩ | ⟨_, -, h⟩
    · exact h
    rcases except_bind_error h with h | ⟨_, -, h⟩
    · exact ih h
    · cases h

theorem scanHeights_raise {m : Cells F64} {z : F64} {i n : Nat} {e : Stop} (h : scanHeights m z i n = .error e) :
    e = .fault .readUnwritten := by
  induction n generalizing i with
  | zero => cases h
  | succ n ih =>
    rw [scanHeights] at h
    rcases need_bind_ok h with ⟨-, h⟩ | ⟨_, -, h⟩
    · exact h
    split at h
    · cases h
    · exact ih h

theorem raiseOk_mismatch : RaiseOk (plainRaise .protocolMismatch) :=
  .inr (.inr ⟨_, rfl, by decide, by decide, by decide, by decide⟩)

theorem checkA_raiseOk {m : Cells Byte} {count : Nat} {cmd : Byte} {elen : Nat} {r : Raise}
    (h : checkA m count cmd elen = .error (.raise r)) : RaiseOk r := by
  rcases checkA_raise h with h | h
  · cases h
  · cases h
    refine .inr (.inr ⟨_, rfl, ?_⟩)
    split <;> decide

theorem decBodyA_ok (cmd elen : Byte) (s : State) : BodyOk (decBodyA cmd elen s) := by
  intro r h
  unfold decBodyA at h
  split at h
  · cases h; exact raiseOk_badRequest _
  · rcases except_bind_error h with h | ⟨_, -, h⟩
    · exact checkA_raiseOk h
    · rcases need_bind_ok h with ⟨-, h⟩ | ⟨_, -, h⟩ <;> cases h

theorem decposBody_ok (ids : List Byte) (s : State) : BodyOk (decposBody ids s) := by
  intro r h
  unfold decposBody at h
  split at h
  · rename_i h'; cases h; exact checkCount_ok h'
  · rcases except_bind_error h with h | ⟨_, -, h⟩
    · exact checkA_raiseOk h
    rcases except_bind_error h with h | ⟨_, -, h⟩
    · rcases checkEchoedIds_raise h with h | h <;> cases h
      exact raiseOk_mismatch
    rcases except_bind_error h with h | ⟨_, -, h⟩
    · cases readTriples_raise h
    · cases h

theorem decbattBody_ok (s : State) : BodyOk (decbattBody s) := by
  intro r h
  unfold decbattBody at h
  rcases except_bind_error h with h | ⟨_, -, h⟩
  · exact checkA_raiseOk h
  rcases need_bind_ok h with ⟨-, h⟩ | ⟨_, -, h⟩
  · cases h
  rcases need_bind_ok h with ⟨-, h⟩ | ⟨_, -, h⟩ <;> cases h

theorem decBodyB_ok (ecmd eid : Byte) (s : State) : BodyOk (decBodyB ecmd eid s) := by
  intro r h
  have key : ∀ {k : OutcomeKind} {r : Raise}, (reject k : Except Stop Result) = .error (.raise r) →
      k ≠ .ok ∧ k ≠ .parameterOutOfRange ∧ k ≠ .transportError ∧ k ≠ .badRequest → RaiseOk r := by
    intro k r h hk
    cases h
    exact .inr (.inr ⟨k, rfl, hk⟩)
  simp only [decBodyB] at h
  split at h
  · exact key h (by decide)
  split at h
  · exact key h (by decide)
  rcases need_bind_ok h with ⟨-, h⟩ | ⟨_, -, h⟩
  · cases h
  rcases need_bind_ok h with ⟨-, h⟩ | ⟨_, -, h⟩
  · cases h
  split at h
  · exact key h (by decide)
  split at h
  · exact key h (by decide)
  rcases need_bind_ok h with ⟨-, h⟩ | ⟨_, -, h⟩
  · cases h
  rcases need_bind_ok h with ⟨-, h⟩ | ⟨_, -, h⟩
  · cases h
  rcases need_bind_ok h with ⟨-, h⟩ | ⟨_, -, h⟩
  · cases h
  rcases need_bind_ok h with ⟨-, h⟩ | ⟨_, -, h⟩
  · cases h
  rcases need_bind_ok h with ⟨-, h⟩ | ⟨_, -, h⟩
  · cases h
  split at h
  · exact key h (by decide)
  split at h
  · exact key h (by decide)
  split at h
  · exact key h (by decide)
  split at h
  · exact key h (by decide)
  rcases need_bind_ok h with ⟨-, h⟩ | ⟨_, -, h⟩ <;> cases h

/-- Every decode ends through `finish`, which clears `OUTSTANDING` (R37). -/
theorem exec_decode {i : Instr} (h : opKind i = .decodeA ∨ opKind i = .decodeB) (s : State) :
    ∃ body, exec i s = finish (setOutstanding none) body s ∧ BodyOk body := by
  cases i <;> simp only [opKind, reduceCtorEq, or_self] at h
  case aDec cmd elen => exact ⟨_, rfl, decBodyA_ok cmd elen s⟩
  case aDecpos ids => exact ⟨_, rfl, decposBody_ok ids s⟩
  case aDecbatt => exact ⟨_, rfl, decbattBody_ok s⟩
  case bDec ecmd eid => exact ⟨_, rfl, decBodyB_ok ecmd eid s⟩

/-- The checksum operation and every unit M operation but `M.LOADARM` write nothing but the answer. -/
theorem exec_mapper {i : Instr} (h : opKind i = .checksum ∨ opKind i = .mapper) (s : State) :
    ∃ body, exec i s = finish id body s ∧ BodyOk body := by
  cases i <;> simp only [opKind, reduceCtorEq, or_self] at h
  case bChk b => exact ⟨.ok _, rfl, fun _ h => by cases h⟩
  case mA2r =>
    refine ⟨_, rfl, fun r h => ?_⟩
    unfold a2rBody at h
    repeat' split at h
    all_goals first | (cases h; exact raiseOk_badRequest _) | cases h
  case mR2a =>
    refine ⟨_, rfl, fun r h => ?_⟩
    unfold r2aBody at h
    repeat' split at h
    all_goals first | (cases h; exact raiseOk_badRequest _) | cases h
  case mPz =>
    refine ⟨_, rfl, fun r h => ?_⟩
    unfold pzBody at h
    split at h
    · cases h; exact raiseOk_badRequest _
    split at h
    · cases h; exact raiseOk_badRequest _
    rcases need_bind_ok h with ⟨-, h⟩ | ⟨_, -, h⟩ <;> cases h
  case mZ2i =>
    refine ⟨_, rfl, fun r h => ?_⟩
    unfold z2iBody at h
    split at h
    · cases h; exact raiseOk_badRequest _
    split at h
    · cases h; exact raiseOk_badRequest _
    rcases except_bind_error h with h | ⟨_, -, h⟩
    · cases scanHeights_raise h
    · cases h
  case mI2r =>
    refine ⟨_, rfl, fun r h => ?_⟩
    unfold i2rBody at h
    repeat' split at h
    all_goals first | (cases h; exact raiseOk_badRequest _) | cases h
  case mTeta =>
    refine ⟨_, rfl, fun r h => ?_⟩
    unfold tetaBody at h
    repeat' split at h
    all_goals first | (cases h; exact raiseOk_badRequest _) | cases h

/-- A load and `M.LOADARM` either raise `BadRequest` or write their register. -/
theorem exec_load {i : Instr} (h : opKind i = .loadA ∨ opKind i = .loadB ∨ opKind i = .loadArm) (s : State) :
    (∃ x, exec i s = raiseOutcome (badRequest x) s) ∨
    (opKind i = .loadA ∧ ∃ b, b.length ≤ 64 ∧ exec i s = complete Result.unwritten (loadRxa b s)) ∨
    (opKind i = .loadB ∧ ∃ b, b.length ≤ 258 ∧ exec i s = complete Result.unwritten (loadRxb b s)) ∨
    (opKind i = .loadArm ∧ s.armValid = false ∧ ∃ l1 l2 l3 l4,
      (lengthOk l1 && lengthOk l2 && lengthOk l3 && lengthOk l4) = true ∧
      (heightTable s.params.numeric l1 l2 l3 l4).all f64Finite = true ∧
      exec i s = complete Result.unwritten (loadArm l1 l2 l3 l4 (heightTable s.params.numeric l1 l2 l3 l4) s)) := by
  cases i <;> simp only [opKind, reduceCtorEq, or_self] at h
  case aRxload b =>
    simp only [exec, execARxload, opKind]
    by_cases hb : Config.rxaMax < b.length
    · rw [if_pos hb]; exact .inl ⟨_, rfl⟩
    · rw [if_neg hb]; exact .inr (.inl ⟨trivial, b, by simpa [Config.rxaMax, Config.rxbMax] using hb, rfl⟩)
  case bRxload b =>
    simp only [exec, execBRxload, opKind]
    by_cases hb : Config.rxbMax < b.length
    · rw [if_pos hb]; exact .inl ⟨_, rfl⟩
    · rw [if_neg hb]; exact .inr (.inr (.inl ⟨trivial, b, by simpa [Config.rxaMax, Config.rxbMax] using hb, rfl⟩))
  case mLoadarm l1 l2 l3 l4 =>
    simp only [exec, execMLoadarm, opKind]
    by_cases h1 : (lengthOk l1 && lengthOk l2 && lengthOk l3 && lengthOk l4) = true
    · by_cases h2 : s.armValid = true
      · simp only [h1, h2]; exact .inl ⟨_, rfl⟩
      · by_cases h3 : (heightTable s.params.numeric l1 l2 l3 l4).all f64Finite = true
        · simp only [h1, h2, h3]
          exact .inr (.inr (.inr ⟨trivial, trivial, l1, l2, l3, l4, h1, h3, rfl⟩))
        · simp only [h1, h2, h3]; exact .inl ⟨_, rfl⟩
    · simp only [h1]; exact .inl ⟨_, rfl⟩

/-- The kinds of operation as the five shapes above. -/
theorem opKind_cases (i : Instr) :
    opKind i = .encodeA ∨ opKind i = .encodeB ∨ (opKind i = .decodeA ∨ opKind i = .decodeB) ∨
      (opKind i = .checksum ∨ opKind i = .mapper) ∨ (opKind i = .loadA ∨ opKind i = .loadB ∨ opKind i = .loadArm) := by
  cases opKind i <;> simp

/-- Every operation answers a next state: it latches one fault, a decode with `OUTSTANDING` cleared before it, or it ends
with an outcome. Neither way does it touch the configuration, the pending requests or `REFUSED`, and an outcome leaves
`FAULT`. -/
theorem exec_next (i : Instr) (s : State) :
    (∃ n, exec i s =
      .next (addFault n (if opKind i = .decodeA ∨ opKind i = .decodeB then setOutstanding none s else s))) ∨
    ∃ u code info r, exec i s = .next (respond code info r u) ∧ u.requests = s.requests ∧ u.refused = s.refused ∧
      u.faults = s.faults ∧ u.params = s.params := by
  rcases opKind_cases i with hk | hk | hk | hk | hk
  · obtain ⟨bad, cmd, p, reply, he, -, -⟩ := exec_encodeA hk s.params
    rw [he s rfl]
    rcases encodeA_cases bad cmd p reply s with ⟨-, h⟩ | ⟨-, r, -, h⟩ | ⟨-, -, h⟩
    · exact .inl ⟨_, by rw [if_neg (by simp [hk])]; exact h⟩
    · exact .inr ⟨_, _, _, _, h, rfl, rfl, rfl, rfl⟩
    · exact .inr ⟨_, _, _, _, h, rfl, rfl, rfl, rfl⟩
  · obtain ⟨bad, cmd, id, p, reply, he, -, -⟩ := exec_encodeB hk s.params
    rw [he s rfl]
    rcases encodeB_cases bad cmd id p reply s with ⟨-, h⟩ | ⟨-, r, -, h⟩ | ⟨-, -, h⟩
    · exact .inl ⟨_, by rw [if_neg (by simp [hk])]; exact h⟩
    · exact .inr ⟨_, _, _, _, h, rfl, rfl, rfl, rfl⟩
    · exact .inr ⟨_, _, _, _, h, rfl, rfl, rfl, rfl⟩
  · obtain ⟨body, he, -⟩ := exec_decode hk s
    rw [he]
    rcases finish_cases (setOutstanding none) body s with ⟨r, -, h⟩ | ⟨r, -, h⟩ | ⟨n, -, h⟩
    · exact .inr ⟨_, _, _, _, h, rfl, rfl, rfl, rfl⟩
    · exact .inr ⟨_, _, _, _, h, rfl, rfl, rfl, rfl⟩
    · exact .inl ⟨_, by rw [if_pos hk]; exact h⟩
  · obtain ⟨body, he, -⟩ := exec_mapper hk s
    rw [he]
    rcases finish_cases id body s with ⟨r, -, h⟩ | ⟨r, -, h⟩ | ⟨n, -, h⟩
    · exact .inr ⟨_, _, _, _, h, rfl, rfl, rfl, rfl⟩
    · exact .inr ⟨_, _, _, _, h, rfl, rfl, rfl, rfl⟩
    · exact .inl ⟨_, by rw [if_neg (by rcases hk with hk | hk <;> simp [hk])]; exact h⟩
  · rcases exec_load hk s with ⟨x, he⟩ | ⟨-, b, -, he⟩ | ⟨-, b, -, he⟩ | ⟨-, -, l1, l2, l3, l4, -, -, he⟩
    all_goals exact .inr ⟨_, _, _, _, he, rfl, rfl, rfl, rfl⟩

end Sys2Proof.Machine
end

