-- ==== Sys2Proof/Laws/MotionMapper.lean ====
section
/-! SUPPORT. Unit M: the constants of R11, the tables of the numeric parameters, and the height table of an arm of length
zero. -/

namespace Sys2Proof.Machine

/-- `PI / 2` is the constant the model uses for it (R11). -/
theorem f64HalfPi_eq : f64Div f64Pi (f64OfInt 2) = f64HalfPi := by decide +kernel

theorem unitsPerOne_pos : 0 < unitsPerOne := by decide +kernel

@[simp] theorem funValue_nil (x : F64) : funValue [] x = 0#64 := rfl

theorem funValue_cons (a v x : F64) (t : Config.FunTable) :
    funValue ((a, v) :: t) x = if x = a then v else funValue t x := by
  unfold funValue
  by_cases h : x = a
  · simp [List.lookup, h]
  · have : (x == a) = false := by simpa using h
    simp [List.lookup, this, h]

/-- A value of a table is the default or one of its entries. -/
theorem funValue_mem (t : Config.FunTable) (x : F64) : funValue t x = 0#64 ∨ (x, funValue t x) ∈ t := by
  induction t with
  | nil => exact .inl rfl
  | cons q t ih =>
    obtain ⟨a, v⟩ := q
    rw [funValue_cons]
    by_cases h : x = a
    · simp [h]
    · rcases ih with ih | ih
      · simp [h, ih]
      · exact .inr (by simp [h, ih])

/-- An arctangent that R188 describes keeps `[-1, 1]` within `PI / 4` (R188). -/
theorem atan_range {t : Config.FunTable} (h : atanOk t = true) {x : F64} (hx : f64Le (f64Abs x) (f64OfInt 1) = true) :
    f64Le (f64Abs (funValue t x)) f64QuarterPi = true := by
  simp only [atanOk, Bool.and_eq_true, List.all_eq_true] at h
  rcases funValue_mem t x with h0 | hm
  · rw [h0]; decide +kernel
  · have := h.1.1 _ hm
    simpa [atanEntryOk, hx] using this

/-- The arctangent at reset is one R188 describes. -/
theorem givenAtan_ok : atanOk givenAtan = true := by
  have h : f64Negate 0#64 ≠ 0#64 := by decide
  have e0 : atanEntryOk (0#64, 0#64) = true := by decide +kernel
  have e1 : atanEntryOk (f64Negate 0#64, f64Negate 0#64) = true := by decide +kernel
  simp [atanOk, givenAtan, funValue_cons, h, e0, e1, List.all_filter]

/-- Where the sine and the cosine are zero, the table of an arm of length zero holds zeros. -/
theorem heightEntry_zero {n : Config.Numeric} (hs : n.sin = []) (hc : n.cos = []) (i : Nat) :
    heightEntry n 0#64 0#64 0#64 0#64 i = 0#64 := by
  simp only [heightEntry, f64Sin, f64Cos, hs, hc, funValue_nil]
  decide +kernel

theorem heightTable_zero_finite {n : Config.Numeric} (hs : n.sin = []) (hc : n.cos = []) :
    (heightTable n 0#64 0#64 0#64 0#64).all f64Finite = true := by
  rw [List.all_eq_true]
  intro x hx
  obtain ⟨i, -, rfl⟩ := List.mem_map.1 hx
  rw [heightEntry_zero hs hc]
  decide

end Sys2Proof.Machine
end

