-- ==== Sys2Proof/Laws/PerInstr.lean ====
section
/-! SUPPORT. What holds of each instruction as syntax: its encoding begins with the match bytes of its row of
spec/opcode_table.json, under the row's mask. -/

namespace Sys2Proof.Laws

open Sys2Proof.Machine

/-- The match bytes of an instruction's row, in order, `none` where the row's mask is 0. -/
def tablePattern : Instr → List (Option Byte)
  | .aEnc _ _ _ => [some 0x01#8]
  | .aSetpos _ _ => [some 0x02#8]
  | .aGetpos _ => [some 0x03#8]
  | .aStop _ => [some 0x04#8]
  | .aBatt => [some 0x05#8]
  | .aRxload _ => [some 0x06#8]
  | .aDec _ _ => [some 0x08#8]
  | .aDecpos _ => [some 0x09#8]
  | .aDecbatt => [some 0x0A#8]
  | .bEnc _ _ _ _ => [some 0x10#8]
  | .bMove _ _ _ => [some 0x11#8]
  | .bMovew _ _ _ => [some 0x12#8]
  | .bAnglim _ _ _ => [some 0x13#8]
  | .bVinlim _ _ _ => [some 0x14#8]
  | .bTemplim _ _ => [some 0x15#8]
  | .bRxload _ => [some 0x16#8]
  | .bDec _ _ => [some 0x18#8]
  | .bChk _ => [some 0x19#8]
  | .mA2r _ _ _ => [some 0x20#8]
  | .mR2a _ _ _ => [some 0x21#8]
  | .mLoadarm _ _ _ _ => [some 0x22#8]
  | .mPz _ => [some 0x23#8]
  | .mZ2i _ => [some 0x24#8]
  | .mI2r _ => [some 0x25#8]
  | .mTeta _ _ => [some 0x26#8]
  | .cmdASetpos _ _ => [some 0x55#8, some 0x55#8, none, some 0x03#8]
  | .cmdAGetpos _ => [some 0x55#8, some 0x55#8, none, some 0x15#8]
  | .cmdAStop _ => [some 0x55#8, some 0x55#8, none, some 0x14#8]
  | .cmdABatt => [some 0x55#8, some 0x55#8, none, some 0x0F#8]
  | .moveTimeWrite _ _ _ => [some 0x55#8, some 0x55#8, none, some 0x07#8, some 0x01#8]
  | .moveTimeRead _ => [some 0x55#8, some 0x55#8, none, some 0x03#8, some 0x02#8]
  | .moveTimeWaitWrite _ _ _ => [some 0x55#8, some 0x55#8, none, some 0x07#8, some 0x07#8]
  | .moveTimeWaitRead _ => [some 0x55#8, some 0x55#8, none, some 0x03#8, some 0x08#8]
  | .moveStart _ => [some 0x55#8, some 0x55#8, none, some 0x03#8, some 0x0B#8]
  | .moveStop _ => [some 0x55#8, some 0x55#8, none, some 0x03#8, some 0x0C#8]
  | .idWrite _ _ => [some 0x55#8, some 0x55#8, none, some 0x04#8, some 0x0D#8]
  | .idRead _ => [some 0x55#8, some 0x55#8, none, some 0x03#8, some 0x0E#8]
  | .angleOffsetAdjust _ _ => [some 0x55#8, some 0x55#8, none, some 0x04#8, some 0x11#8]
  | .angleOffsetWrite _ => [some 0x55#8, some 0x55#8, none, some 0x03#8, some 0x12#8]
  | .angleOffsetRead _ => [some 0x55#8, some 0x55#8, none, some 0x03#8, some 0x13#8]
  | .angleLimitWrite _ _ _ => [some 0x55#8, some 0x55#8, none, some 0x07#8, some 0x14#8]
  | .angleLimitRead _ => [some 0x55#8, some 0x55#8, none, some 0x03#8, some 0x15#8]
  | .vinLimitWrite _ _ _ => [some 0x55#8, some 0x55#8, none, some 0x07#8, some 0x16#8]
  | .vinLimitRead _ => [some 0x55#8, some 0x55#8, none, some 0x03#8, some 0x17#8]
  | .tempMaxLimitWrite _ _ => [some 0x55#8, some 0x55#8, none, some 0x04#8, some 0x18#8]
  | .tempMaxLimitRead _ => [some 0x55#8, some 0x55#8, none, some 0x03#8, some 0x19#8]
  | .tempRead _ => [some 0x55#8, some 0x55#8, none, some 0x03#8, some 0x1A#8]
  | .vinRead _ => [some 0x55#8, some 0x55#8, none, some 0x03#8, some 0x1B#8]
  | .posRead _ => [some 0x55#8, some 0x55#8, none, some 0x03#8, some 0x1C#8]
  | .orMotorModeWrite _ _ _ _ _ => [some 0x55#8, some 0x55#8, none, some 0x07#8, some 0x1D#8]
  | .orMotorModeRead _ => [some 0x55#8, some 0x55#8, none, some 0x03#8, some 0x1E#8]
  | .loadOrUnloadWrite _ _ => [some 0x55#8, some 0x55#8, none, some 0x04#8, some 0x1F#8]
  | .loadOrUnloadRead _ => [some 0x55#8, some 0x55#8, none, some 0x03#8, some 0x20#8]
  | .ledCtrlWrite _ _ => [some 0x55#8, some 0x55#8, none, some 0x04#8, some 0x21#8]
  | .ledCtrlRead _ => [some 0x55#8, some 0x55#8, none, some 0x03#8, some 0x22#8]
  | .ledErrorWrite _ _ => [some 0x55#8, some 0x55#8, none, some 0x04#8, some 0x23#8]
  | .ledErrorRead _ => [some 0x55#8, some 0x55#8, none, some 0x03#8, some 0x24#8]

/-- The bytes begin with the pattern. -/
def matchesPattern : List (Option Byte) → List Byte → Bool
  | [], _ => true
  | none :: ps, _ :: bs => matchesPattern ps bs
  | some p :: ps, b :: bs => decide (p = b) && matchesPattern ps bs
  | _ :: _, [] => false

/-- The encoding of `i`, with the default command bytes, begins with the match bytes of its row. -/
def EncodesTableRow.Statement (i : Instr) : Prop := matchesPattern (tablePattern i) (encode defaultCommands i).bytes = true

theorem EncodesTableRow.aEnc : ∀ cmd resp p, EncodesTableRow.Statement (.aEnc cmd resp p) := by
  intros; exact rfl
theorem EncodesTableRow.aSetpos : ∀ dur pairs, EncodesTableRow.Statement (.aSetpos dur pairs) := by
  intros; exact rfl
theorem EncodesTableRow.aGetpos : ∀ ids, EncodesTableRow.Statement (.aGetpos ids) := by
  intros; exact rfl
theorem EncodesTableRow.aStop : ∀ ids, EncodesTableRow.Statement (.aStop ids) := by
  intros; exact rfl
theorem EncodesTableRow.aBatt : EncodesTableRow.Statement (.aBatt) := by
  exact rfl
theorem EncodesTableRow.aRxload : ∀ b, EncodesTableRow.Statement (.aRxload b) := by
  intros; exact rfl
theorem EncodesTableRow.aDec : ∀ cmd elen, EncodesTableRow.Statement (.aDec cmd elen) := by
  intros; exact rfl
theorem EncodesTableRow.aDecpos : ∀ ids, EncodesTableRow.Statement (.aDecpos ids) := by
  intros; exact rfl
theorem EncodesTableRow.aDecbatt : EncodesTableRow.Statement (.aDecbatt) := by
  exact rfl
theorem EncodesTableRow.bEnc : ∀ cmd id resp p, EncodesTableRow.Statement (.bEnc cmd id resp p) := by
  intros; exact rfl
theorem EncodesTableRow.bMove : ∀ id pos time, EncodesTableRow.Statement (.bMove id pos time) := by
  intros; exact rfl
theorem EncodesTableRow.bMovew : ∀ id pos time, EncodesTableRow.Statement (.bMovew id pos time) := by
  intros; exact rfl
theorem EncodesTableRow.bAnglim : ∀ id mn mx, EncodesTableRow.Statement (.bAnglim id mn mx) := by
  intros; exact rfl
theorem EncodesTableRow.bVinlim : ∀ id mn mx, EncodesTableRow.Statement (.bVinlim id mn mx) := by
  intros; exact rfl
theorem EncodesTableRow.bTemplim : ∀ id t, EncodesTableRow.Statement (.bTemplim id t) := by
  intros; exact rfl
theorem EncodesTableRow.bRxload : ∀ b, EncodesTableRow.Statement (.bRxload b) := by
  intros; exact rfl
theorem EncodesTableRow.bDec : ∀ ecmd eid, EncodesTableRow.Statement (.bDec ecmd eid) := by
  intros; exact rfl
theorem EncodesTableRow.bChk : ∀ b, EncodesTableRow.Statement (.bChk b) := by
  intros; exact rfl
theorem EncodesTableRow.mA2r : ∀ angle mn mx, EncodesTableRow.Statement (.mA2r angle mn mx) := by
  intros; exact rfl
theorem EncodesTableRow.mR2a : ∀ raw mn mx, EncodesTableRow.Statement (.mR2a raw mn mx) := by
  intros; exact rfl
theorem EncodesTableRow.mLoadarm : ∀ l1 l2 l3 l4, EncodesTableRow.Statement (.mLoadarm l1 l2 l3 l4) := by
  intros; exact rfl
theorem EncodesTableRow.mPz : ∀ i, EncodesTableRow.Statement (.mPz i) := by
  intros; exact rfl
theorem EncodesTableRow.mZ2i : ∀ z, EncodesTableRow.Statement (.mZ2i z) := by
  intros; exact rfl
theorem EncodesTableRow.mI2r : ∀ i, EncodesTableRow.Statement (.mI2r i) := by
  intros; exact rfl
theorem EncodesTableRow.mTeta : ∀ x y, EncodesTableRow.Statement (.mTeta x y) := by
  intros; exact rfl
theorem EncodesTableRow.cmdASetpos : ∀ dur pairs, EncodesTableRow.Statement (.cmdASetpos dur pairs) := by
  intros; exact rfl
theorem EncodesTableRow.cmdAGetpos : ∀ ids, EncodesTableRow.Statement (.cmdAGetpos ids) := by
  intros; exact rfl
theorem EncodesTableRow.cmdAStop : ∀ ids, EncodesTableRow.Statement (.cmdAStop ids) := by
  intros; exact rfl
theorem EncodesTableRow.cmdABatt : EncodesTableRow.Statement (.cmdABatt) := by
  exact rfl
theorem EncodesTableRow.moveTimeWrite : ∀ id pos time, EncodesTableRow.Statement (.moveTimeWrite id pos time) := by
  intros; exact rfl
theorem EncodesTableRow.moveTimeRead : ∀ id, EncodesTableRow.Statement (.moveTimeRead id) := by
  intros; exact rfl
theorem EncodesTableRow.moveTimeWaitWrite : ∀ id pos time, EncodesTableRow.Statement (.moveTimeWaitWrite id pos time) := by
  intros; exact rfl
theorem EncodesTableRow.moveTimeWaitRead : ∀ id, EncodesTableRow.Statement (.moveTimeWaitRead id) := by
  intros; exact rfl
theorem EncodesTableRow.moveStart : ∀ id, EncodesTableRow.Statement (.moveStart id) := by
  intros; exact rfl
theorem EncodesTableRow.moveStop : ∀ id, EncodesTableRow.Statement (.moveStop id) := by
  intros; exact rfl
theorem EncodesTableRow.idWrite : ∀ id p0, EncodesTableRow.Statement (.idWrite id p0) := by
  intros; exact rfl
theorem EncodesTableRow.idRead : ∀ id, EncodesTableRow.Statement (.idRead id) := by
  intros; exact rfl
theorem EncodesTableRow.angleOffsetAdjust : ∀ id p0, EncodesTableRow.Statement (.angleOffsetAdjust id p0) := by
  intros; exact rfl
theorem EncodesTableRow.angleOffsetWrite : ∀ id, EncodesTableRow.Statement (.angleOffsetWrite id) := by
  intros; exact rfl
theorem EncodesTableRow.angleOffsetRead : ∀ id, EncodesTableRow.Statement (.angleOffsetRead id) := by
  intros; exact rfl
theorem EncodesTableRow.angleLimitWrite : ∀ id mn mx, EncodesTableRow.Statement (.angleLimitWrite id mn mx) := by
  intros; exact rfl
theorem EncodesTableRow.angleLimitRead : ∀ id, EncodesTableRow.Statement (.angleLimitRead id) := by
  intros; exact rfl
theorem EncodesTableRow.vinLimitWrite : ∀ id mn mx, EncodesTableRow.Statement (.vinLimitWrite id mn mx) := by
  intros; exact rfl
theorem EncodesTableRow.vinLimitRead : ∀ id, EncodesTableRow.Statement (.vinLimitRead id) := by
  intros; exact rfl
theorem EncodesTableRow.tempMaxLimitWrite : ∀ id p0, EncodesTableRow.Statement (.tempMaxLimitWrite id p0) := by
  intros; exact rfl
theorem EncodesTableRow.tempMaxLimitRead : ∀ id, EncodesTableRow.Statement (.tempMaxLimitRead id) := by
  intros; exact rfl
theorem EncodesTableRow.tempRead : ∀ id, EncodesTableRow.Statement (.tempRead id) := by
  intros; exact rfl
theorem EncodesTableRow.vinRead : ∀ id, EncodesTableRow.Statement (.vinRead id) := by
  intros; exact rfl
theorem EncodesTableRow.posRead : ∀ id, EncodesTableRow.Statement (.posRead id) := by
  intros; exact rfl
theorem EncodesTableRow.orMotorModeWrite : ∀ id p0 p1 p2 p3, EncodesTableRow.Statement (.orMotorModeWrite id p0 p1 p2 p3) := by
  intros; exact rfl
theorem EncodesTableRow.orMotorModeRead : ∀ id, EncodesTableRow.Statement (.orMotorModeRead id) := by
  intros; exact rfl
theorem EncodesTableRow.loadOrUnloadWrite : ∀ id p0, EncodesTableRow.Statement (.loadOrUnloadWrite id p0) := by
  intros; exact rfl
theorem EncodesTableRow.loadOrUnloadRead : ∀ id, EncodesTableRow.Statement (.loadOrUnloadRead id) := by
  intros; exact rfl
theorem EncodesTableRow.ledCtrlWrite : ∀ id p0, EncodesTableRow.Statement (.ledCtrlWrite id p0) := by
  intros; exact rfl
theorem EncodesTableRow.ledCtrlRead : ∀ id, EncodesTableRow.Statement (.ledCtrlRead id) := by
  intros; exact rfl
theorem EncodesTableRow.ledErrorWrite : ∀ id p0, EncodesTableRow.Statement (.ledErrorWrite id p0) := by
  intros; exact rfl
theorem EncodesTableRow.ledErrorRead : ∀ id, EncodesTableRow.Statement (.ledErrorRead id) := by
  intros; exact rfl

end Sys2Proof.Laws
end

