-- ==== Sys2Proof/Machine/HostSession.lean ====
section
/-! DEFINITION. The host's side of a session (70_reset_and_hazards.md R261 to R271, 60_exceptions.md R235): the transport it
holds, the frame it may still write, the frame whose reply it awaits, and what its duties ask of the next operation. The
block sees none of it, and no meaning of `exec` uses it. -/

namespace Sys2Proof.Machine

/-- A frame the host wrote, and the unit it came from. -/
structure SentFrame where
  unit : CodecUnit
  bytes : List Byte
  deriving DecidableEq, Repr

/-- What the host keeps of a session. -/
structure Session where
  /-- `open` has succeeded and `close` has not followed (R261, R263). -/
  opened : Bool
  /-- The frame in `TXA` has not been written since the encode that made it (R269). -/
  unsentA : Bool
  /-- The frame in `TXB` has not been written since the encode that made it (R269). -/
  unsentB : Bool
  /-- The last frame written. -/
  sent : Option SentFrame
  deriving DecidableEq, Repr

/-- The session before the first `open`. -/
def newSession : Session := { opened := false, unsentA := false, unsentB := false, sent := none }

/-- `open()`: `Ok` claims the transport (R261). The host calls it once. What a second `open` that answers
`Err(TransportError)` leaves is not stated: the session stays as it was. DESIGN CHOICE, notes/assumptions/16.md. -/
def openTransport (ok : Bool) (c : Session) : Session := { c with opened := ok || c.opened }

/-- `close()`: idempotent, and no operation of the block (R263). -/
def closeTransport (c : Session) : Session := { c with opened := false }

/-- The session after the block answered operation `i` with state `t`: a successful encode leaves a frame to be written,
a failed one leaves none (R29, R31, R269). After an encode that takes a fault the unit's earlier frame is still valid, and
whether the host may write it once the run has ended is not stated: it may not, while an unwritten frame of the other unit
stays to be written. DESIGN CHOICE, notes/assumptions/19.md. -/
def afterOperation (i : Instr) (t : State) (c : Session) : Session :=
  match opKind i with
  | .encodeA => { c with unsentA := t.txaValid && t.faults.isEmpty }
  | .encodeB => { c with unsentB := t.txbValid && t.faults.isEmpty }
  | .loadA => c
  | .decodeA => c
  | .loadB => c
  | .decodeB => c
  | .checksum => c
  | .loadArm => c
  | .mapper => c

/-- The frame of a unit on offer to the host (R29, R31, R269). -/
def offered (u : CodecUnit) (s : State) : Option (List Byte) :=
  match u with
  | .a => offeredA s
  | .b => offeredB s

/-- The frame of a unit has not been written since its encode. -/
def unsent (u : CodecUnit) (c : Session) : Bool :=
  match u with
  | .a => c.unsentA
  | .b => c.unsentB

/-- The frame of a unit that the host may write: nothing before `open` (R261), nothing without a valid frame, nothing a
second time (R269), nothing the transport rejects (R268). Whether it may still write a valid, unwritten frame once the run
has ended by a refused selector or by a decode's fault is not stated: it may. DESIGN CHOICE, notes/assumptions/19.md. -/
def writable (u : CodecUnit) (s : State) (c : Session) : Option (List Byte) :=
  if c.opened && unsent u c then (offered u s).filter (transportAccepts s.params.transportKind) else none

/-- The session after the host called `write` with the frame `f` of a unit, once, whatever the call answered (R269). -/
def afterWrite (u : CodecUnit) (f : List Byte) (c : Session) : Session :=
  match u with
  | .a => { c with unsentA := false, sent := some ⟨.a, f⟩ }
  | .b => { c with unsentB := false, sent := some ⟨.b, f⟩ }

/-- Whether an operation's expectations are those of the frame `f` that was sent (R270): a decode of the unit that sent it,
with the command, and the ids or the id, that `f` carries. The block does not check it. An operation that is no decode
expects nothing. -/
def expectationsMatch (c : Config.Commands) (f : SentFrame) : Instr → Bool
  | .aDec cmd _ => decide (f.unit = .a ∧ f.bytes[3]? = some cmd)
  | .aDecpos ids =>
    decide (f.unit = .a ∧ f.bytes[3]? = some c.getpos ∧ (f.bytes.drop 4).take (1 + ids.length) = idsPayload ids)
  | .aDecbatt => decide (f.unit = .a ∧ f.bytes[3]? = some c.batt)
  | .bDec ecmd eid => decide (f.unit = .b ∧ f.bytes[4]? = some ecmd ∧ f.bytes[2]? = some eid)
  | _ => true

/-- The length in ms of the host's optional pacing sleep after a written frame (R271), where the caller opts in: the
commanded duration of a set-position frame, whichever encode made it. Which unit B commands set a position is not stated:
`MOVE_TIME_WRITE` and `MOVE_TIME_WAIT_WRITE` are taken to. DESIGN CHOICE, notes/assumptions/17.md. For a stop the spec
states no length. -/
def pacing (c : Config.Commands) (wait : Bool) (f : SentFrame) : Option Half :=
  match wait, f.unit, f.bytes with
  | true, .a, _ :: _ :: _ :: cmd :: _ :: d0 :: d1 :: _ => if cmd = Config.cmdASetpos then some (le16 d0 d1) else none
  | true, .b, _ :: _ :: _ :: _ :: cmd :: _ :: _ :: t0 :: t1 :: _ =>
    if cmd = codeOf c .moveTimeWrite ∨ cmd = codeOf c .moveTimeWaitWrite then some (le16 t0 t1) else none
  | _, _, _ => none

end Sys2Proof.Machine
end

