-- ==== Sys2Proof/Tests/Slice0.lean ====
section
/-! SUPPORT. The model's own tests: what WellFormed refuses, the words each constructor decodes from, one step of each
operation against the vectors of 95_test_vectors.md, and a state and operands that meet the hypotheses of each
statement. -/

namespace Sys2Proof.Tests

open Sys2Proof Sys2Proof.Machine Sys2Proof.Claims

set_option Elab.async false

/-! ### WellFormed refuses what no request can carry -/

theorem test_illFormed_aEnc : Instr.wellFormed (.aEnc 0#8 false (List.replicate 256 0#8)) = false := by
  simp only [Instr.wellFormed, countFitsU8, List.length_replicate]; decide

theorem test_illFormed_aSetpos : Instr.wellFormed (.aSetpos 0#16 (List.replicate 256 ⟨0#8, 0#16⟩)) = false := by
  simp only [Instr.wellFormed, countFitsU8, List.length_replicate]; decide

theorem test_illFormed_aGetpos : Instr.wellFormed (.aGetpos (List.replicate 256 0#8)) = false := by
  simp only [Instr.wellFormed, countFitsU8, List.length_replicate]; decide

theorem test_illFormed_aStop : Instr.wellFormed (.aStop (List.replicate 256 0#8)) = false := by
  simp only [Instr.wellFormed, countFitsU8, List.length_replicate]; decide

theorem test_illFormed_aRxload : Instr.wellFormed (.aRxload (List.replicate 256 0#8)) = false := by
  simp only [Instr.wellFormed, countFitsU8, List.length_replicate]; decide

theorem test_illFormed_aDecpos : Instr.wellFormed (.aDecpos (List.replicate 256 0#8)) = false := by
  simp only [Instr.wellFormed, countFitsU8, List.length_replicate]; decide

theorem test_illFormed_bEnc : Instr.wellFormed (.bEnc 0#8 0#8 false (List.replicate 256 0#8)) = false := by
  simp only [Instr.wellFormed, countFitsU8, List.length_replicate]; decide

theorem test_illFormed_bRxload : Instr.wellFormed (.bRxload (List.replicate 65536 0#8)) = false := by
  simp only [Instr.wellFormed, countFitsU16, List.length_replicate]; decide

theorem test_illFormed_bChk : Instr.wellFormed (.bChk (List.replicate 256 0#8)) = false := by
  simp only [Instr.wellFormed, countFitsU8, List.length_replicate]; decide

theorem test_illFormed_cmdASetpos : Instr.wellFormed (.cmdASetpos 0#16 (List.replicate 20 ⟨0#8, 0#16⟩)) = false := by
  simp only [Instr.wellFormed, List.length_replicate]; decide

theorem test_illFormed_cmdAGetpos : Instr.wellFormed (.cmdAGetpos (List.replicate 60 0#8)) = false := by
  simp only [Instr.wellFormed, List.length_replicate]; decide

theorem test_illFormed_cmdAStop : Instr.wellFormed (.cmdAStop (List.replicate 60 0#8)) = false := by
  simp only [Instr.wellFormed, List.length_replicate]; decide

/-! ### Words written out from 30_encoding.md R70, R73, R75, R77 and R79 -/

theorem test_decode_aEnc : decode defaultCommands ⟨.request, [0x01#8, 0x77#8, 0x01#8, 0x02#8, 0xAA#8, 0xBB#8]⟩ =
    .ok (.aEnc 0x77#8 true [0xAA#8, 0xBB#8]) := by decide

theorem test_decode_aSetpos : decode defaultCommands ⟨.request, [0x02#8, 0xD0#8, 0x07#8, 0x02#8, 0x01#8, 0x64#8, 0x00#8, 0x06#8, 0xE8#8, 0x03#8]⟩ =
    .ok (.aSetpos 2000#16 [⟨1#8, 100#16⟩, ⟨6#8, 1000#16⟩]) := by decide

theorem test_decode_aGetpos : decode defaultCommands ⟨.request, [0x03#8, 0x03#8, 0x01#8, 0x02#8, 0x03#8]⟩ =
    .ok (.aGetpos [1#8, 2#8, 3#8]) := by decide

theorem test_decode_aStop : decode defaultCommands ⟨.request, [0x04#8, 0x02#8, 0x01#8, 0x06#8]⟩ =
    .ok (.aStop [1#8, 6#8]) := by decide

theorem test_decode_aBatt : decode defaultCommands ⟨.request, [0x05#8]⟩ =
    .ok (.aBatt) := by decide

theorem test_decode_aRxload : decode defaultCommands ⟨.request, [0x06#8, 0x03#8, 0x55#8, 0x55#8, 0x04#8]⟩ =
    .ok (.aRxload [0x55#8, 0x55#8, 0x04#8]) := by decide

theorem test_decode_aDec : decode defaultCommands ⟨.request, [0x08#8, 0x0F#8, 0x02#8]⟩ =
    .ok (.aDec 0x0F#8 2#8) := by decide

theorem test_decode_aDecpos : decode defaultCommands ⟨.request, [0x09#8, 0x01#8, 0x03#8]⟩ =
    .ok (.aDecpos [3#8]) := by decide

theorem test_decode_aDecbatt : decode defaultCommands ⟨.request, [0x0A#8]⟩ =
    .ok (.aDecbatt) := by decide

theorem test_decode_bEnc : decode defaultCommands ⟨.request, [0x10#8, 0x63#8, 0x07#8, 0x00#8, 0x02#8, 0x01#8, 0x02#8]⟩ =
    .ok (.bEnc 99#8 7#8 false [1#8, 2#8]) := by decide

theorem test_decode_bMove : decode defaultCommands ⟨.request, [0x11#8, 0x05#8, 0xE8#8, 0x03#8, 0x30#8, 0x75#8]⟩ =
    .ok (.bMove 5#8 1000#16 30000#16) := by decide

theorem test_decode_bMovew : decode defaultCommands ⟨.request, [0x12#8, 0x01#8, 0xF4#8, 0x01#8, 0xE8#8, 0x03#8]⟩ =
    .ok (.bMovew 1#8 500#16 1000#16) := by decide

theorem test_decode_bAnglim : decode defaultCommands ⟨.request, [0x13#8, 0x01#8, 0xB0#8, 0x04#8, 0xE8#8, 0x03#8]⟩ =
    .ok (.bAnglim 1#8 1200#16 1000#16) := by decide

theorem test_decode_bVinlim : decode defaultCommands ⟨.request, [0x14#8, 0x01#8, 0x94#8, 0x11#8, 0xE0#8, 0x2E#8]⟩ =
    .ok (.bVinlim 1#8 4500#16 12000#16) := by decide

theorem test_decode_bTemplim : decode defaultCommands ⟨.request, [0x15#8, 0x01#8, 0x32#8, 0x01#8]⟩ =
    .ok (.bTemplim 1#8 306#16) := by decide

theorem test_decode_bRxload : decode defaultCommands ⟨.request, [0x16#8, 0x02#8, 0x00#8, 0x55#8, 0x56#8]⟩ =
    .ok (.bRxload [0x55#8, 0x56#8]) := by decide

theorem test_decode_bDec : decode defaultCommands ⟨.request, [0x18#8, 0x1C#8, 0x02#8]⟩ =
    .ok (.bDec 28#8 2#8) := by decide

theorem test_decode_bChk : decode defaultCommands ⟨.request, [0x19#8, 0x03#8, 0x01#8, 0x02#8, 0x03#8]⟩ =
    .ok (.bChk [1#8, 2#8, 3#8]) := by decide

theorem test_decode_mA2r : decode defaultCommands ⟨.request, [0x20#8, 0x00#8, 0x00#8, 0x00#8, 0x00#8, 0x00#8, 0x80#8, 0x46#8, 0x40#8, 0x00#8, 0x00#8, 0x00#8, 0x00#8, 0x00#8, 0x80#8, 0x56#8, 0xC0#8, 0x00#8, 0x00#8, 0x00#8, 0x00#8, 0x00#8, 0x80#8, 0x56#8, 0x40#8]⟩ =
    .ok (.mA2r 0x4046800000000000#64 0xC056800000000000#64 0x4056800000000000#64) := by decide

theorem test_decode_mR2a : decode defaultCommands ⟨.request, [0x21#8, 0xFB#8, 0xFF#8, 0xFF#8, 0xFF#8, 0x00#8, 0x00#8, 0x00#8, 0x00#8, 0x00#8, 0x80#8, 0x56#8, 0xC0#8, 0x00#8, 0x00#8, 0x00#8, 0x00#8, 0x00#8, 0x80#8, 0x56#8, 0x40#8]⟩ =
    .ok (.mR2a (BitVec.ofInt 32 (-5)) 0xC056800000000000#64 0x4056800000000000#64) := by decide

theorem test_decode_mLoadarm : decode defaultCommands ⟨.request, [0x22#8, 0x00#8, 0x00#8, 0x00#8, 0x00#8, 0x00#8, 0x00#8, 0x24#8, 0x40#8, 0x00#8, 0x00#8, 0x00#8, 0x00#8, 0x00#8, 0x00#8, 0x34#8, 0x40#8, 0x00#8, 0x00#8, 0x00#8, 0x00#8, 0x00#8, 0x00#8, 0x59#8, 0x40#8, 0x00#8, 0x00#8, 0x00#8, 0x00#8, 0x00#8, 0x00#8, 0x49#8, 0x40#8]⟩ =
    .ok (.mLoadarm 0x4024000000000000#64 0x4034000000000000#64 0x4059000000000000#64 0x4049000000000000#64) := by decide

theorem test_decode_mPz : decode defaultCommands ⟨.request, [0x23#8, 0x2B#8]⟩ =
    .ok (.mPz 43#8) := by decide

theorem test_decode_mZ2i : decode defaultCommands ⟨.request, [0x24#8, 0x00#8, 0x00#8, 0x00#8, 0x00#8, 0x00#8, 0x00#8, 0x49#8, 0x40#8]⟩ =
    .ok (.mZ2i 0x4049000000000000#64) := by decide

theorem test_decode_mI2r : decode defaultCommands ⟨.request, [0x25#8, 0x40#8]⟩ =
    .ok (.mI2r 64#8) := by decide

theorem test_decode_mTeta : decode defaultCommands ⟨.request, [0x26#8, 0x00#8, 0x00#8, 0x00#8, 0x00#8, 0x00#8, 0x00#8, 0x08#8, 0x40#8, 0x00#8, 0x00#8, 0x00#8, 0x00#8, 0x00#8, 0x00#8, 0x10#8, 0x40#8]⟩ =
    .ok (.mTeta 0x4008000000000000#64 0x4010000000000000#64) := by decide

theorem test_decode_cmdASetpos : decode defaultCommands ⟨.wireA, [0x55#8, 0x55#8, 0x08#8, 0x03#8, 0x01#8, 0xE8#8, 0x03#8, 0x03#8, 0xF4#8, 0x01#8] ++ List.replicate 54 0#8⟩ =
    .ok (.cmdASetpos 1000#16 [⟨3#8, 500#16⟩]) := by decide

theorem test_decode_cmdAGetpos : decode defaultCommands ⟨.wireA, [0x55#8, 0x55#8, 0x06#8, 0x15#8, 0x03#8, 0x01#8, 0x02#8, 0x03#8] ++ List.replicate 56 0#8⟩ =
    .ok (.cmdAGetpos [1#8, 2#8, 3#8]) := by decide

theorem test_decode_cmdAStop : decode defaultCommands ⟨.wireA, [0x55#8, 0x55#8, 0x05#8, 0x14#8, 0x02#8, 0x01#8, 0x06#8] ++ List.replicate 57 0#8⟩ =
    .ok (.cmdAStop [1#8, 6#8]) := by decide

theorem test_decode_cmdABatt : decode defaultCommands ⟨.wireA, [0x55#8, 0x55#8, 0x02#8, 0x0F#8] ++ List.replicate 60 0#8⟩ =
    .ok (.cmdABatt) := by decide

theorem test_decode_moveTimeWrite : decode defaultCommands ⟨.wireB, [0x55#8, 0x55#8, 0x01#8, 0x07#8, 0x01#8, 0xF4#8, 0x01#8, 0xE8#8, 0x03#8, 0x16#8]⟩ =
    .ok (.moveTimeWrite 1#8 500#16 1000#16) := by decide

theorem test_decode_moveTimeRead : decode defaultCommands ⟨.wireB, [0x55#8, 0x55#8, 0x01#8, 0x03#8, 0x02#8, 0xF9#8]⟩ =
    .ok (.moveTimeRead 1#8) := by decide

theorem test_decode_moveTimeWaitWrite : decode defaultCommands ⟨.wireB, [0x55#8, 0x55#8, 0x01#8, 0x07#8, 0x07#8, 0xF4#8, 0x01#8, 0xE8#8, 0x03#8, 0x10#8]⟩ =
    .ok (.moveTimeWaitWrite 1#8 500#16 1000#16) := by decide

theorem test_decode_moveTimeWaitRead : decode defaultCommands ⟨.wireB, [0x55#8, 0x55#8, 0x01#8, 0x03#8, 0x08#8, 0xF3#8]⟩ =
    .ok (.moveTimeWaitRead 1#8) := by decide

theorem test_decode_moveStart : decode defaultCommands ⟨.wireB, [0x55#8, 0x55#8, 0x01#8, 0x03#8, 0x0B#8, 0xF0#8]⟩ =
    .ok (.moveStart 1#8) := by decide

theorem test_decode_moveStop : decode defaultCommands ⟨.wireB, [0x55#8, 0x55#8, 0x01#8, 0x03#8, 0x0C#8, 0xEF#8]⟩ =
    .ok (.moveStop 1#8) := by decide

theorem test_decode_idWrite : decode defaultCommands ⟨.wireB, [0x55#8, 0x55#8, 0x01#8, 0x04#8, 0x0D#8, 0x09#8, 0xE4#8]⟩ =
    .ok (.idWrite 1#8 9#8) := by decide

theorem test_decode_idRead : decode defaultCommands ⟨.wireB, [0x55#8, 0x55#8, 0x01#8, 0x03#8, 0x0E#8, 0xED#8]⟩ =
    .ok (.idRead 1#8) := by decide

theorem test_decode_angleOffsetAdjust : decode defaultCommands ⟨.wireB, [0x55#8, 0x55#8, 0x01#8, 0x04#8, 0x11#8, 0xFB#8, 0xEE#8]⟩ =
    .ok (.angleOffsetAdjust 1#8 0xFB#8) := by decide

theorem test_decode_angleOffsetWrite : decode defaultCommands ⟨.wireB, [0x55#8, 0x55#8, 0x01#8, 0x03#8, 0x12#8, 0xE9#8]⟩ =
    .ok (.angleOffsetWrite 1#8) := by decide

theorem test_decode_angleOffsetRead : decode defaultCommands ⟨.wireB, [0x55#8, 0x55#8, 0x01#8, 0x03#8, 0x13#8, 0xE8#8]⟩ =
    .ok (.angleOffsetRead 1#8) := by decide

theorem test_decode_angleLimitWrite : decode defaultCommands ⟨.wireB, [0x55#8, 0x55#8, 0x01#8, 0x07#8, 0x14#8, 0x00#8, 0x00#8, 0xE8#8, 0x03#8, 0xF8#8]⟩ =
    .ok (.angleLimitWrite 1#8 0#16 1000#16) := by decide

theorem test_decode_angleLimitRead : decode defaultCommands ⟨.wireB, [0x55#8, 0x55#8, 0x01#8, 0x03#8, 0x15#8, 0xE6#8]⟩ =
    .ok (.angleLimitRead 1#8) := by decide

theorem test_decode_vinLimitWrite : decode defaultCommands ⟨.wireB, [0x55#8, 0x55#8, 0x01#8, 0x07#8, 0x16#8, 0x94#8, 0x11#8, 0xE0#8, 0x2E#8, 0x2E#8]⟩ =
    .ok (.vinLimitWrite 1#8 4500#16 12000#16) := by decide

theorem test_decode_vinLimitRead : decode defaultCommands ⟨.wireB, [0x55#8, 0x55#8, 0x01#8, 0x03#8, 0x17#8, 0xE4#8]⟩ =
    .ok (.vinLimitRead 1#8) := by decide

theorem test_decode_tempMaxLimitWrite : decode defaultCommands ⟨.wireB, [0x55#8, 0x55#8, 0x01#8, 0x04#8, 0x18#8, 0x55#8, 0x8D#8]⟩ =
    .ok (.tempMaxLimitWrite 1#8 85#8) := by decide

theorem test_decode_tempMaxLimitRead : decode defaultCommands ⟨.wireB, [0x55#8, 0x55#8, 0x01#8, 0x03#8, 0x19#8, 0xE2#8]⟩ =
    .ok (.tempMaxLimitRead 1#8) := by decide

theorem test_decode_tempRead : decode defaultCommands ⟨.wireB, [0x55#8, 0x55#8, 0x01#8, 0x03#8, 0x1A#8, 0xE1#8]⟩ =
    .ok (.tempRead 1#8) := by decide

theorem test_decode_vinRead : decode defaultCommands ⟨.wireB, [0x55#8, 0x55#8, 0x01#8, 0x03#8, 0x1B#8, 0xE0#8]⟩ =
    .ok (.vinRead 1#8) := by decide

theorem test_decode_posRead : decode defaultCommands ⟨.wireB, [0x55#8, 0x55#8, 0x01#8, 0x03#8, 0x1C#8, 0xDF#8]⟩ =
    .ok (.posRead 1#8) := by decide

theorem test_decode_orMotorModeWrite : decode defaultCommands ⟨.wireB, [0x55#8, 0x55#8, 0x01#8, 0x07#8, 0x1D#8, 0x01#8, 0x00#8, 0x2C#8, 0xFF#8, 0xAE#8]⟩ =
    .ok (.orMotorModeWrite 1#8 1#8 0#8 0x2C#8 0xFF#8) := by decide

theorem test_decode_orMotorModeRead : decode defaultCommands ⟨.wireB, [0x55#8, 0x55#8, 0x01#8, 0x03#8, 0x1E#8, 0xDD#8]⟩ =
    .ok (.orMotorModeRead 1#8) := by decide

theorem test_decode_loadOrUnloadWrite : decode defaultCommands ⟨.wireB, [0x55#8, 0x55#8, 0x01#8, 0x04#8, 0x1F#8, 0x01#8, 0xDA#8]⟩ =
    .ok (.loadOrUnloadWrite 1#8 1#8) := by decide

theorem test_decode_loadOrUnloadRead : decode defaultCommands ⟨.wireB, [0x55#8, 0x55#8, 0x01#8, 0x03#8, 0x20#8, 0xDB#8]⟩ =
    .ok (.loadOrUnloadRead 1#8) := by decide

theorem test_decode_ledCtrlWrite : decode defaultCommands ⟨.wireB, [0x55#8, 0x55#8, 0x01#8, 0x04#8, 0x21#8, 0x01#8, 0xD8#8]⟩ =
    .ok (.ledCtrlWrite 1#8 1#8) := by decide

theorem test_decode_ledCtrlRead : decode defaultCommands ⟨.wireB, [0x55#8, 0x55#8, 0x01#8, 0x03#8, 0x22#8, 0xD9#8]⟩ =
    .ok (.ledCtrlRead 1#8) := by decide

theorem test_decode_ledErrorWrite : decode defaultCommands ⟨.wireB, [0x55#8, 0x55#8, 0x01#8, 0x04#8, 0x23#8, 0x07#8, 0xD0#8]⟩ =
    .ok (.ledErrorWrite 1#8 7#8) := by decide

theorem test_decode_ledErrorRead : decode defaultCommands ⟨.wireB, [0x55#8, 0x55#8, 0x01#8, 0x03#8, 0x24#8, 0xD7#8]⟩ =
    .ok (.ledErrorRead 1#8) := by decide

/-- The signature alone is no command frame. -/
theorem test_decode_notACommandFrame : decode defaultCommands ⟨.wireB, [0x55#8, 0x55#8, 0x01#8, 0x03#8, 0x63#8, 0x98#8]⟩ =
    .error .notACommandFrame := by decide

theorem test_decode_shortRecord : decode defaultCommands ⟨.request, [0x11#8, 0x01#8, 0xF4#8]⟩ = .error .shortRecord := by decide

theorem test_decode_notABit : decode defaultCommands ⟨.request, [0x01#8, 0x0F#8, 0x02#8, 0x00#8]⟩ = .error .notABit := by decide

/-! ### Rows of spec/opcode_table.json as table words -/

theorem test_tableWord_request : decodeTableWord 8 0x05 = some .aBatt := by decide +kernel

theorem test_tableWord_wireA : decodeTableWord 32 0x55550003 = some (.cmdASetpos 0#16 []) := by decide +kernel

theorem test_tableWord_wireB : decodeTableWord 40 0x5555000701 = some (.moveTimeWrite 0#8 0#16 0#16) := by
  decide +kernel

theorem test_withFetchWord : step (State.reset.withFetchWord 40 0x555500031C) = exec (.posRead 0#8) State.reset := by
  have h : decode State.reset.params.commands (tableRequest 40 0x555500031C) = .ok (.posRead 0#8) := by decide +kernel
  have h' : ∀ s : State, s.faults = [] → s.refused = false → s.params = State.reset.params →
      step (s.withFetchWord 40 0x555500031C) = exec (.posRead 0#8) (withRequests s.requests s) := by
    intro s hf hr hp
    simp [step, State.withFetchWord, takeRequest, hf, hr, hp, h, withRequests]
  exact h' _ rfl rfl rfl

/-! ### One step of each operation, against 95_test_vectors.md -/

/-- The state an operation leaves. -/
def after (i : Instr) (s : State) : Option State :=
  match exec i s with
  | .next t => some t
  | _ => none

/-- The unit A frame an operation offers from reset, without its padding of `n` zeros. -/
def frameOfA (i : Instr) : Option (List Byte) := (after i State.reset).bind offeredA

/-- The unit B frame an operation offers from reset. -/
def frameOfB (i : Instr) : Option (List Byte) := (after i State.reset).bind offeredB

/-- What an operation answers: `STATUS`, `INFO` and `OUTSTANDING`. -/
def answer (i : Instr) (s : State) : Option (Byte × Info × Option Pending) :=
  (after i s).map fun t => (t.status, t.info, t.outstanding)

/-- What an operation returns. -/
def result (i : Instr) (s : State) : Option Result := (after i s).map State.result

/-- The block after reset with the numeric parameters given. -/
def configured (m : Config.Midpoint) (sin cos atan : Config.FunTable) : State :=
  { State.reset with params := { givenParams with numeric := ⟨m, sin, cos, atan⟩ } }

/-- A block that awaits the reply `cmd` of a unit and has received `f`. -/
def awaiting (u : CodecUnit) (cmd : Byte) (f : List Byte) : State :=
  setOutstanding (some ⟨u, cmd⟩) (loadRxa f (loadRxb f State.reset))

/-- §2.1. -/
theorem test_frame_aEnc : frameOfA (.aEnc 0x0F#8 true []) =
    some ([0x55#8, 0x55#8, 0x02#8, 0x0F#8] ++ List.replicate 60 0#8) := by decide +kernel

/-- §2.1. -/
theorem test_answer_aEnc : answer (.aEnc 0x77#8 false (List.replicate 61 0#8)) State.reset =
    some (0x10#8, ⟨0#8, 0#16, 0#16, 1#8⟩, none) := by decide +kernel

/-- §2.1. -/
theorem test_frame_aSetpos : frameOfA (.aSetpos 2000#16 [⟨1#8, 100#16⟩, ⟨6#8, 1000#16⟩]) =
    some ([0x55#8, 0x55#8, 0x0B#8, 0x03#8, 0x02#8, 0xD0#8, 0x07#8, 0x01#8, 0x64#8, 0x00#8, 0x06#8, 0xE8#8, 0x03#8] ++ List.replicate 51 0#8) := by decide +kernel

/-- §2.1. -/
theorem test_frame_aGetpos : frameOfA (.aGetpos [1#8, 2#8, 3#8]) =
    some ([0x55#8, 0x55#8, 0x06#8, 0x15#8, 0x03#8, 0x01#8, 0x02#8, 0x03#8] ++ List.replicate 56 0#8) := by decide +kernel

/-- §2.1. -/
theorem test_answer_aGetpos : answer (.aGetpos [1#8]) State.reset =
    some (0x00#8, ⟨0#8, 0#16, 0#16, 0#8⟩, some ⟨.a, 0x15#8⟩) := by decide +kernel

/-- §2.1. -/
theorem test_frame_aStop : frameOfA (.aStop [1#8, 2#8, 3#8, 4#8, 5#8, 6#8]) =
    some ([0x55#8, 0x55#8, 0x09#8, 0x14#8, 0x06#8, 0x01#8, 0x02#8, 0x03#8, 0x04#8, 0x05#8, 0x06#8] ++ List.replicate 53 0#8) := by decide +kernel

/-- §2.1. -/
theorem test_frame_aBatt : frameOfA (.aBatt) =
    some ([0x55#8, 0x55#8, 0x02#8, 0x0F#8] ++ List.replicate 60 0#8) := by decide +kernel

/-- §2.2: `A.RXLOAD` of 65 bytes. -/
theorem test_answer_aRxload : answer (.aRxload (List.replicate 65 0#8)) State.reset =
    some (0x10#8, ⟨0#8, 0#16, 0#16, 11#8⟩, none) := by decide +kernel

/-- §3 P2, step 2. -/
theorem test_load_aRxload : (after (.aRxload [0x55#8, 0x55#8, 0x09#8]) State.reset).map (fun t => (t.rxa, t.rxaCount)) =
    some ([(0, 0x55#8), (1, 0x55#8), (2, 0x09#8)], 3#8) := by decide +kernel

/-- §2.2. -/
theorem test_result_aDec : result (.aDec 0x0F#8 2#8) (awaiting .a 0x0F#8 [0x55#8, 0x55#8, 0x04#8, 0x0F#8, 0xE8#8, 0x1C#8]) =
    some { noResult with plen := some 2#8, payload := [(0, 0xE8#8), (1, 0x1C#8)] } := by decide +kernel

/-- §2.2. -/
theorem test_answer_aDec : answer (.aDec 0x0F#8 2#8) (awaiting .a 0x0F#8 [0x55#8, 0x55#8, 0x04#8, 0x0F#8, 0xE8#8]) =
    some (0x04#8, ⟨0#8, 0#16, 0#16, 0#8⟩, none) := by decide +kernel

/-- §2.2. -/
theorem test_result_aDecpos : result (.aDecpos [1#8, 2#8, 3#8]) (awaiting .a 0x15#8 [0x55#8, 0x55#8, 0x0B#8, 0x15#8, 0x03#8, 0x01#8, 0xF4#8, 0x01#8, 0x02#8, 0xE8#8, 0x03#8, 0x03#8, 0x00#8, 0x00#8]) =
    some { noResult with n := some 3#8, ids := [(0, 1#8), (1, 2#8), (2, 3#8)], pos := [(0, 500#16), (1, 1000#16), (2, 0#16)] } := by decide +kernel

/-- §2.2. -/
theorem test_answer_aDecpos : answer (.aDecpos [3#8]) (awaiting .a 0x15#8 [0x55#8, 0x55#8, 0x06#8, 0x15#8, 0x01#8, 0x04#8, 0xF4#8, 0x01#8]) =
    some (0x04#8, ⟨0#8, 0#16, 0#16, 0#8⟩, none) := by decide +kernel

/-- §2.2. -/
theorem test_result_aDecbatt : result (.aDecbatt) (awaiting .a 0x0F#8 [0x55#8, 0x55#8, 0x04#8, 0x0F#8, 0xE8#8, 0x1C#8]) =
    some { noResult with val := some 7400#16 } := by decide +kernel

/-- §2.3. -/
theorem test_frame_bEnc : frameOfB (.bEnc 99#8 7#8 false [1#8, 2#8]) =
    some [0x55#8, 0x55#8, 0x07#8, 0x05#8, 0x63#8, 0x01#8, 0x02#8, 0x8D#8] := by decide +kernel

/-- §2.3. -/
theorem test_answer_bEnc : answer (.bEnc 28#8 1#8 false []) State.reset =
    some (0x00#8, ⟨0#8, 0#16, 0#16, 0#8⟩, some ⟨.b, 28#8⟩) := by decide +kernel

/-- §2.3. -/
theorem test_frame_bMove : frameOfB (.bMove 5#8 1000#16 30000#16) =
    some [0x55#8, 0x55#8, 0x05#8, 0x07#8, 0x01#8, 0xE8#8, 0x03#8, 0x30#8, 0x75#8, 0x62#8] := by decide +kernel

/-- §2.3. -/
theorem test_answer_bMove : answer (.bMove 1#8 2000#16 40000#16) State.reset =
    some (0x01#8, ⟨1#8, 0#16, 1000#16, 0#8⟩, none) := by decide +kernel

/-- §2.3. -/
theorem test_frame_bMovew : frameOfB (.bMovew 1#8 500#16 1000#16) =
    some [0x55#8, 0x55#8, 0x01#8, 0x07#8, 0x07#8, 0xF4#8, 0x01#8, 0xE8#8, 0x03#8, 0x10#8] := by decide +kernel

/-- §2.3. -/
theorem test_frame_bAnglim : frameOfB (.bAnglim 1#8 500#16 500#16) =
    some [0x55#8, 0x55#8, 0x01#8, 0x07#8, 0x14#8, 0xF4#8, 0x01#8, 0xF4#8, 0x01#8, 0xF9#8] := by decide +kernel

/-- §2.3. -/
theorem test_answer_bAnglim : answer (.bAnglim 1#8 600#16 500#16) State.reset =
    some (0x01#8, ⟨3#8, 0#16, 500#16, 0#8⟩, none) := by decide +kernel

/-- §2.3. -/
theorem test_frame_bVinlim : frameOfB (.bVinlim 1#8 12000#16 4500#16) =
    some [0x55#8, 0x55#8, 0x01#8, 0x07#8, 0x16#8, 0xE0#8, 0x2E#8, 0x94#8, 0x11#8, 0x2E#8] := by decide +kernel

/-- §2.3. -/
theorem test_answer_bVinlim : answer (.bVinlim 1#8 4500#16 12001#16) State.reset =
    some (0x01#8, ⟨6#8, 4500#16, 12000#16, 0#8⟩, none) := by decide +kernel

/-- §2.3. -/
theorem test_frame_bTemplim : frameOfB (.bTemplim 1#8 85#16) =
    some [0x55#8, 0x55#8, 0x01#8, 0x04#8, 0x18#8, 0x55#8, 0x8D#8] := by decide +kernel

/-- §2.3. -/
theorem test_answer_bTemplim : answer (.bTemplim 1#8 306#16) State.reset =
    some (0x01#8, ⟨7#8, 50#16, 100#16, 0#8⟩, none) := by decide +kernel

/-- §2.3: `B.RXLOAD` of 259 bytes. -/
theorem test_answer_bRxload : answer (.bRxload (List.replicate 259 0#8)) State.reset =
    some (0x10#8, ⟨0#8, 0#16, 0#16, 11#8⟩, none) := by decide +kernel

/-- §2.3. -/
theorem test_result_bDec : result (.bDec 14#8 254#8) (awaiting .b 14#8 [0x55#8, 0x55#8, 0x03#8, 0x04#8, 0x0E#8, 0x03#8, 0xE7#8]) =
    some { noResult with plen := some 1#8, payload := [(0, 3#8)], byte := some 3#8 } := by decide +kernel

/-- §1 E4. -/
theorem test_answer_bDec : answer (.bDec 28#8 2#8) (awaiting .b 28#8 [0x55#8, 0x55#8, 0x01#8, 0x05#8, 0x1C#8, 0xF4#8, 0x01#8, 0xE8#8]) =
    some (0x06#8, ⟨0#8, 0#16, 0#16, 0#8⟩, none) := by decide +kernel

/-- §1 E2'. -/
theorem test_result_bChk : result (.bChk [0x01#8, 0x07#8, 0x01#8, 0xF4#8, 0x01#8, 0xE8#8, 0x03#8]) State.reset =
    some { noResult with byte := some 0x16#8 } := by decide +kernel

/-- §2.4: 2.5 in 0.0 to 1000.0 is an exact half, taken as `ROUND_MIDPOINT` says. -/
theorem test_result_mA2r :
    result (.mA2r 0x4004000000000000#64 0#64 0x408F400000000000#64) (configured .toEven [] [] []) =
      some { noResult with int := some 2#32 } ∧
    result (.mA2r 0x4004000000000000#64 0#64 0x408F400000000000#64) (configured .awayFromZero [] [] []) =
      some { noResult with int := some 3#32 } := by decide +kernel

/-- §2.4: `max - min` overflows. -/
theorem test_answer_mA2r : answer (.mA2r 0x3FF0000000000000#64 0xFFE1CCF385EBC8A0#64 0x7FE1CCF385EBC8A0#64) State.reset =
    some (0x10#8, ⟨0#8, 0#16, 0#16, 4#8⟩, none) := by decide +kernel

/-- §2.4. -/
theorem test_result_mR2a : result (.mR2a 1#32 0xC056800000000000#64 0x4056800000000000#64) State.reset =
    some { noResult with f64 := some 0xC056747AE147AE14#64 } := by decide +kernel

/-- §2.4. -/
theorem test_result_mR2a_clamped : result (.mR2a 1200#32 0xC056800000000000#64 0x4056800000000000#64) State.reset =
    some { noResult with f64 := some 0x4056800000000000#64 } := by decide +kernel

/-- §2.4. -/
theorem test_answer_mLoadarm : answer (.mLoadarm 0xBFF0000000000000#64 0x0000000000000000#64 0x0000000000000000#64 0x0000000000000000#64) State.reset =
    some (0x10#8, ⟨0#8, 0#16, 0#16, 6#8⟩, none) := by decide +kernel

/-- §2.4: the operand check comes first. -/
theorem test_answer_mPz : answer (.mPz 128#8) State.reset =
    some (0x10#8, ⟨0#8, 0#16, 0#16, 9#8⟩, none) := by decide +kernel

/-- §2.4. -/
theorem test_answer_mZ2i : answer (.mZ2i 0x3FF0000000000000#64) State.reset =
    some (0x10#8, ⟨0#8, 0#16, 0#16, 8#8⟩, none) := by decide +kernel

/-- §2.4: index 12 gives exactly 862.5, where the two rounding modes differ. -/
theorem test_result_mI2r :
    result (.mI2r 12#8) (configured .toEven [] [] []) = some { noResult with int := some 862#32 } ∧
    result (.mI2r 12#8) (configured .awayFromZero [] [] []) = some { noResult with int := some 863#32 } := by
  decide +kernel

/-- §2.4. -/
theorem test_answer_mI2r : answer (.mI2r 128#8) State.reset =
    some (0x10#8, ⟨0#8, 0#16, 0#16, 9#8⟩, none) := by decide +kernel

/-- §2.4. -/
theorem test_answer_mTeta : answer (.mTeta 0x8000000000000000#64 0x0000000000000000#64) State.reset =
    some (0x10#8, ⟨0#8, 0#16, 0#16, 10#8⟩, none) := by decide +kernel

/-- §2.4: 3, 4 with an arctangent that has 0.75 in its table. -/
theorem test_result_mTeta : result (.mTeta 0x4008000000000000#64 0x4010000000000000#64)
      (configured .toEven [] [] [(0x3FE8000000000000#64, 0x3FE4978FA3269EE1#64)]) =
    some { noResult with f64 := some 0x3FEDAC670561BB4F#64 } := by decide +kernel

/-- §2.4: entry 64 of lengths 10, 20, 100 and 50, with the sines and the cosine it needs in the tables. -/
theorem test_heightEntry : heightEntry
      ⟨.toEven, [(0x3FE921FB54442D18#64, 0x3FE6A09E667F3BCC#64), (0x4002D97C7F3321D2#64, 0x3FE6A09E667F3BCD#64)],
        [(0x3FF921FB54442D18#64, 0x3C91A62633145C07#64)], []⟩
      0x4024000000000000#64 0x4034000000000000#64 0x4059000000000000#64 0x4049000000000000#64 64 =
    0x405C68EF6011760B#64 := by decide +kernel

/-- §2.4: 0.3 is the exact end of the range 0.1 to 0.3 for raw 1000. -/
theorem test_binary64_rounds : r2aValue 1000#32 0x3FB999999999999A#64 0x3FD3333333333333#64 = 0x3FD3333333333333#64 := by decide +kernel

/-- §1 E1. -/
theorem test_frame_cmdASetpos : frameOfA (.cmdASetpos 1000#16 [⟨3#8, 500#16⟩]) =
    some ([0x55#8, 0x55#8, 0x08#8, 0x03#8, 0x01#8, 0xE8#8, 0x03#8, 0x03#8, 0xF4#8, 0x01#8] ++ List.replicate 54 0#8) := by decide +kernel

/-- §3 P5. -/
theorem test_frame_cmdAGetpos : frameOfA (.cmdAGetpos [3#8]) =
    some ([0x55#8, 0x55#8, 0x04#8, 0x15#8, 0x01#8, 0x03#8] ++ List.replicate 58 0#8) := by decide +kernel

/-- §3 P1. -/
theorem test_frame_cmdAStop : frameOfA (.cmdAStop [1#8, 6#8]) =
    some ([0x55#8, 0x55#8, 0x05#8, 0x14#8, 0x02#8, 0x01#8, 0x06#8] ++ List.replicate 57 0#8) := by decide +kernel

/-- §2.1. -/
theorem test_frame_cmdABatt : frameOfA (.cmdABatt) =
    some ([0x55#8, 0x55#8, 0x02#8, 0x0F#8] ++ List.replicate 60 0#8) := by decide +kernel

/-- §2.3. -/
theorem test_frame_moveTimeWrite : frameOfB (.moveTimeWrite 1#8 500#16 1000#16) =
    some [0x55#8, 0x55#8, 0x01#8, 0x07#8, 0x01#8, 0xF4#8, 0x01#8, 0xE8#8, 0x03#8, 0x16#8] := by decide +kernel

/-- 30_encoding.md R73 and R79. -/
theorem test_frame_moveTimeRead : frameOfB (.moveTimeRead 1#8) =
    some [0x55#8, 0x55#8, 0x01#8, 0x03#8, 0x02#8, 0xF9#8] := by decide +kernel

/-- §2.3. -/
theorem test_frame_moveTimeWaitWrite : frameOfB (.moveTimeWaitWrite 1#8 500#16 1000#16) =
    some [0x55#8, 0x55#8, 0x01#8, 0x07#8, 0x07#8, 0xF4#8, 0x01#8, 0xE8#8, 0x03#8, 0x10#8] := by decide +kernel

/-- 30_encoding.md R73 and R79. -/
theorem test_frame_moveTimeWaitRead : frameOfB (.moveTimeWaitRead 1#8) =
    some [0x55#8, 0x55#8, 0x01#8, 0x03#8, 0x08#8, 0xF3#8] := by decide +kernel

/-- 30_encoding.md R73 and R79. -/
theorem test_frame_moveStart : frameOfB (.moveStart 1#8) =
    some [0x55#8, 0x55#8, 0x01#8, 0x03#8, 0x0B#8, 0xF0#8] := by decide +kernel

/-- 30_encoding.md R73 and R79. -/
theorem test_frame_moveStop : frameOfB (.moveStop 1#8) =
    some [0x55#8, 0x55#8, 0x01#8, 0x03#8, 0x0C#8, 0xEF#8] := by decide +kernel

/-- 30_encoding.md R73 and R79. -/
theorem test_frame_idWrite : frameOfB (.idWrite 1#8 9#8) =
    some [0x55#8, 0x55#8, 0x01#8, 0x04#8, 0x0D#8, 0x09#8, 0xE4#8] := by decide +kernel

/-- 30_encoding.md R73 and R79. -/
theorem test_frame_idRead : frameOfB (.idRead 1#8) =
    some [0x55#8, 0x55#8, 0x01#8, 0x03#8, 0x0E#8, 0xED#8] := by decide +kernel

/-- 30_encoding.md R73 and R79. -/
theorem test_frame_angleOffsetAdjust : frameOfB (.angleOffsetAdjust 1#8 0xFB#8) =
    some [0x55#8, 0x55#8, 0x01#8, 0x04#8, 0x11#8, 0xFB#8, 0xEE#8] := by decide +kernel

/-- 30_encoding.md R73 and R79. -/
theorem test_frame_angleOffsetWrite : frameOfB (.angleOffsetWrite 1#8) =
    some [0x55#8, 0x55#8, 0x01#8, 0x03#8, 0x12#8, 0xE9#8] := by decide +kernel

/-- 30_encoding.md R73 and R79. -/
theorem test_frame_angleOffsetRead : frameOfB (.angleOffsetRead 1#8) =
    some [0x55#8, 0x55#8, 0x01#8, 0x03#8, 0x13#8, 0xE8#8] := by decide +kernel

/-- §2.3. -/
theorem test_frame_angleLimitWrite : frameOfB (.angleLimitWrite 1#8 0#16 1000#16) =
    some [0x55#8, 0x55#8, 0x01#8, 0x07#8, 0x14#8, 0x00#8, 0x00#8, 0xE8#8, 0x03#8, 0xF8#8] := by decide +kernel

/-- 30_encoding.md R73 and R79. -/
theorem test_frame_angleLimitRead : frameOfB (.angleLimitRead 1#8) =
    some [0x55#8, 0x55#8, 0x01#8, 0x03#8, 0x15#8, 0xE6#8] := by decide +kernel

/-- §2.3. -/
theorem test_frame_vinLimitWrite : frameOfB (.vinLimitWrite 1#8 4500#16 12000#16) =
    some [0x55#8, 0x55#8, 0x01#8, 0x07#8, 0x16#8, 0x94#8, 0x11#8, 0xE0#8, 0x2E#8, 0x2E#8] := by decide +kernel

/-- 30_encoding.md R73 and R79. -/
theorem test_frame_vinLimitRead : frameOfB (.vinLimitRead 1#8) =
    some [0x55#8, 0x55#8, 0x01#8, 0x03#8, 0x17#8, 0xE4#8] := by decide +kernel

/-- §2.3. -/
theorem test_frame_tempMaxLimitWrite : frameOfB (.tempMaxLimitWrite 1#8 85#8) =
    some [0x55#8, 0x55#8, 0x01#8, 0x04#8, 0x18#8, 0x55#8, 0x8D#8] := by decide +kernel

/-- 30_encoding.md R73 and R79. -/
theorem test_frame_tempMaxLimitRead : frameOfB (.tempMaxLimitRead 1#8) =
    some [0x55#8, 0x55#8, 0x01#8, 0x03#8, 0x19#8, 0xE2#8] := by decide +kernel

/-- 30_encoding.md R73 and R79. -/
theorem test_frame_tempRead : frameOfB (.tempRead 1#8) =
    some [0x55#8, 0x55#8, 0x01#8, 0x03#8, 0x1A#8, 0xE1#8] := by decide +kernel

/-- 30_encoding.md R73 and R79. -/
theorem test_frame_vinRead : frameOfB (.vinRead 1#8) =
    some [0x55#8, 0x55#8, 0x01#8, 0x03#8, 0x1B#8, 0xE0#8] := by decide +kernel

/-- §2.3. -/
theorem test_frame_posRead : frameOfB (.posRead 1#8) =
    some [0x55#8, 0x55#8, 0x01#8, 0x03#8, 0x1C#8, 0xDF#8] := by decide +kernel

/-- 30_encoding.md R73 and R79. -/
theorem test_frame_orMotorModeWrite : frameOfB (.orMotorModeWrite 1#8 1#8 0#8 0x2C#8 0xFF#8) =
    some [0x55#8, 0x55#8, 0x01#8, 0x07#8, 0x1D#8, 0x01#8, 0x00#8, 0x2C#8, 0xFF#8, 0xAE#8] := by decide +kernel

/-- 30_encoding.md R73 and R79. -/
theorem test_frame_orMotorModeRead : frameOfB (.orMotorModeRead 1#8) =
    some [0x55#8, 0x55#8, 0x01#8, 0x03#8, 0x1E#8, 0xDD#8] := by decide +kernel

/-- 30_encoding.md R73 and R79. -/
theorem test_frame_loadOrUnloadWrite : frameOfB (.loadOrUnloadWrite 1#8 1#8) =
    some [0x55#8, 0x55#8, 0x01#8, 0x04#8, 0x1F#8, 0x01#8, 0xDA#8] := by decide +kernel

/-- 30_encoding.md R73 and R79. -/
theorem test_frame_loadOrUnloadRead : frameOfB (.loadOrUnloadRead 1#8) =
    some [0x55#8, 0x55#8, 0x01#8, 0x03#8, 0x20#8, 0xDB#8] := by decide +kernel

/-- 30_encoding.md R73 and R79. -/
theorem test_frame_ledCtrlWrite : frameOfB (.ledCtrlWrite 1#8 1#8) =
    some [0x55#8, 0x55#8, 0x01#8, 0x04#8, 0x21#8, 0x01#8, 0xD8#8] := by decide +kernel

/-- 30_encoding.md R73 and R79. -/
theorem test_frame_ledCtrlRead : frameOfB (.ledCtrlRead 1#8) =
    some [0x55#8, 0x55#8, 0x01#8, 0x03#8, 0x22#8, 0xD9#8] := by decide +kernel

/-- 30_encoding.md R73 and R79. -/
theorem test_frame_ledErrorWrite : frameOfB (.ledErrorWrite 1#8 7#8) =
    some [0x55#8, 0x55#8, 0x01#8, 0x04#8, 0x23#8, 0x07#8, 0xD0#8] := by decide +kernel

/-- 30_encoding.md R73 and R79. -/
theorem test_frame_ledErrorRead : frameOfB (.ledErrorRead 1#8) =
    some [0x55#8, 0x55#8, 0x01#8, 0x03#8, 0x24#8, 0xD7#8] := by decide +kernel

/-! ### Stops and faults -/

/-- §3 P5: the run ends in the hazard, and the response port keeps the answer before it. -/
theorem test_hazard : (after .aBatt (awaiting .a 0x15#8 [])).map (fun t => (t.faults, t.txaValid, t.outstanding)) =
    some ([.hazardOutstanding], false, some ⟨.a, 0x15#8⟩) := by decide +kernel

/-- §3 P7: a reserved selector is refused. -/
theorem test_refused : (match step (withRequests [⟨.request, [0x07#8]⟩] State.reset) with
    | .next t => some (t.refused, t.requests, t.status)
    | _ => none) = some (true, [], 0x00#8) := by decide +kernel

/-- §3 P4: `M.Z2R` reads no table before `M.LOADARM`. -/
theorem test_z2r : (match runZ2r 0x4049000000000000#64 State.reset with
    | .next t => some (t.status, t.info.reason)
    | _ => none) = some (0x10#8, 8#8) := by decide +kernel

/-- A block whose table has only `MOVE_TIME_WRITE`, a bounded command of another code and length, and a command R79 does not
name. -/
def otherServos : State :=
  { State.reset with params := { givenParams with commands := { defaultCommands with
      table := [⟨some .tempMaxLimitWrite, 50#8, 2, false, none, .temp⟩, ⟨none, 99#8, 0, true, some 3, .unbounded⟩] } } }

/-- R143 with another table: its lengths, bounds and replies, and neither for a command it does not have. -/
theorem test_otherTable :
    answer (.bEnc 50#8 1#8 false [85#8]) otherServos = some (0x10#8, ⟨0#8, 0#16, 0#16, 3#8⟩, none) ∧
    answer (.bEnc 50#8 1#8 false [49#8, 0#8]) otherServos = some (0x01#8, ⟨7#8, 50#16, 100#16, 0#8⟩, none) ∧
    (after (.bEnc 99#8 1#8 false []) otherServos).map State.outstanding = some (some ⟨.b, 99#8⟩) ∧
    (after (.bEnc 28#8 1#8 false []) otherServos).map State.outstanding = some none ∧
    answer (.bEnc 24#8 1#8 false [49#8]) otherServos = some (0x00#8, ⟨0#8, 0#16, 0#16, 0#8⟩, none) := by decide +kernel

/-- The session after the host opened the transport, the block ran `i` from `s`, and the host wrote the frame it then
could. -/
def writtenAfter (i : Instr) (s : State) : Option (Option (List Byte) × Option (List Byte)) :=
  (after i s).map fun t =>
    let c := afterOperation i t (openTransport true newSession)
    let f := writable .a t c
    (f, writable .a t (match f with | some b => afterWrite .a b c | none => c))

/-- A block whose host uses the USB transport. -/
def usbHost : State := { State.reset with params := { givenParams with transportKind := .usb } }

/-- R261, R263 and R269: nothing before `open` or after `close`, and the frame of an encode once. -/
theorem test_writable :
    writtenAfter .aBatt usbHost = some (frameOfA .aBatt, none) ∧
    (after .aBatt usbHost).map (fun t => writable .a t (afterOperation .aBatt t newSession)) = some none ∧
    (after .aBatt usbHost).map
      (fun t => writable .a t (closeTransport (afterOperation .aBatt t (openTransport true newSession)))) = some none := by
  decide +kernel

/-- R268: 64 bytes are the most the USB transport takes. -/
theorem test_transportAccepts : transportAccepts .usb (List.replicate 64 0#8) = true ∧
    transportAccepts .usb (List.replicate 65 0#8) = false ∧ transportAccepts .serial (List.replicate 65 0#8) = true := by
  decide +kernel

/-- R270: the unit that sent the frame, and the ids in the order they were sent. -/
theorem test_expectations :
    expectationsMatch defaultCommands ⟨.a, frameA 0x15#8 (idsPayload [1#8, 2#8])⟩ (.aDecpos [1#8, 2#8]) = true ∧
    expectationsMatch defaultCommands ⟨.a, frameA 0x15#8 (idsPayload [1#8, 2#8])⟩ (.aDecpos [2#8, 1#8]) = false ∧
    expectationsMatch defaultCommands ⟨.b, frameB 28#8 1#8 []⟩ (.bDec 28#8 1#8) = true ∧
    expectationsMatch defaultCommands ⟨.b, frameB 28#8 1#8 []⟩ (.aDec 3#8 0#8) = false ∧
    expectationsMatch defaultCommands ⟨.a, frameA 0x15#8 (idsPayload [1#8, 3#8])⟩ (.bDec 2#8 4#8) = false := by
  decide +kernel

/-- R271: the duration of a set-position frame, whichever encode made it, and none for a stop. -/
theorem test_pacing :
    pacing defaultCommands true ⟨.a, frameA 3#8 (setposPayload 1000#16 [⟨3#8, 500#16⟩])⟩ = some 1000#16 ∧
    pacing defaultCommands true ⟨.b, frameB 1#8 1#8 (bytes16 500#16 ++ bytes16 2000#16)⟩ = some 2000#16 ∧
    pacing defaultCommands true ⟨.b, frameB 12#8 1#8 []⟩ = none ∧
    pacing defaultCommands false ⟨.b, frameB 1#8 1#8 (bytes16 500#16 ++ bytes16 2000#16)⟩ = none := by decide +kernel

/-! ### States and operands that meet the hypotheses of the statements

Each `witness_<statement>` gives, for the statement of that name in Certificates/Slice0/Obligations.lean, values that meet
its hypotheses together, and for each of its clauses one at a boundary. -/

/-- A block that has received `f` on both units. -/
def received (f : List Byte) : State := loadRxa f (loadRxb f State.reset)

/-- A block whose unit A battery request awaits its reply, with one request pending. -/
def awaitingBattery : State :=
  withRequests [⟨.request, [0x0A#8]⟩] (setOutstanding (some ⟨.a, 0x0F#8⟩) (loadTxa (frameA 0x0F#8 []) State.reset))

/-- A configuration whose sine, cosine and arctangent are zero, so that every table can be computed. -/
def flat : State := configured .toEven [] [] [(f64Negate 0#64, f64Negate 0#64)]

/-- A block with an arm of length zero loaded. -/
def armed : State := loadArm 0#64 0#64 0#64 0#64 (heightTable flat.params.numeric 0#64 0#64 0#64 0#64) flat

/-- A battery reply (§2.2). -/
def batteryReply : List Byte := [0x55#8, 0x55#8, 0x04#8, 0x0F#8, 0xE8#8, 0x1C#8]

/-- A get-positions reply for servo 3 (§2.2). -/
def positionsReply : List Byte := [0x55#8, 0x55#8, 0x06#8, 0x15#8, 0x01#8, 0x03#8, 0xF4#8, 0x01#8]

/-- A position reply of servo 1 (§1 E4). -/
def positionReplyB : List Byte := [0x55#8, 0x55#8, 0x01#8, 0x05#8, 0x1C#8, 0xF4#8, 0x01#8, 0xE8#8]

theorem written_below {α : Type} (f : List α) (a : Nat) : (cellRead (cellsOf f) a).isSome = true ↔ a < f.length := by
  simp

theorem received_writtenA (f : List Byte) (h : f.length ≤ 64) : RxaWritten (received f) := by
  intro a ha
  have hc : (received f).rxaCount.toNat = f.length := countByte_toNat (by omega)
  rw [hc] at ha
  exact ⟨f[a], by simp [received, ha]⟩

theorem received_holdsB (f : List Byte) (h : f.length ≤ 258) : RxbHolds f (received f) :=
  ⟨countHalf_toNat (by omega), fun j _ => by simp [received]⟩

theorem reset_paramsOk : paramsOk State.reset.params = true := by
  have h := givenAtan_ok
  simp only [paramsOk, State.reset, givenParams, defaultCommands_ok, h]
  simp

theorem flat_paramsOk : paramsOk flat.params = true := by
  have h : atanOk [(f64Negate 0#64, f64Negate 0#64)] = true := by decide +kernel
  simp only [paramsOk, flat, configured, givenParams, defaultCommands_ok, h]
  simp

theorem awaitingBattery_inv : Inv awaitingBattery where
  params := reset_paramsOk
  memory := by decide +kernel
  response := rfl
  status := by decide
  txa := .inr ⟨0x0F#8, [], by decide, rfl⟩
  txaValid := fun _ => by decide +kernel
  rxa := ⟨by decide, fun a => by simp [awaitingBattery, State.reset]⟩
  txb := .inl ⟨rfl, rfl⟩
  txbValid := fun h => by cases h
  rxb := ⟨by decide, fun a => by simp [awaitingBattery, State.reset]⟩
  unarmed := fun _ => ⟨rfl, rfl, rfl, rfl, rfl⟩
  armed := fun h => by cases h
  pendingA := fun cmd h => by cases h; exact ⟨rfl, by decide +kernel⟩
  pendingB := fun cmd h => by cases h

theorem armed_inv : Inv armed where
  params := flat_paramsOk
  memory := by
    have h : cellsWf Config.pzEntries armed.pz = true := cellsWf_cellsOf (by simp [heightTable])
    simp only [memoryWf, h]
    decide
  response := rfl
  status := by decide
  txa := .inl rfl
  txaValid := fun h => by cases h
  rxa := ⟨by decide, fun a => by simp [armed, flat, configured, State.reset]⟩
  txb := .inl ⟨rfl, rfl⟩
  txbValid := fun h => by cases h
  rxb := ⟨by decide, fun a => by simp [armed, flat, configured, State.reset]⟩
  unarmed := fun h => by cases h
  armed := fun _ => ⟨0#64, 0#64, 0#64, 0#64, by decide, rfl, rfl, rfl, rfl, rfl,
    heightTable_zero_finite rfl rfl⟩
  pendingA := fun cmd h => by cases h
  pendingB := fun cmd h => by cases h

/-- The lengths of `armed`, and the same with a negative zero. -/
theorem zeroLengths : ValidLengths 0#64 0#64 0#64 0#64 ∧ ValidLengths 0#64 0#64 0#64 0x8000000000000000#64 := by
  have h0 : f64Finite 0#64 = true ∧ f64Le 0#64 0#64 = true := by decide +kernel
  have h1 : f64Finite 0x8000000000000000#64 = true ∧ f64Le 0#64 0x8000000000000000#64 = true := by decide +kernel
  constructor <;> intro l hl <;> simp only [List.mem_cons, List.not_mem_nil, or_false] at hl
  · rcases hl with rfl | rfl | rfl | rfl <;> exact h0
  · rcases hl with rfl | rfl | rfl | rfl
    · exact h0
    · exact h0
    · exact h0
    · exact h1

theorem armed_cells (i : Nat) (hi : i < 128) : cellRead armed.pz i = some (heightEntry flat.params.numeric 0#64 0#64 0#64 0#64 i) := by
  simp [armed, heightTable, Config.pzEntries, hi]

/-- The longest payload of a request, and the longest of a unit A command frame. -/
theorem witness_DecodeUndoesEncode : commandsOk defaultCommands = true ∧
    commandsOk { otherServos.params.commands with batt := 0x42#8 } = true ∧
    Instr.wellFormed (.aEnc 0#8 true (List.replicate 255 0#8)) = true ∧
    Instr.wellFormed (.cmdASetpos 0#16 (List.replicate 19 ⟨1#8, 2#16⟩)) = true ∧
    Instr.wellFormed (.cmdAStop (List.replicate 59 1#8)) = true := by decide +kernel

theorem witness_RequestPortDecodeIsExact : decode defaultCommands ⟨.request, [0x15#8, 0x01#8, 0x32#8, 0x01#8, 0xFF#8]⟩ =
    .ok (.bTemplim 1#8 306#16) := by decide

theorem witness_StepRunsTheDecodedRequest : awaitingBattery.faults = [] ∧ awaitingBattery.refused = false ∧
    awaitingBattery.requests = ⟨.request, [0x0A#8]⟩ :: [] ∧
    decode awaitingBattery.params.commands ⟨.request, [0x0A#8]⟩ = .ok .aDecbatt := by decide

theorem witness_ReservedSelectorIsRefused :
    (withRequests [⟨.request, 0x07#8 :: []⟩] State.reset).faults = [] ∧
    (withRequests [⟨.request, 0x07#8 :: []⟩] State.reset).refused = false ∧
    (withRequests [⟨.request, 0x07#8 :: []⟩] State.reset).requests = ⟨.request, 0x07#8 :: []⟩ :: [] ∧
    (0x07#8 : Byte).toNat ∉ selectors ∧ (0x00#8 : Byte).toNat ∉ selectors ∧ (0x27#8 : Byte).toNat ∉ selectors ∧
    (0xFF#8 : Byte).toNat ∉ selectors := by decide

theorem witness_EndedOrIdleBlockTakesNothing :
    (addFault .hazardOutstanding State.reset).faults ≠ [] ∧
    ((markRefused State.reset).faults = [] ∧ (markRefused State.reset).refused = true) ∧
    (State.reset.faults = [] ∧ State.reset.refused = false ∧ State.reset.requests = []) := by decide

theorem witness_PendingRequestsKeepTheirOrder :
    (match step awaitingBattery with | .next t => decide (t.requests = []) | _ => false) = true := by decide +kernel

theorem witness_StepKeepsCanonicalMemory : memoryWf awaitingBattery = true ∧
    (match step awaitingBattery with | .next _ => true | _ => false) = true := by decide +kernel

theorem witness_StepKeepsInv : Inv awaitingBattery ∧
    (match step awaitingBattery with | .next _ => true | _ => false) = true :=
  ⟨awaitingBattery_inv, by decide +kernel⟩

/-- For each unit, its first cell unwritten; a valid header with no payload; one echoed id and no position; a table whose
entries are unwritten. -/
theorem witness_NoRuleReadsUnwritten :
    (Inv awaitingBattery ∧ FaultName.readUnwritten ∉ awaitingBattery.faults ∧
      (match exec .aDecbatt awaitingBattery with | .next _ => true | _ => false) = true) ∧
    (4 ≤ { State.reset with rxaCount := 4#8 }.rxaCount.toNat ∧
      cellRead { State.reset with rxaCount := 4#8 }.rxa 0 = none) ∧
    (ValidReplyA 0x0F#8 2 { received (batteryReply.take 5) with rxaCount := 6#8 } ∧
      cellRead { received (batteryReply.take 5) with rxaCount := 6#8 }.rxa (4 + 1) = none) ∧
    (ValidReplyA State.reset.params.commands.getpos (1 + 3 * [3#8].length)
        { received (positionsReply.take 6) with rxaCount := 8#8 } ∧
      (∀ j, j < [3#8].length →
        cellRead { received (positionsReply.take 6) with rxaCount := 8#8 }.rxa (5 + 3 * j) = [3#8][j]?) ∧
      cellRead { received (positionsReply.take 6) with rxaCount := 8#8 }.rxa (6 + 3 * 0) = none) ∧
    (2 ≤ { State.reset with rxbCount := 2#16 }.rxbCount.toNat ∧
      cellRead { State.reset with rxbCount := 2#16 }.rxb 0 = none) ∧
    ({ State.reset with armValid := true }.armValid = true ∧ f64IsNaN 0#64 = false ∧
      cellRead { State.reset with armValid := true }.pz 0 = none) :=
  ⟨⟨awaitingBattery_inv, by decide, by decide +kernel⟩, by decide, ⟨⟨by decide, rfl, rfl, rfl⟩, rfl⟩,
    ⟨⟨by decide, rfl, rfl, rfl⟩, by decide, rfl⟩, by decide, rfl, by decide +kernel, rfl⟩

theorem witness_OutcomeWritesTheResponse : awaitingBattery.faults = [] ∧
    (match exec .aDecbatt awaitingBattery with | .next t => decide (t.faults = []) | _ => false) = true := by
  decide +kernel

/-- An encode that takes `HazardOutstanding`, and a decode that takes `ReadUnwritten`. -/
theorem witness_FaultWritesNothingElse : awaitingBattery.faults = [] ∧
    (match exec .aBatt awaitingBattery with | .next t => decide (t.faults ≠ []) | _ => false) = true ∧
    (match exec .aDecbatt { awaitingBattery with rxaCount := 6#8 } with
      | .next t => decide (t.faults ≠ [] ∧ t.outstanding = none)
      | _ => false) = true := by decide +kernel

theorem witness_EncodeWhileOutstandingTakesHazard : opKind (.bMove 1#8 500#16 1000#16) = .encodeB ∧
    opKind .aBatt = .encodeA ∧ awaitingBattery.outstanding ≠ none ∧ awaitingBattery.faults = [] := by decide

theorem witness_OutstandingFollowsTheOperations :
    (match exec .aDecbatt awaitingBattery with | .next _ => true | _ => false) = true ∧
    (match exec (.bRxload []) awaitingBattery with | .next _ => true | _ => false) = true ∧
    (match exec .aBatt State.reset with | .next t => decide (t.faults = []) | _ => false) = true ∧
    (match exec (.posRead 1#8) State.reset with | .next t => decide (t.faults = []) | _ => false) = true := by
  decide +kernel

theorem witness_SpacesWrittenOnlyByTheirOperations : opKind .aDecbatt ≠ .encodeA ∧
    (match exec .aDecbatt awaitingBattery with | .next _ => true | _ => false) = true := by decide +kernel

theorem witness_ArmModelReadOnlyOnceLoaded : opKind .aDecbatt ≠ .loadArm ∧
    (match exec .aDecbatt awaitingBattery with | .next _ => true | _ => false) = true ∧
    armed.armValid = true ∧ exec (.mLoadarm 0#64 0#64 0#64 0#64) armed = raiseOutcome (badRequest .armModelLocked) armed :=
  ⟨by decide, by decide +kernel, rfl, rfl⟩

/-- States that differ in what the operation may not read: a decode of each unit with its reply outstanding, a unit M
operation, and an encode. -/
theorem witness_OperationsArePure :
    ((awaiting .a 0x0F#8 batteryReply).faults = [] ∧
      (awaiting .a 0x0F#8 batteryReply).outstanding = (loadTxb [] (awaiting .a 0x0F#8 batteryReply)).outstanding ∧
      (awaiting .a 0x0F#8 batteryReply).outstanding ≠ none ∧
      (awaiting .a 0x0F#8 batteryReply).rxa = (loadTxb [] (awaiting .a 0x0F#8 batteryReply)).rxa ∧
      answer .aDecbatt (awaiting .a 0x0F#8 batteryReply) =
        some (0x00#8, ⟨0#8, 0#16, 0#16, 0#8⟩, none)) ∧
    ((awaiting .b 28#8 positionReplyB).outstanding = (loadTxa [] (awaiting .b 28#8 positionReplyB)).outstanding ∧
      (awaiting .b 28#8 positionReplyB).rxb = (loadTxa [] (awaiting .b 28#8 positionReplyB)).rxb ∧
      answer (.bDec 28#8 1#8) (awaiting .b 28#8 positionReplyB) = some (0x00#8, ⟨0#8, 0#16, 0#16, 0#8⟩, none)) ∧
    (armed.pz = (loadRxa [] armed).pz ∧ armed.armValid = (loadRxa [] armed).armValid ∧
      armed.outstanding = (loadRxa [] armed).outstanding) ∧
    (State.reset.outstanding = (loadRxa [] State.reset).outstanding ∧
      State.reset.params = (loadRxa [] State.reset).params ∧
      answer (.bMove 1#8 500#16 1000#16) State.reset = some (0x00#8, ⟨0#8, 0#16, 0#16, 0#8⟩, none)) :=
  ⟨⟨rfl, rfl, by decide, rfl, by decide +kernel⟩, ⟨rfl, rfl, by decide +kernel⟩, ⟨rfl, rfl, rfl⟩, rfl, rfl,
    by decide +kernel⟩

theorem witness_CommandFrameOffersItself :
    (Instr.wellFormed .cmdABatt = true ∧ (encode State.reset.params.commands .cmdABatt).form = .wireA ∧ State.reset.outstanding = none ∧
      (match exec .cmdABatt State.reset with | .next t => decide (t.status = 0x00#8) | _ => false) = true) ∧
    (Instr.wellFormed (.posRead 1#8) = true ∧ (encode State.reset.params.commands (.posRead 1#8)).form = .wireB ∧
      (match exec (.posRead 1#8) State.reset with | .next t => decide (t.status = 0x00#8) | _ => false) = true) := by
  decide +kernel

theorem witness_AEncFramesAnyCommand : State.reset.outstanding = none ∧ (List.replicate 60 0xAA#8).length ≤ 60 := by
  decide

theorem witness_SetPositionsFramesTriples : State.reset.outstanding = none ∧
    1 ≤ (List.replicate 19 (⟨1#8, 65535#16⟩ : ServoPos)).length ∧
    (List.replicate 19 (⟨1#8, 65535#16⟩ : ServoPos)).length ≤ 19 := by decide

theorem witness_GetPositionsFramesIds : State.reset.outstanding = none ∧ 1 ≤ (List.replicate 19 1#8).length ∧
    (List.replicate 19 1#8).length ≤ 19 := by decide

theorem witness_StopFramesIds : State.reset.outstanding = none ∧ 1 ≤ (List.replicate 59 1#8).length ∧
    (List.replicate 59 1#8).length ≤ 59 := by decide

theorem witness_BatteryRequestFrame : State.reset.outstanding = none := rfl

theorem witness_UnitABadRequests : State.reset.outstanding = none ∧ 60 < (List.replicate 61 0#8).length ∧
    (([] : List ServoPos).length = 0 ∧ 19 < (List.replicate 20 (⟨1#8, 0#16⟩ : ServoPos)).length) ∧
    (([] : List Byte).length = 0 ∧ 19 < (List.replicate 20 1#8).length) ∧ 59 < (List.replicate 60 1#8).length ∧
    64 < (List.replicate 65 0#8).length ∧ 60 < (61#8 : Byte).toNat := by decide

theorem witness_ReceiveLoadsFill : (List.replicate 64 0#8).length ≤ 64 ∧ (List.replicate 258 0#8).length ≤ 258 ∧
    258 < (List.replicate 259 0#8).length := by
  simp only [List.length_replicate]; decide

theorem witness_ADecReturnsPayload : (2#8 : Byte).toNat ≤ 60 ∧
    ValidReplyA 0x0F#8 (2#8 : Byte).toNat (received batteryReply) ∧ RxaWritten (received batteryReply) :=
  ⟨by decide, ⟨by decide, rfl, rfl, rfl⟩, received_writtenA _ (by decide)⟩

theorem witness_ADecposReturnsPositions : 1 ≤ [3#8].length ∧ [3#8].length ≤ 19 ∧
    ValidReplyA (received positionsReply).params.commands.getpos (1 + 3 * [3#8].length)
      (received positionsReply) ∧ RxaWritten (received positionsReply) ∧
    (∀ k, k < [3#8].length → cellRead (received positionsReply).rxa (5 + 3 * k) = [3#8][k]?) :=
  ⟨by decide, by decide, ⟨by decide, rfl, rfl, rfl⟩, received_writtenA _ (by decide), by decide⟩

theorem witness_ADecbattReturnsMillivolts : ValidReplyA (received batteryReply).params.commands.batt 2 (received batteryReply) ∧
    cellRead (received batteryReply).rxa 4 = some 0xE8#8 ∧ cellRead (received batteryReply).rxa 5 = some 0x1C#8 :=
  ⟨⟨by decide, rfl, rfl, rfl⟩, rfl, rfl⟩

/-- A zero-byte read, a reply one byte short, and a reply with another id echoed. -/
theorem witness_UnitADecodeFailures :
    (RxaWritten (received []) ∧ ¬ ValidReplyA 0x0F#8 2 (received []) ∧ (received []).rxaCount = 0#8) ∧
    (RxaWritten (received (batteryReply.take 5)) ∧ ¬ ValidReplyA 0x0F#8 2 (received (batteryReply.take 5)) ∧
      (received (batteryReply.take 5)).rxaCount ≠ 0#8) ∧
    (ValidReplyA 0x15#8 (1 + 3 * [4#8].length) (received positionsReply) ∧ RxaWritten (received positionsReply) ∧
      ∃ k, k < [4#8].length ∧ cellRead (received positionsReply).rxa (5 + 3 * k) ≠ [4#8][k]?) :=
  ⟨⟨received_writtenA _ (by decide), fun h => absurd h.1 (by decide), by decide⟩,
    ⟨received_writtenA _ (by decide), fun h => absurd h.1 (by decide), by decide⟩,
    ⟨by decide, rfl, rfl, rfl⟩, received_writtenA _ (by decide), 0, by decide, by decide⟩

theorem witness_UnitARoundTrip : (State.reset.outstanding = none ∧ (List.replicate 60 0xAA#8).length ≤ 60) ∧
    (1 ≤ [(⟨3#8, 500#16⟩ : ServoPos)].length ∧ [(⟨3#8, 500#16⟩ : ServoPos)].length ≤ 19 ∧
      (positionsReply ++ List.replicate 56 0x00#8).length = 64 ∧
      ∀ j, (positionsReply ++ List.replicate 56 0x00#8)[j]? = frameByteA State.reset.params.commands.getpos (replyBytes [⟨3#8, 500#16⟩]) j) := by
  refine ⟨by decide, by decide, by decide, by decide, fun j => ?_⟩
  by_cases h : j < 64
  · have key : ∀ k : Fin 64, (positionsReply ++ List.replicate 56 0x00#8)[k.val]? =
        frameByteA 0x15#8 (replyBytes [⟨3#8, 500#16⟩]) k.val := by decide +kernel
    exact key ⟨j, h⟩
  · have hl : (positionsReply ++ List.replicate 56 0x00#8).length = 64 := by decide
    rw [List.getElem?_eq_none (by omega), frameByteA, if_pos (by omega)]

/-- A command of R79 takes a payload that has its row's length and is within its bounds. -/
theorem inBounds_default {n : Config.CommandName} {p : List Byte}
    (h : p.length = (commandRow n).preq ∧ WithinBounds (commandRow n).bounds p) :
    PayloadInBounds defaultCommands (commandRow n).code p := fun r hr hc _ => by
  have hm : commandRow n ∈ commandTable defaultCommands :=
    defaultCommands_table ▸ List.mem_map_of_mem (mem_allCommands n)
  have he : rowOf defaultCommands r.code = some (commandRow n) := hc ▸ rowOf_code defaultCommands_ok hm
  rw [Option.some.inj ((rowOf_code defaultCommands_ok hr).symm.trans he)]
  exact h

/-- A command R79 does not have takes any payload, and expects the reply `resp` says. -/
theorem absent_default (b : Byte) (h : rowOf defaultCommands b = none) (p : List Byte) (resp : Bool) :
    PayloadInBounds defaultCommands b p ∧ ExpectsReply defaultCommands b resp resp :=
  ⟨fun r hr hc => absurd hc (rowOf_none.1 h r hr), fun r hr hc => absurd hc (rowOf_none.1 h r hr), fun _ => rfl⟩

/-- The reply column of R79 is what a command of it expects. -/
theorem expectsReply_default (n : Config.CommandName) (resp : Bool) :
    ExpectsReply defaultCommands (commandRow n).code resp (commandRow n).reply := by
  have hm : commandRow n ∈ commandTable defaultCommands :=
    defaultCommands_table ▸ List.mem_map_of_mem (mem_allCommands n)
  refine ⟨fun r hr hc => ?_, fun h => absurd rfl (h _ hm)⟩
  have he : rowOf defaultCommands r.code = some (commandRow n) := hc ▸ rowOf_code defaultCommands_ok hm
  rw [Option.some.inj ((rowOf_code defaultCommands_ok hr).symm.trans he)]

/-- Each bounded command at a bound, and an unbounded one with the longest payload, which expects the reply `resp` says. -/
theorem witness_BEncFramesAnyCommand : State.reset.outstanding = none ∧ State.reset.params.commands = defaultCommands ∧
    PayloadInBounds defaultCommands 1#8 [0xE8#8, 0x03#8, 0x30#8, 0x75#8] ∧
    PayloadInBounds defaultCommands 7#8 [0x00#8, 0x00#8, 0x00#8, 0x00#8] ∧
    PayloadInBounds defaultCommands 20#8 [0xE8#8, 0x03#8, 0xE8#8, 0x03#8] ∧
    PayloadInBounds defaultCommands 22#8 [0x94#8, 0x11#8, 0xE0#8, 0x2E#8] ∧
    PayloadInBounds defaultCommands 24#8 [100#8] ∧
    (PayloadInBounds defaultCommands 99#8 (List.replicate 252 0#8) ∧ (List.replicate 252 0#8).length ≤ 252 ∧
      ExpectsReply defaultCommands 99#8 true true) ∧
    ExpectsReply defaultCommands 28#8 false true :=
  ⟨rfl, rfl, inBounds_default (n := .moveTimeWrite) ⟨rfl, _, _, _, _, _, rfl, by decide, by decide⟩,
    inBounds_default (n := .moveTimeWaitWrite) ⟨rfl, _, _, _, _, _, rfl, by decide, by decide⟩,
    inBounds_default (n := .angleLimitWrite) ⟨rfl, _, _, _, _, _, rfl, by decide, by decide⟩,
    inBounds_default (n := .vinLimitWrite) ⟨rfl, _, _, _, _, _, rfl, by decide, by decide, by decide, by decide⟩,
    inBounds_default (n := .tempMaxLimitWrite) ⟨rfl, _, _, rfl, by decide, by decide⟩,
    ⟨(absent_default _ (by decide +kernel) _ true).1, by simp only [List.length_replicate]; decide,
      (absent_default _ (by decide +kernel) [] true).2⟩, expectsReply_default .posRead false⟩

/-- For each clause a payload one beyond a bound, and the bound itself where the next clause begins. -/
theorem witness_BEncRefusals : State.reset.outstanding = none ∧ commandsOk State.reset.params.commands = true ∧
    252 < (List.replicate 253 0#8).length ∧
    ((∀ n, commandRow n ∈ commandTable State.reset.params.commands) ∧
      (commandRow .vinLimitWrite).bounds ≠ .unbounded ∧ [0xF4#8, 0x01#8, 0xE8#8].length ≠ (commandRow .vinLimitWrite).preq ∧
      ([] : List Byte).length ≠ (commandRow .tempMaxLimitWrite).preq) ∧
    (([] : List Byte).length + 4 = (commandRow .moveTimeWaitWrite).preq ∧ (commandRow .moveTimeWaitWrite).bounds = .move ∧
      1000 < leNat 0xE9#8 0x03#8 ∧ leNat 0xE8#8 0x03#8 ≤ 1000 ∧ 30000 < leNat 0x31#8 0x75#8) ∧
    ((commandRow .angleLimitWrite).bounds = .angleLimit ∧ leNat 0xE7#8 0x03#8 < leNat 0xE8#8 0x03#8) ∧
    ((commandRow .vinLimitWrite).bounds = .vin ∧ leNat 0x93#8 0x11#8 < 4500 ∧ 12000 < leNat 0xE1#8 0x2E#8 ∧
      4500 ≤ leNat 0x94#8 0x11#8 ∧ leNat 0xE0#8 0x2E#8 ≤ 12000) ∧
    ((commandRow .tempMaxLimitWrite).bounds = .temp ∧ ([] : List Byte).length + 1 = (commandRow .tempMaxLimitWrite).preq ∧
      (49#8 : Byte).toNat < 50 ∧ 100 < (101#8 : Byte).toNat) :=
  ⟨rfl, defaultCommands_ok, by simp only [List.length_replicate]; decide,
    ⟨fun n => defaultCommands_table ▸ List.mem_map_of_mem (mem_allCommands n), by decide, by decide, by decide⟩, by decide,
    by decide, by decide, by decide⟩

theorem witness_MoveFrames : State.reset.outstanding = none ∧ (1000#16 : Half).toNat ≤ 1000 ∧
    (30000#16 : Half).toNat ≤ 30000 := by decide

theorem witness_AngleLimitFrames : State.reset.outstanding = none ∧ (1000#16 : Half).toNat ≤ (1000#16 : Half).toNat ∧
    (1000#16 : Half).toNat ≤ 1000 := by decide

theorem witness_VinLimitFrames : State.reset.outstanding = none ∧ 4500 ≤ (12000#16 : Half).toNat ∧
    (12000#16 : Half).toNat ≤ 12000 ∧ 4500 ≤ (4500#16 : Half).toNat ∧ (4500#16 : Half).toNat ≤ 12000 := by decide

theorem witness_TempLimitFrames : State.reset.outstanding = none ∧ 50 ≤ (50#16 : Half).toNat ∧
    (50#16 : Half).toNat ≤ 100 ∧ 50 ≤ (100#8 : Byte).toNat ∧ (100#8 : Byte).toNat ≤ 100 := by decide

theorem witness_OutOfRangeParameterIsNamed : State.reset.outstanding = none ∧
    (1000 < (1001#16 : Half).toNat ∧ (1000#16 : Half).toNat ≤ 1000 ∧ 30000 < (30001#16 : Half).toNat) ∧
    ((1000#16 : Half).toNat ≤ 1000 ∧ (999#16 : Half).toNat < (1000#16 : Half).toNat) ∧
    ((4499#16 : Half).toNat < 4500 ∧ 12000 < (12001#16 : Half).toNat ∧ 4500 ≤ (4500#16 : Half).toNat ∧
      (4500#16 : Half).toNat ≤ 12000) ∧
    ((49#16 : Half).toNat < 50 ∧ 100 < (306#16 : Half).toNat) ∧
    ((49#8 : Byte).toNat < 50 ∧ 100 < (101#8 : Byte).toNat) := by decide

/-- A step that puts a frame on offer, and an encode that is refused. -/
theorem witness_NoOutOfRangeValueIsOffered :
    (commandsOk State.reset.params.commands = true ∧ typedRowsOk State.reset.params.commands = true ∧
      OffersInBounds (withRequests [⟨.request, [0x11#8, 0x01#8, 0xE8#8, 0x03#8, 0x30#8, 0x75#8]⟩] State.reset) ∧
      (match step (withRequests [⟨.request, [0x11#8, 0x01#8, 0xE8#8, 0x03#8, 0x30#8, 0x75#8]⟩] State.reset) with
        | .next t => (offeredB t).isSome
        | _ => false) = true) ∧
    (opKind (.bEnc 1#8 1#8 false [0xF4#8, 0x05#8, 0xE8#8, 0x03#8]) = .encodeB ∧ State.reset.outstanding = none ∧
      (match exec (.bEnc 1#8 1#8 false [0xF4#8, 0x05#8, 0xE8#8, 0x03#8]) State.reset with
        | .next t => decide (t.status ≠ 0x00#8)
        | _ => false) = true) :=
  ⟨⟨defaultCommands_ok, defaultCommands_typed, fun f h => by simp [offeredB, withRequests, State.reset] at h, by decide +kernel⟩, rfl, rfl, by decide +kernel⟩

/-- A command with a reply, one with a payload, and a name with one row. -/
theorem witness_TableCommandFrames :
    ((.posRead 1#8, .posRead, []) ∈ tableCommands 1#8 0#8 0#8 0#8 0#8 ∧ State.reset.outstanding = none ∧
      PayloadInBounds State.reset.params.commands (code State.reset .posRead) [] ∧
      ExpectsReply State.reset.params.commands (code State.reset .posRead) false true) ∧
    (.orMotorModeWrite 1#8 1#8 2#8 3#8 4#8, .orMotorModeWrite, [1#8, 2#8, 3#8, 4#8]) ∈
      tableCommands 1#8 1#8 2#8 3#8 4#8 ∧
    (commandRow .idRead ∈ commandTable State.reset.params.commands ∧
      ∀ r ∈ commandTable State.reset.params.commands, r.name = some .idRead → r = commandRow .idRead) :=
  ⟨⟨by decide, rfl, inBounds_default (n := .posRead) ⟨rfl, trivial⟩, expectsReply_default .posRead false⟩, by decide,
    by decide +kernel, by
      show ∀ r ∈ commandTable defaultCommands, r.name = some .idRead → r = commandRow .idRead
      decide +kernel⟩

/-- A reply from the expected servo, and a read-ID reply from another. -/
theorem witness_BDecReturnsPayload :
    ([0xF4#8, 0x01#8].length ≤ 252 ∧ RxbHolds (frameBytesB 28#8 1#8 [0xF4#8, 0x01#8]) (received positionReplyB)) ∧
    (RxbHolds (frameBytesB 14#8 3#8 [3#8])
        (received [0x55#8, 0x55#8, 0x03#8, 0x04#8, 0x0E#8, 0x03#8, 0xE7#8]) ∧
      (14#8 : Byte) = code (received []) .idRead) := by
  have h1 : frameBytesB 28#8 1#8 [0xF4#8, 0x01#8] = positionReplyB := by decide
  have h2 : frameBytesB 14#8 3#8 [3#8] = [0x55#8, 0x55#8, 0x03#8, 0x04#8, 0x0E#8, 0x03#8, 0xE7#8] := by decide
  rw [h1, h2]
  exact ⟨⟨by decide, received_holdsB _ (by decide)⟩, received_holdsB _ (by decide), rfl⟩

/-- One received frame for each failure, in the order of the statement (§2.3). -/
theorem witness_BDecFailureOrder : RxbHolds positionReplyB (received positionReplyB) ∧ ([] : List Byte).length = 0 ∧
    [0x55#8].length = 1 ∧
    (2 ≤ [0x55#8, 0x56#8].length ∧ [0x55#8, 0x56#8].take 2 ≠ [0x55#8, 0x55#8]) ∧
    (2 ≤ (positionReplyB.take 5).length ∧ (positionReplyB.take 5).length < 6 ∧
      (positionReplyB.take 5).take 2 = [0x55#8, 0x55#8]) ∧
    (6 ≤ (positionReplyB ++ [0x55#8]).length ∧ (positionReplyB ++ [0x55#8]).take 2 = [0x55#8, 0x55#8] ∧
      (positionReplyB ++ [0x55#8]).getLast? ≠ some (checksumOf ((positionReplyB ++ [0x55#8]).drop 2).dropLast)) ∧
    (6 ≤ positionReplyB.length ∧ positionReplyB.take 2 = [0x55#8, 0x55#8] ∧
      positionReplyB.getLast? = some (checksumOf (positionReplyB.drop 2).dropLast) ∧
      ((28#8 : Byte) ≠ codeOf defaultCommands .idRead ∧ positionReplyB[2]? ≠ some 2#8) ∧
      (positionReplyB[2]? = some 1#8 ∧ (positionReplyB[3]?).map (fun b => b.toNat + 3) = some positionReplyB.length ∧
        positionReplyB[4]? ≠ some 27#8)) ∧
    ([0x55#8, 0x55#8, 0x01#8, 0x06#8, 0x1C#8, 0xF4#8, 0x01#8, 0xE7#8].getLast? =
        some (checksumOf ([0x55#8, 0x55#8, 0x01#8, 0x06#8, 0x1C#8, 0xF4#8, 0x01#8, 0xE7#8].drop 2).dropLast) ∧
      [0x55#8, 0x55#8, 0x01#8, 0x06#8, 0x1C#8, 0xF4#8, 0x01#8, 0xE7#8][2]? = some 1#8 ∧
      ([0x55#8, 0x55#8, 0x01#8, 0x06#8, 0x1C#8, 0xF4#8, 0x01#8, 0xE7#8][3]?).map (fun b => b.toNat + 3) ≠ some 8) :=
  ⟨received_holdsB _ (by decide), by decide +kernel⟩

theorem witness_MutatedFrameFailsChecksum :
    (opKind (.posRead 1#8) = .encodeB ∧ State.reset.outstanding = none ∧
      (match exec (.posRead 1#8) State.reset with | .next t => (offeredB t).isSome | _ => false) = true) ∧
    ([0xF4#8, 0x01#8].length ≤ 252 ∧ 2 ≤ 7 ∧ 7 < [0xF4#8, 0x01#8].length + 6 ∧
      (frameBytesB 28#8 1#8 [0xF4#8, 0x01#8])[7]? ≠ some 0x00#8 ∧
      (frameBytesB 28#8 1#8 [0xF4#8, 0x01#8])[2]? ≠ some 0x02#8) := by decide +kernel

theorem witness_UnitBRoundTrip : State.reset.outstanding = none ∧ (List.replicate 252 0#8).length ≤ 252 ∧
    PayloadInBounds State.reset.params.commands 99#8 (List.replicate 252 0#8) :=
  ⟨rfl, by simp only [List.length_replicate]; decide, (absent_default _ (by decide +kernel) _ true).1⟩

/-- -90.0 to 90.0, and 0.0 to 1e308, whose product with 1000 overflows. -/
theorem validDefinitions : ValidDefinition 0xC056800000000000#64 0x4056800000000000#64 ∧
    ValidDefinition 0#64 0x7FE1CCF385EBC8A0#64 := by
  simp only [ValidDefinition]; decide +kernel

/-- 45.0 in -90.0 to 90.0. -/
theorem witness_A2rRoundsTheQuotient : ValidDefinition 0xC056800000000000#64 0x4056800000000000#64 ∧
    f64IsNaN 0x4046800000000000#64 = false ∧
    f64Finite (a2rQuotient 0x4046800000000000#64 0xC056800000000000#64 0x4056800000000000#64) = true :=
  ⟨validDefinitions.1, by decide +kernel, by decide +kernel⟩

/-- The same range with both infinities and both ends as angles, and 1e307 in 0.0 to 1e308, where the formula
overflows. -/
theorem witness_A2rStaysInRange : ValidDefinition 0xC056800000000000#64 0x4056800000000000#64 ∧
    (f64IsNaN 0x7FF0000000000000#64 = false ∧ f64Le 0x4056800000000000#64 0x7FF0000000000000#64 = true) ∧
    (f64IsNaN 0xFFF0000000000000#64 = false ∧ f64Le 0xFFF0000000000000#64 0xC056800000000000#64 = true) ∧
    f64Le 0xC056800000000000#64 0xC056800000000000#64 = true ∧
    f64Le 0x4056800000000000#64 0x4056800000000000#64 = true ∧
    (ValidDefinition 0#64 0x7FE1CCF385EBC8A0#64 ∧ f64IsNaN 0x7FAC7B1F3CAC7433#64 = false ∧
      f64Finite (a2rQuotient 0x7FAC7B1F3CAC7433#64 0#64 0x7FE1CCF385EBC8A0#64) = false) := by
  refine ⟨validDefinitions.1, by decide +kernel, by decide +kernel, by decide +kernel, by decide +kernel,
    validDefinitions.2, by decide +kernel, by decide +kernel⟩

/-- Two angles in the plain range, and two where the formula overflows. -/
theorem witness_A2rIsMonotonic : (ValidDefinition 0xC056800000000000#64 0x4056800000000000#64 ∧
      f64Le 0x0000000000000000#64 0x4046800000000000#64 = true ∧
      (result (.mA2r 0x0000000000000000#64 0xC056800000000000#64 0x4056800000000000#64) State.reset).isSome = true ∧
      (result (.mA2r 0x4046800000000000#64 0xC056800000000000#64 0x4056800000000000#64) State.reset).isSome = true) ∧
    (ValidDefinition 0#64 0x7FE1CCF385EBC8A0#64 ∧ f64Le 0x7FAC7B1F3CAC7433#64 0x7FE1CCF385EBC8A0#64 = true ∧
      (result (.mA2r 0x7FAC7B1F3CAC7433#64 0#64 0x7FE1CCF385EBC8A0#64) State.reset).isSome = true ∧
      (result (.mA2r 0x7FE1CCF385EBC8A0#64 0#64 0x7FE1CCF385EBC8A0#64) State.reset).isSome = true) := by
  refine ⟨⟨validDefinitions.1, by decide +kernel, by decide +kernel, by decide +kernel⟩, validDefinitions.2,
    by decide +kernel, by decide +kernel, by decide +kernel⟩

theorem witness_R2aFollowsTheFormula : ValidDefinition 0xC056800000000000#64 0x4056800000000000#64 ∧
    (0 : Int) = max 0 (min 1000 (0x80000000#32 : Word).toInt) ∧ (1000 : Int) = max 0 (min 1000 (1200#32 : Word).toInt) :=
  ⟨validDefinitions.1, by decide +kernel, by decide +kernel⟩

/-- An arm of length zero. -/
theorem witness_LoadarmBuildsTheTable : ValidLengths 0#64 0#64 0#64 0#64 ∧ flat.armValid = false ∧
    IsHeightTable flat.params.numeric 0#64 0#64 0#64 0#64 (heightEntry flat.params.numeric 0#64 0#64 0#64 0#64) ∧
    (∀ i, i < 128 → f64Finite (heightEntry flat.params.numeric 0#64 0#64 0#64 0#64 i) = true) :=
  ⟨zeroLengths.1, rfl, fun i => by simp only [heightEntry, alphaOf, f64HalfPi_eq], fun i _ => by
    rw [heightEntry_zero rfl rfl]; decide⟩

/-- A cosine near -1 at `2 * alpha_127`, with which lengths of 1e308 give an entry that is not finite (§2.4). -/
def steep : State := configured .toEven [] [(0x4008EFB75D9BA4BE#64, 0xBFEFFD886084CD0D#64)] []

theorem steep_lengths : ValidLengths 0#64 0x7FE1CCF385EBC8A0#64 0#64 0x7FE1CCF385EBC8A0#64 := by
  have h0 : f64Finite 0#64 = true ∧ f64Le 0#64 0#64 = true := by decide +kernel
  have h1 : f64Finite 0x7FE1CCF385EBC8A0#64 = true ∧ f64Le 0#64 0x7FE1CCF385EBC8A0#64 = true := by decide +kernel
  intro l hl
  simp only [List.mem_cons, List.not_mem_nil, or_false] at hl
  rcases hl with rfl | rfl | rfl | rfl
  · exact h0
  · exact h1
  · exact h0
  · exact h1

/-- Each clause: `min = max`, a NaN angle, a negative length, a second load, an entry that is not finite, index 128, no
table, a NaN height, an infinite component, and two zeros of different sign. -/
theorem witness_MapperRefusals : ¬ ValidDefinition 0x4024000000000000#64 0x4024000000000000#64 ∧
    (ValidDefinition 0#64 0x7FE1CCF385EBC8A0#64 ∧ f64IsNaN 0x7FF8000000000000#64 = true) ∧
    ¬ ValidLengths 0xBFF0000000000000#64 0#64 0#64 0#64 ∧
    (ValidLengths 0#64 0#64 0#64 0x8000000000000000#64 ∧ armed.armValid = true) ∧
    (ValidLengths 0#64 0x7FE1CCF385EBC8A0#64 0#64 0x7FE1CCF385EBC8A0#64 ∧ steep.armValid = false ∧
      f64Finite (heightEntry steep.params.numeric 0#64 0x7FE1CCF385EBC8A0#64 0#64 0x7FE1CCF385EBC8A0#64 127) = false) ∧
    127 < (128#8 : Byte).toNat ∧ ((127#8 : Byte).toNat ≤ 127 ∧ State.reset.armValid = false) ∧
    f64IsNaN 0#64 = false ∧ f64Finite 0x7FF0000000000000#64 = false ∧
    (f64IsZero 0x8000000000000000#64 = true ∧ f64IsZero 0#64 = true) := by
  have hlt : ¬ f64Lt 0x4024000000000000#64 0x4024000000000000#64 = true := by decide +kernel
  have hle : ¬ f64Le 0#64 0xBFF0000000000000#64 = true := by decide +kernel
  exact ⟨fun h => hlt h.2.2.1, ⟨validDefinitions.2, by decide +kernel⟩,
    fun h => hle (h _ (List.mem_cons_self ..)).2, ⟨zeroLengths.2, rfl⟩, ⟨steep_lengths, rfl, by decide +kernel⟩,
    by decide, by decide, by decide +kernel, by decide +kernel, by decide +kernel⟩

theorem witness_PzReadsTheEntry : (127#8 : Byte).toNat ≤ 127 ∧ armed.armValid = true ∧
    cellRead armed.pz (127#8 : Byte).toNat = some (heightEntry flat.params.numeric 0#64 0#64 0#64 0#64 127) :=
  ⟨by decide, rfl, armed_cells _ (by decide)⟩

theorem witness_Z2iReturnsTheFirstIndex : f64IsNaN 0x4049000000000000#64 = false ∧ armed.armValid = true ∧
    ∀ i, i < 128 → cellRead armed.pz i = some (heightEntry flat.params.numeric 0#64 0#64 0#64 0#64 i) :=
  ⟨by decide +kernel, rfl, armed_cells⟩

theorem witness_Z2iInversionLaws : Inv armed ∧ armed.armValid = true ∧
    ∀ i, i < 128 → cellRead armed.pz i = some (heightEntry flat.params.numeric 0#64 0#64 0#64 0#64 i) := ⟨armed_inv, rfl, armed_cells⟩

/-- An index that is not 4 mod 8, and one that is. -/
theorem witness_I2rMapsTheIndex : (127#8 : Byte).toNat ≤ 127 ∧ (127#8 : Byte).toNat % 8 ≠ 4 ∧
    (124#8 : Byte).toNat ≤ 127 ∧ (124#8 : Byte).toNat % 8 = 4 := by decide

theorem witness_HeightToActuatorChainSucceeds : Inv armed ∧ armed.armValid = true ∧
    f64IsNaN 0x4049000000000000#64 = false := ⟨armed_inv, rfl, by decide +kernel⟩

/-- A tie, which takes the first branch, a larger second component, and an arctangent R188 describes. -/
theorem witness_TetaChoosesTheLargerDivisor : f64Finite 0x3FF0000000000000#64 = true ∧
    ¬ (f64IsZero 0x3FF0000000000000#64 = true ∧ f64IsZero 0xBFF0000000000000#64 = true) ∧
    f64Le (f64Abs 0xBFF0000000000000#64) (f64Abs 0x3FF0000000000000#64) = true ∧
    f64Le (f64Abs 0x4000000000000000#64) (f64Abs 0x3FF0000000000000#64) = false ∧
    atanOk [(f64Negate 0#64, f64Negate 0#64)] = true := by decide +kernel

/-- An exact half of the spacing, so that two magnitudes are equally near; and the least that rounds to an infinity. -/
theorem witness_RoundingIsNearestEven : (0 < 2 ∧ roundUnits 3 2 < infMag ∧ 1 < infMag ∧ roundUnits 3 2 = 2) ∧
    roundUnits ((2 ^ 54 - 1) * 2 ^ 2044) 1 = infMag ∧ roundUnits ((2 ^ 54 - 1) * 2 ^ 2044 - 1) 1 < infMag := by
  decide +kernel

end Sys2Proof.Tests
end

section
/-! Decoding what the encoder writes, for each of the three forms of a request (R24, R70 to R79). -/

namespace Sys2Proof

open Sys2Proof.Machine

/-! ### The last operand of a record -/

theorem takeU16_bytes16_last (v : Half) : takeU16 (bytes16 v) = .ok (v, []) := takeU16_bytes16 v []

theorem takeF64_bytes64_last (v : F64) : takeF64 (bytes64 v) = .ok (v, []) := by
  simpa using takeF64_bytes64 v []

theorem takePairs_triples_last (qs : List ServoPos) : takePairs qs.length (triples qs) = .ok (qs, []) := by
  simpa using takePairs_triples qs []

theorem take_ok_bind {α β : Type} (a : α) (bs : List Byte) (f : α × List Byte → Except DecodeError β) :
    ((.ok (a, bs) : Take α) >>= f) = f (a, bs) := rfl

theorem takeU8_cons (b : Byte) (bs : List Byte) : takeU8 (b :: bs) = .ok (b, bs) := rfl

/-! ### The three forms of a request -/

/-- Each selector's record reads back its operands (R24, R75). -/
theorem decode_encode_request {c : Config.Commands} {i : Instr} (hw : i.wellFormed = true)
    (hf : (encode c i).form = .request) : decode c (encode c i) = .ok i := by
  cases i with
  | aEnc cmd resp p | bEnc cmd id resp p =>
    have hp : p.length ≤ 255 := of_decide_eq_true hw
    simp [encode, decode, decodeRequestPort, decodeOperands, take_ok_bind, takeU8_cons, takeBit_bitByte,
      takeCounted_counted' hp]
  | aGetpos l | aStop l | aRxload l | aDecpos l | bChk l =>
    have hp : l.length ≤ 255 := of_decide_eq_true hw
    simp [encode, decode, decodeRequestPort, decodeOperands, take_ok_bind, takeCounted_counted' hp]
  | aSetpos dur pairs =>
    have hp : pairs.length ≤ 255 := of_decide_eq_true hw
    simp [encode, decode, decodeRequestPort, decodeOperands, take_ok_bind, takeU8_cons, takeU16_bytes16,
      countByte_toNat hp, takePairs_triples_last]
  | bRxload b =>
    have hp : b.length ≤ 65535 := of_decide_eq_true hw
    simp [encode, decode, decodeRequestPort, decodeOperands, take_ok_bind, takeCounted16_eq hp]
  | aBatt | aDecbatt | aDec _ _ | bDec _ _ | mPz _ | mI2r _ => rfl
  | bMove id v w | bMovew id v w | bAnglim id v w | bVinlim id v w =>
    simp [encode, decode, decodeRequestPort, decodeOperands, take_ok_bind, takeU8_cons, takeU16_bytes16,
      takeU16_bytes16_last]
  | bTemplim id t =>
    simp [encode, decode, decodeRequestPort, decodeOperands, take_ok_bind, takeU8_cons, takeU16_bytes16_last]
  | mR2a raw mn mx =>
    simp [encode, decode, decodeRequestPort, decodeOperands, take_ok_bind, takeI32_bytes32, takeF64_bytes64,
      takeF64_bytes64_last]
  | mA2r _ _ _ | mLoadarm _ _ _ _ | mZ2i _ | mTeta _ _ =>
    simp [encode, decode, decodeRequestPort, decodeOperands, take_ok_bind, takeF64_bytes64, takeF64_bytes64_last]
  | _ => cases hf

/-- The bytes that tell the unit A commands apart, as the decoder asks for them in turn (R7). -/
theorem unitA_commands_ne {c : Config.Commands} (hc : commandsOk c = true) :
    c.getpos ≠ Config.cmdASetpos ∧ (c.stop ≠ Config.cmdASetpos ∧ c.stop ≠ c.getpos) ∧
      c.batt ≠ Config.cmdASetpos ∧ c.batt ≠ c.getpos ∧ c.batt ≠ c.stop := by
  have hd := commandsOk_unitA hc
  simp only [List.nodup_cons, List.mem_cons, List.not_mem_nil, or_false, not_or] at hd
  obtain ⟨⟨h1, h2, h3⟩, ⟨h4, h5⟩, h6, -⟩ := hd
  exact ⟨Ne.symm h1, ⟨Ne.symm h2, Ne.symm h4⟩, Ne.symm h3, Ne.symm h5, Ne.symm h6⟩

theorem decodePayloadA_setpos (c : Config.Commands) (dur : Half) {pairs : List ServoPos}
    (h : 3 + 3 * pairs.length ≤ 60) (pad : List Byte) :
    decodePayloadA c Config.cmdASetpos (setposPayload dur pairs ++ pad) = .ok (.cmdASetpos dur pairs) := by
  simp [decodePayloadA, setposPayload, takeU8_cons, take_ok_bind, takeU16_bytes16,
    countByte_toNat (show pairs.length ≤ 255 by omega), takePairs_triples, Config.payloadMaxA, h]

/-- A payload of ids is a counted list, so it reads back whatever follows it (R71). -/
theorem takeCounted_idsPayload {ids : List Byte} (h : 1 + ids.length ≤ 60) (pad : List Byte) :
    takeCounted (idsPayload ids ++ pad) = .ok (ids, pad) := takeCounted_counted (by omega) pad

theorem decodePayloadA_getpos {c : Config.Commands} (hc : commandsOk c = true) {ids : List Byte}
    (h : 1 + ids.length ≤ 60) (pad : List Byte) :
    decodePayloadA c c.getpos (idsPayload ids ++ pad) = .ok (.cmdAGetpos ids) := by
  obtain ⟨h1, -⟩ := unitA_commands_ne hc
  simp [decodePayloadA, h1, takeCounted_idsPayload h, take_ok_bind, Config.payloadMaxA, h]

theorem decodePayloadA_stop {c : Config.Commands} (hc : commandsOk c = true) {ids : List Byte}
    (h : 1 + ids.length ≤ 60) (pad : List Byte) :
    decodePayloadA c c.stop (idsPayload ids ++ pad) = .ok (.cmdAStop ids) := by
  obtain ⟨-, ⟨h1, h2⟩, -⟩ := unitA_commands_ne hc
  simp [decodePayloadA, h1, h2, takeCounted_idsPayload h, take_ok_bind, Config.payloadMaxA, h]

theorem decodePayloadA_batt {c : Config.Commands} (hc : commandsOk c = true) (pad : List Byte) :
    decodePayloadA c c.batt pad = .ok .cmdABatt := by
  obtain ⟨-, -, h1, h2, h3⟩ := unitA_commands_ne hc
  simp [decodePayloadA, h1, h2, h3]

/-- A unit A frame is read by its command and payload, with the padding after the payload (R70). -/
theorem decode_encode_of_frameA {c : Config.Commands} {i : Instr} {cmd : Byte} {p : List Byte}
    (hi : encode c i = ⟨.wireA, frameA cmd p⟩) (hd : ∀ pad, decodePayloadA c cmd (p ++ pad) = .ok i) :
    decode c (encode c i) = .ok i := by
  rw [hi]
  exact hd _

/-- A unit A command frame reads back: no count is taken past the payload (R70, R71, R77). -/
theorem decode_encode_wireA {c : Config.Commands} (hc : commandsOk c = true) {i : Instr} (hw : i.wellFormed = true)
    (hf : (encode c i).form = .wireA) : decode c (encode c i) = .ok i := by
  cases i with
  | cmdASetpos dur pairs => exact decode_encode_of_frameA rfl (decodePayloadA_setpos c dur (of_decide_eq_true hw))
  | cmdAGetpos ids => exact decode_encode_of_frameA rfl (decodePayloadA_getpos hc (of_decide_eq_true hw))
  | cmdAStop ids => exact decode_encode_of_frameA rfl (decodePayloadA_stop hc (of_decide_eq_true hw))
  | cmdABatt => exact decode_encode_of_frameA (p := []) rfl (decodePayloadA_batt hc)
  | _ => cases hf

/-- A unit B command frame is told by its code and length; its payload is read with the checksum after it (R73, R79). -/
theorem decodeWireB_frameB {c : Config.Commands} (hc : commandsOk c = true) (n : Config.CommandName) (id : Byte)
    {p : List Byte} (hp : p.length = (commandRow n).preq) :
    decodeWireB c (frameB (codeOf c n) id p) =
      decodePayloadB n id (p ++ [checksum (frameBodyB (codeOf c n) id p)]) := by
  have hle : (commandRow n).preq ≤ 4 := by cases n <;> decide
  have hlen : (countByte (p.length + 3)).toNat = (commandRow n).preq + 3 := by
    rw [hp]; exact countByte_toNat (by omega)
  simp only [frameB, frameBodyB, List.cons_append, List.nil_append, decodeWireB, commandOf_codeOf hc, hlen, and_self,
    if_true]

theorem decode_encode_of_frameB {c : Config.Commands} (hc : commandsOk c = true) {i : Instr} {n : Config.CommandName}
    {id : Byte} {p : List Byte} (hi : encode c i = ⟨.wireB, frameB (codeOf c n) id p⟩)
    (hp : p.length = (commandRow n).preq) (hd : ∀ b, decodePayloadB n id (p ++ [b]) = .ok i) :
    decode c (encode c i) = .ok i := by
  rw [hi]
  exact (decodeWireB_frameB hc n id hp).trans (hd _)

/-- A unit B command frame reads back: the commands without operands, those with byte operands, and those with two `u16`
operands. -/
theorem decode_encode_wireB {c : Config.Commands} (hc : commandsOk c = true) {i : Instr}
    (hf : (encode c i).form = .wireB) : decode c (encode c i) = .ok i := by
  cases i with
  | moveTimeRead | moveTimeWaitRead | moveStart | moveStop | idRead | angleOffsetWrite | angleOffsetRead
  | angleLimitRead | vinLimitRead | tempMaxLimitRead | tempRead | vinRead | posRead | orMotorModeRead
  | loadOrUnloadRead | ledCtrlRead | ledErrorRead => exact decode_encode_of_frameB hc rfl rfl fun _ => rfl
  | idWrite | angleOffsetAdjust | tempMaxLimitWrite | loadOrUnloadWrite | ledCtrlWrite | ledErrorWrite
  | orMotorModeWrite => exact decode_encode_of_frameB hc rfl rfl fun _ => rfl
  | moveTimeWrite | moveTimeWaitWrite | angleLimitWrite | vinLimitWrite =>
    exact decode_encode_of_frameB hc rfl rfl fun _ => by simp [decodePayloadB, bytes16]
  | _ => cases hf

/-- Settles O1, form by form. -/
theorem decodeUndoesEncode : Obligations.DecodeUndoesEncode := by
  intro c i hc hw
  cases hf : (encode c i).form with
  | request => exact decode_encode_request hw hf
  | wireA => exact decode_encode_wireA hc hw hf
  | wireB => exact decode_encode_wireB hc hf

end Sys2Proof
end

section
/-! The frames the encodes write, byte by byte as the statements give them (R70, R71, R73), and which operands the
encodes accept. -/

namespace Sys2Proof.Claims

open Sys2Proof.Machine

theorem lowByte_eq_lo8 (v : Half) : lowByte v = lo8 v := by
  apply BitVec.eq_of_toNat_eq
  simp [lowByte_toNat, lo8]

theorem highByte_eq_hi8 (v : Half) : highByte v = hi8 v := by
  have := v.isLt
  apply BitVec.eq_of_toNat_eq
  rw [highByte_toNat, hi8, BitVec.extractLsb'_toNat, Nat.shiftRight_eq_div_pow]
  omega

theorem bytes16_append_eq_twoHalves (v w : Half) : bytes16 v ++ bytes16 w = twoHalves v w := by
  simp [bytes16, twoHalves, lowByte_eq_lo8, highByte_eq_hi8]

theorem byteSum_eq_sumOf (bs : List Byte) : byteSum bs = sumOf bs := by
  induction bs with
  | nil => rfl
  | cons b bs ih => simp [byteSum, sumOf, ih]

theorem checksum_eq_checksumOf (bs : List Byte) : checksum bs = checksumOf bs := by
  rw [checksum, checksumOf, byteSum_eq_sumOf]

theorem frameB_eq_frameBytesB (cmd id : Byte) (p : List Byte) : frameB cmd id p = frameBytesB cmd id p := by
  simp [frameB, frameBytesB, frameBodyB, countByte, checksum_eq_checksumOf, Config.sig]

theorem frameA_getElem?_eq_frameByteA (cmd : Byte) {p : List Byte} (h : p.length ≤ 60) (j : Nat) :
    (frameA cmd p)[j]? = frameByteA cmd p j := by
  rw [frameA_getElem? cmd h, frameByteA]
  rcases j with _ | _ | _ | _ | j
  · rfl
  · rfl
  · rfl
  · rfl
  · by_cases h64 : j + 4 < 64
    · by_cases hp : j < p.length
      · simp [h64, hp, show ¬ 64 ≤ j + 4 by omega, show j + 4 < 4 + p.length by omega]
      · simp [h64, hp, show ¬ 64 ≤ j + 4 by omega, show ¬ j + 4 < 4 + p.length by omega]
    · simp [h64, show 64 ≤ j + 4 by omega]

/-- A unit A encode whose operands pass, with no reply outstanding, is `BuildA` of its payload (R100, R101). -/
theorem encodeA_frames (cmd : Byte) {p : List Byte} (reply : Bool) {s : State} (ho : s.outstanding = none)
    (hp : p.length ≤ 60) : ∃ t, encodeA none cmd p reply s = .next t ∧ FramesA cmd p reply s t := by
  rcases encodeA_cases none cmd p reply s with ⟨h, -⟩ | ⟨-, r, h, -⟩ | ⟨-, -, h⟩
  · exact absurd ho h
  · cases h
  · refine ⟨_, h, ⟨rfl, rfl, rfl, rfl⟩, rfl, fun j => ?_, rfl, ?_⟩
    · simpa using frameA_getElem?_eq_frameByteA cmd hp j
    · simp [KeepsAllButTxa, KeepsRun, KeepsRxa, KeepsTxb, KeepsRxb, KeepsArm]

/-- A unit B encode whose operands pass, with no reply outstanding, is `BuildB` of its payload (R100, R141). -/
theorem encodeB_frames (cmd id : Byte) (p : List Byte) (reply : Bool) {s : State} (ho : s.outstanding = none) :
    ∃ t, encodeB none cmd id p reply s = .next t ∧ FramesB cmd id p reply s t := by
  rcases encodeB_cases none cmd id p reply s with ⟨h, -⟩ | ⟨-, r, h, -⟩ | ⟨-, -, h⟩
  · exact absurd ho h
  · cases h
  · refine ⟨_, h, ⟨rfl, rfl, rfl, rfl⟩, rfl, ?_, fun j => ?_, rfl, ?_⟩
    · simp [countHalf]
    · simp [frameB_eq_frameBytesB]
    · simp [KeepsAllButTxb, KeepsRun, KeepsTxa, KeepsRxa, KeepsRxb, KeepsArm]

theorem encodeGetpos_frames {ids : List Byte} {s : State} (ho : s.outstanding = none) (h1 : 1 ≤ ids.length)
    (h19 : ids.length ≤ 19) :
    ∃ t, encodeGetpos ids s = .next t ∧ FramesA s.params.commands.getpos (idsBytes ids) true s t := by
  have hc : checkCount Config.posCountMax ids.length = none := checkCount_none.2 ⟨h1, h19⟩
  rw [encodeGetpos, hc]
  exact encodeA_frames _ true ho (by rw [idsPayload_length]; omega)

theorem encodeStop_frames {ids : List Byte} {s : State} (ho : s.outstanding = none) (h1 : 1 ≤ ids.length)
    (h59 : ids.length ≤ 59) :
    ∃ t, encodeStop ids s = .next t ∧ FramesA s.params.commands.stop (idsBytes ids) false s t := by
  have hc : checkCount Config.stopCountMax ids.length = none := checkCount_none.2 ⟨h1, h59⟩
  rw [encodeStop, hc]
  exact encodeA_frames _ false ho (by rw [idsPayload_length]; omega)

theorem encodeMove_frames (n : Config.CommandName) (id : Byte) {pos time : Half} {s : State}
    (ho : s.outstanding = none) (hpos : pos.toNat ≤ 1000) (htime : time.toNat ≤ 30000) :
    ∃ t, encodeMove n id pos time s = .next t ∧ FramesB (code s n) id (twoHalves pos time) false s t := by
  rw [encodeMove, validateMove_eq, if_neg (by omega), if_neg (by omega), bytes16_append_eq_twoHalves]
  exact encodeB_frames _ id _ false ho

/-- Settles O24: the selector and the command frame run the same encode. -/
theorem getPositionsFramesIds : Obligations.GetPositionsFramesIds := by
  rintro ids s i (rfl | rfl) ho h1 h19
  · exact encodeGetpos_frames ho h1 h19
  · exact encodeGetpos_frames ho h1 h19

/-- Settles O25: the selector and the command frame run the same encode. -/
theorem stopFramesIds : Obligations.StopFramesIds := by
  rintro ids s i (rfl | rfl) ho h1 h59
  · exact encodeStop_frames ho h1 h59
  · exact encodeStop_frames ho h1 h59

/-- Settles O26: the encode has no operands to check. -/
theorem batteryRequestFrame : Obligations.BatteryRequestFrame := by
  rintro s i (rfl | rfl) ho
  · exact encodeA_frames _ true ho (Nat.zero_le _)
  · exact encodeA_frames _ true ho (Nat.zero_le _)

/-- Settles O36: both moves run one encode, whose code for `MOVE_TIME_WRITE` is fixed. -/
theorem moveFrames : Obligations.MoveFrames := by
  rintro id pos time s i cmd (⟨rfl | rfl, rfl⟩ | ⟨rfl | rfl, rfl⟩) ho hpos htime
  · exact encodeMove_frames .moveTimeWrite id ho hpos htime
  · exact encodeMove_frames .moveTimeWrite id ho hpos htime
  · exact encodeMove_frames .moveTimeWaitWrite id ho hpos htime
  · exact encodeMove_frames .moveTimeWaitWrite id ho hpos htime

/-- The bounds of R142 as the statements write them are those the model checks. -/
theorem validatePayload_none {b : Config.Bounds} {p : List Byte} (h : WithinBounds b p) :
    validatePayload b p = none := by
  cases b with
  | unbounded => rfl
  | move =>
    obtain ⟨p0, p1, p2, p3, q, rfl, h1, h2⟩ := h
    rw [leNat, ← le16_toNat] at h1 h2
    rw [validatePayload, validateMove_eq, if_neg (by omega), if_neg (by omega)]
  | angleLimit =>
    obtain ⟨p0, p1, p2, p3, q, rfl, h1, h2⟩ := h
    simp only [leNat, ← le16_toNat] at h1 h2
    rw [validatePayload, validateAngleLimit_eq, if_neg (by omega), if_neg (by omega), if_neg (by omega)]
  | vin =>
    obtain ⟨p0, p1, p2, p3, q, rfl, h1, h2, h3, h4⟩ := h
    rw [leNat, ← le16_toNat] at h1 h2 h3 h4
    rw [validatePayload, validateVin_eq, if_neg (by omega), if_neg (by omega)]
  | temp =>
    obtain ⟨p0, q, rfl, h1, h2⟩ := h
    rw [validatePayload, validateTemp_eq, zext16_toNat, if_neg (by omega)]

theorem checkCommandB_none {c : Config.Commands} {cmd : Byte} {p : List Byte} (hl : p.length ≤ 252)
    (hb : PayloadInBounds c cmd p) : checkCommandB c cmd p = none := by
  rw [checkCommandB_of_length hl]
  cases hr : rowOf c cmd with
  | none => rfl
  | some r =>
    obtain ⟨hmem, hcode⟩ := rowOf_some hr
    by_cases hu : r.bounds = .unbounded
    · exact if_pos hu
    · obtain ⟨hlen, hin⟩ := hb r hmem hcode hu
      simp only [if_neg hu, hlen, ne_eq, not_true, if_false, validatePayload_none hin]

theorem expectsReplyB_eq {c : Config.Commands} {cmd : Byte} {resp reply : Bool} (h : ExpectsReply c cmd resp reply) :
    expectsReplyB c cmd resp = reply := by
  unfold expectsReplyB
  cases hr : rowOf c cmd with
  | none => exact (h.2 (rowOf_none.1 hr)).symm
  | some r => exact (h.1 r (rowOf_some hr).1 (rowOf_some hr).2).symm

theorem encodeCommandB_frames {cmd id : Byte} {resp reply : Bool} {p : List Byte} {s : State}
    (ho : s.outstanding = none) (hl : p.length ≤ 252) (hb : PayloadInBounds s.params.commands cmd p)
    (hr : ExpectsReply s.params.commands cmd resp reply) :
    ∃ t, encodeCommandB cmd id resp p s = .next t ∧ FramesB cmd id p reply s t := by
  rw [encodeCommandB, checkCommandB_none hl hb, expectsReplyB_eq hr]
  exact encodeB_frames cmd id p reply ho

/-- Settles O34. -/
theorem bEncFramesAnyCommand : Obligations.BEncFramesAnyCommand :=
  fun _ _ _ _ _ _ ho hl hb hr => encodeCommandB_frames ho hl hb hr

/-- Each command frame that R143 emits is the encode of its command and payload. -/
theorem tableCommands_exec (id p0 p1 p2 p3 : Byte) (s : State) : ∀ k ∈ tableCommands id p0 p1 p2 p3,
    exec k.1 s = encodeNamedB k.2.1 id k.2.2 s :=
  List.map_inj_left.1 rfl

theorem tableCommands_payload_length (id p0 p1 p2 p3 : Byte) :
    ∀ k ∈ tableCommands id p0 p1 p2 p3, k.2.2.length ≤ 252 := by
  have h : (tableCommands id p0 p1 p2 p3).all (fun k => decide (k.2.2.length ≤ 252)) = true := rfl
  simpa using h

/-- A name that one row alone has is looked up in that row (R79). -/
theorem code_of_only_row {s : State} {r : Config.CommandRow} {n : Config.CommandName}
    (hr : r ∈ commandTable s.params.commands) (hn : r.name = some n)
    (honly : ∀ r' ∈ commandTable s.params.commands, r'.name = some n → r' = r) : code s n = r.code := by
  refine codeOf_row ?_
  cases hf : rowNamed s.params.commands n with
  | none =>
    have := List.find?_eq_none.1 hf r hr
    simp [hn] at this
  | some r' =>
    rw [honly r' (List.mem_of_find?_eq_some hf) (by simpa using List.find?_some hf)]

/-- Settles O42: each frame of the list is `B.ENC` of its row's command, so O34's lemma frames it. -/
theorem tableCommandFrames : Obligations.TableCommandFrames := by
  refine ⟨fun id p0 p1 p2 p3 s k hk => ?_, fun s r n hr hn honly => code_of_only_row hr hn honly, rfl⟩
  have hexec := tableCommands_exec id p0 p1 p2 p3 s k hk
  refine ⟨hexec, fun reply ho hb hreply => ?_⟩
  rw [hexec]
  exact encodeCommandB_frames ho (tableCommands_payload_length id p0 p1 p2 p3 k hk) hb hreply

end Sys2Proof.Claims
end

section
/-! The invariant of the reachable states: it holds at reset, each named update keeps it, and so does every
operation. -/

namespace Sys2Proof.Machine

/-! ### The cells an answer returns -/

/-- The cells of a result are in canonical form. -/
structure ResultWf (r : Result) : Prop where
  payload : cellsWf Config.payloadMaxB r.payload = true
  pos : cellsWf Config.posCountMax r.pos = true
  ids : cellsWf Config.posCountMax r.ids = true

theorem resultWf_of_nil {r : Result} (hp : r.payload = []) (hq : r.pos = []) (hi : r.ids = []) : ResultWf r := by
  constructor <;> simp [hp, hq, hi]

theorem resultWf_unwritten : ResultWf Result.unwritten := resultWf_of_nil rfl rfl rfl

theorem memoryWf_iff (s : State) : memoryWf s = true ↔
    (cellsWf 64 s.txa = true ∧ cellsWf Config.rxaMax s.rxa = true ∧ cellsWf Config.rxbMax s.txb = true ∧
      cellsWf Config.rxbMax s.rxb = true ∧ cellsWf Config.pzEntries s.pz = true) ∧ ResultWf s.result := by
  simp only [memoryWf, Bool.and_eq_true]
  constructor
  · rintro ⟨⟨⟨⟨⟨⟨⟨h1, h2⟩, h3⟩, h4⟩, h5⟩, h6⟩, h7⟩, h8⟩
    exact ⟨⟨h1, h2, h3, h4, h5⟩, h6, h7, h8⟩
  · rintro ⟨⟨h1, h2, h3, h4, h5⟩, h6, h7, h8⟩
    exact ⟨⟨⟨⟨⟨⟨⟨h1, h2⟩, h3⟩, h4⟩, h5⟩, h6⟩, h7⟩, h8⟩

theorem resultWf_of_memoryWf {s : State} (h : memoryWf s = true) : ResultWf s.result := ((memoryWf_iff s).1 h).2

/-- A body that ends `OK` returns cells in canonical form. -/
def BodyResultWf (b : Except Stop Result) : Prop := ∀ r, b = .ok r → ResultWf r

/-! How a body is built: it stops, answers, branches, or goes on from a step that answered. -/

theorem BodyResultWf.stop (e : Stop) : BodyResultWf (.error e) := fun _ h => by cases h

theorem BodyResultWf.answer {r : Result} (hr : ResultWf r) : BodyResultWf (.ok r) := fun _ h => by cases h; exact hr

theorem BodyResultWf.branch {c : Prop} [Decidable c] {a b : Except Stop Result} (ha : c → BodyResultWf a)
    (hb : ¬ c → BodyResultWf b) : BodyResultWf (if c then a else b) := by
  by_cases hc : c
  · rw [if_pos hc]; exact ha hc
  · rw [if_neg hc]; exact hb hc

/-- An operand check in front of a body. -/
theorem BodyResultWf.check {c : Prop} [Decidable c] {e : Stop} {b : Except Stop Result} (hb : BodyResultWf b) :
    BodyResultWf (if c then .error e else b) := .branch (fun _ => .stop e) fun _ => hb

theorem BodyResultWf.bind {α : Type} {x : Except Stop α} {f : α → Except Stop Result}
    (hf : ∀ a, x = .ok a → BodyResultWf (f a)) : BodyResultWf (x >>= f) := fun r h => by
  obtain ⟨a, ha, hr⟩ := bind_eq_ok.1 h
  exact hf a ha r hr

/-- An answer without cells. -/
theorem BodyResultWf.noCells {r : Result} (hp : r.payload = []) (hq : r.pos = []) (hi : r.ids = []) :
    BodyResultWf (.ok r) := .answer (resultWf_of_nil hp hq hi)

/-- A written cell of a space in canonical form lies inside the space. -/
theorem lt_of_cellRead {α : Type} {size a : Nat} {m : Cells α} {v : α} (hm : cellsWf size m = true)
    (h : cellRead m a = some v) : a < size := by
  by_contra hc
  rw [cellRead_of_wf hm (Nat.not_lt.1 hc)] at h
  cases h

/-- The payload between the header and a written checksum cell fits a frame's payload (R73). -/
theorem payloadB_fits {m : Cells Byte} {n : Nat} {chk : Byte} {p : List Byte} (hm : cellsWf Config.rxbMax m = true)
    (hchk : cellRead m (n - 1) = some chk) (hp : cellReadSeq m 5 (n - 6) = some p) :
    p.length ≤ Config.payloadMaxB := by
  have hin : n - 1 < 258 := lt_of_cellRead hm hchk
  rw [cellReadSeq_length hp, Config.payloadMaxB]
  omega

/-- The triples read are as many as were asked for (R110). -/
theorem readTriples_length {m : Cells Byte} {off n : Nat} {qs : List ServoPos} (h : readTriples m off n = .ok qs) :
    qs.length = n := by
  induction n generalizing off qs with
  | zero => cases h; rfl
  | succ n ih =>
    rw [readTriples] at h
    obtain ⟨_, -, h⟩ := bind_eq_ok.1 h
    obtain ⟨_, -, h⟩ := bind_eq_ok.1 h
    obtain ⟨_, -, h⟩ := bind_eq_ok.1 h
    obtain ⟨ws, hws, h⟩ := bind_eq_ok.1 h
    cases h
    rw [List.length_cons, ih hws]

theorem decBodyA_resultWf (cmd elen : Byte) (s : State) : BodyResultWf (decBodyA cmd elen s) := by
  refine .branch (fun _ => .stop _) fun hlen => .bind fun _ _ => .bind fun p hp => .answer ⟨?_, rfl, rfl⟩
  have hl := cellReadSeq_length (need_eq_ok.1 hp)
  rw [Config.payloadMaxA] at hlen
  exact cellsWf_cellsOf (by rw [Config.payloadMaxB]; omega)

theorem decposBody_resultWf (ids : List Byte) (s : State) : BodyResultWf (decposBody ids s) := by
  unfold decposBody
  split
  · exact .stop _
  · rename_i hcount
    obtain ⟨-, hmax⟩ := checkCount_none.1 hcount
    refine .bind fun _ _ => .bind fun _ _ => .bind fun qs hqs => .answer ⟨rfl, ?_, ?_⟩
    · exact cellsWf_cellsOf (by rw [List.length_map, readTriples_length hqs]; exact hmax)
    · exact cellsWf_cellsOf (by rw [List.length_map, readTriples_length hqs]; exact hmax)

theorem decbattBody_resultWf (s : State) : BodyResultWf (decbattBody s) :=
  .bind fun _ _ => .bind fun _ _ => .bind fun _ _ => .noCells rfl rfl rfl

theorem decBodyB_resultWf {s : State} (hm : cellsWf Config.rxbMax s.rxb = true) (ecmd eid : Byte) :
    BodyResultWf (decBodyB ecmd eid s) :=
  .check <| .check <| .bind fun _ _ => .bind fun _ _ => .check <| .check <|
    .bind fun _ _ => .bind fun _ hchk => .bind fun _ _ => .bind fun _ _ => .bind fun _ _ =>
      .check <| .check <| .check <| .check <|
        .bind fun _ hp => .answer ⟨cellsWf_cellsOf (payloadB_fits hm (need_eq_ok.1 hchk) (need_eq_ok.1 hp)), rfl, rfl⟩

theorem a2rBody_resultWf (m : Config.Midpoint) (angle mn mx : F64) : BodyResultWf (a2rBody m angle mn mx) :=
  .check <| .check <| .noCells rfl rfl rfl

theorem r2aBody_resultWf (raw : Word) (mn mx : F64) : BodyResultWf (r2aBody raw mn mx) :=
  .check <| .noCells rfl rfl rfl

theorem pzBody_resultWf (i : Byte) (s : State) : BodyResultWf (pzBody i s) :=
  .check <| .check <| .bind fun _ _ => .noCells rfl rfl rfl

theorem z2iBody_resultWf (z : F64) (s : State) : BodyResultWf (z2iBody z s) :=
  .check <| .check <| .bind fun _ _ => .noCells rfl rfl rfl

theorem i2rBody_resultWf (m : Config.Midpoint) (i : Byte) : BodyResultWf (i2rBody m i) :=
  .check <| .noCells rfl rfl rfl

theorem tetaBody_resultWf (n : Config.Numeric) (x y : F64) : BodyResultWf (tetaBody n x y) :=
  .check <| .check <| .noCells rfl rfl rfl

/-- Every decode returns cells in canonical form. -/
theorem exec_decode_resultWf {i : Instr} {s : State} (hm : memoryWf s = true)
    (hk : opKind i = .decodeA ∨ opKind i = .decodeB) :
    ∃ body, exec i s = finish (setOutstanding none) body s ∧ BodyResultWf body := by
  obtain ⟨⟨-, -, -, hrxb, -⟩, -⟩ := (memoryWf_iff s).1 hm
  cases i <;> simp only [opKind, reduceCtorEq, or_self] at hk
  case aDec cmd elen => exact ⟨_, rfl, decBodyA_resultWf cmd elen s⟩
  case aDecpos ids => exact ⟨_, rfl, decposBody_resultWf ids s⟩
  case aDecbatt => exact ⟨_, rfl, decbattBody_resultWf s⟩
  case bDec ecmd eid => exact ⟨_, rfl, decBodyB_resultWf hrxb ecmd eid⟩

/-- The checksum operation and every unit M operation but `M.LOADARM` return no cells. -/
theorem exec_mapper_resultWf {i : Instr} (hk : opKind i = .checksum ∨ opKind i = .mapper) (s : State) :
    ∃ body, exec i s = finish id body s ∧ BodyResultWf body := by
  cases i <;> simp only [opKind, reduceCtorEq, or_self] at hk
  case bChk b => exact ⟨.ok _, rfl, .noCells rfl rfl rfl⟩
  case mA2r angle mn mx => exact ⟨_, rfl, a2rBody_resultWf _ angle mn mx⟩
  case mR2a raw mn mx => exact ⟨_, rfl, r2aBody_resultWf raw mn mx⟩
  case mPz i => exact ⟨_, rfl, pzBody_resultWf i s⟩
  case mZ2i z => exact ⟨_, rfl, z2iBody_resultWf z s⟩
  case mI2r i => exact ⟨_, rfl, i2rBody_resultWf _ i⟩
  case mTeta x y => exact ⟨_, rfl, tetaBody_resultWf _ x y⟩

/-! ### Each update keeps the canonical form of the spaces -/

section
variable {s : State} (hm : memoryWf s = true)
include hm

theorem memoryWf_respond (code : Byte) (info : Info) {r : Result} (hr : ResultWf r) :
    memoryWf (respond code info r s) = true := by
  obtain ⟨hspaces, -⟩ := (memoryWf_iff s).1 hm
  exact (memoryWf_iff _).2 ⟨hspaces, hr⟩

theorem memoryWf_setOutstanding (o : Option Pending) : memoryWf (setOutstanding o s) = true := hm

theorem memoryWf_addFault (n : FaultName) : memoryWf (addFault n s) = true := hm

theorem memoryWf_dropTxa : memoryWf (dropTxa s) = true := hm

theorem memoryWf_dropTxb : memoryWf (dropTxb s) = true := hm

theorem memoryWf_loadTxa {f : List Byte} (hf : f.length ≤ 64) : memoryWf (loadTxa f s) = true := by
  obtain ⟨⟨-, hrest⟩, hr⟩ := (memoryWf_iff s).1 hm
  exact (memoryWf_iff _).2 ⟨⟨cellsWf_cellsOf hf, hrest⟩, hr⟩

theorem memoryWf_loadRxa {b : List Byte} (hb : b.length ≤ 64) : memoryWf (loadRxa b s) = true := by
  obtain ⟨⟨h1, -, hrest⟩, hr⟩ := (memoryWf_iff s).1 hm
  exact (memoryWf_iff _).2 ⟨⟨h1, cellsWf_cellsOf hb, hrest⟩, hr⟩

theorem memoryWf_loadTxb {f : List Byte} (hf : f.length ≤ 258) : memoryWf (loadTxb f s) = true := by
  obtain ⟨⟨h1, h2, -, hrest⟩, hr⟩ := (memoryWf_iff s).1 hm
  exact (memoryWf_iff _).2 ⟨⟨h1, h2, cellsWf_cellsOf hf, hrest⟩, hr⟩

theorem memoryWf_loadRxb {b : List Byte} (hb : b.length ≤ 258) : memoryWf (loadRxb b s) = true := by
  obtain ⟨⟨h1, h2, h3, -, h5⟩, hr⟩ := (memoryWf_iff s).1 hm
  exact (memoryWf_iff _).2 ⟨⟨h1, h2, h3, cellsWf_cellsOf hb, h5⟩, hr⟩

theorem memoryWf_loadArm (n : Config.Numeric) (l1 l2 l3 l4 : F64) :
    memoryWf (loadArm l1 l2 l3 l4 (heightTable n l1 l2 l3 l4) s) = true := by
  obtain ⟨⟨h1, h2, h3, h4, -⟩, hr⟩ := (memoryWf_iff s).1 hm
  exact (memoryWf_iff _).2 ⟨⟨h1, h2, h3, h4, cellsWf_cellsOf (by simp [heightTable])⟩, hr⟩

end

theorem finish_keeps_memoryWf {s : State} {body : Except Stop Result} (f : State → State) (hf : memoryWf (f s) = true)
    (hb : BodyResultWf body) {t : State} (h : finish f body s = .next t) : memoryWf t = true := by
  rcases finish_cases f body s with ⟨r, hbody, he⟩ | ⟨r, -, he⟩ | ⟨n, -, he⟩ <;> rw [he] at h <;> cases h
  · exact memoryWf_respond hf _ _ (hb r hbody)
  · exact memoryWf_respond hf _ _ resultWf_unwritten
  · exact memoryWf_addFault hf n

/-- Every operation keeps the canonical form of every space and of the result, from any state (R50). -/
theorem exec_keeps_memoryWf {s t : State} (i : Instr) (hm : memoryWf s = true) (h : exec i s = .next t) :
    memoryWf t = true := by
  rcases opKind_cases i with hk | hk | hk | hk | hk
  · obtain ⟨bad, cmd, p, reply, he, hlen, -⟩ := exec_encodeA hk s.params
    rw [he s rfl] at h
    rcases encodeA_cases bad cmd p reply s with ⟨-, hc⟩ | ⟨-, r, -, hc⟩ | ⟨-, hbad, hc⟩ <;> rw [hc] at h <;> cases h
    · exact memoryWf_addFault hm _
    · exact memoryWf_respond (memoryWf_dropTxa hm) _ _ resultWf_unwritten
    · have hload := memoryWf_loadTxa hm (frameA_length cmd (hlen hbad)).le
      exact memoryWf_respond (memoryWf_setOutstanding hload _) _ _ resultWf_unwritten
  · obtain ⟨bad, cmd, id, p, reply, he, hlen, -⟩ := exec_encodeB hk s.params
    rw [he s rfl] at h
    rcases encodeB_cases bad cmd id p reply s with ⟨-, hc⟩ | ⟨-, r, -, hc⟩ | ⟨-, hbad, hc⟩ <;>
      rw [hc] at h <;> cases h
    · exact memoryWf_addFault hm _
    · exact memoryWf_respond (memoryWf_dropTxb hm) _ _ resultWf_unwritten
    · have hf : (frameB cmd id p).length ≤ 258 := by
        have := hlen hbad
        rw [frameB_length]; omega
      exact memoryWf_respond (memoryWf_setOutstanding (memoryWf_loadTxb hm hf) _) _ _ resultWf_unwritten
  · obtain ⟨body, he, hb⟩ := exec_decode_resultWf hm hk
    exact finish_keeps_memoryWf (setOutstanding none) (memoryWf_setOutstanding hm _) hb (he.symm.trans h)
  · obtain ⟨body, he, hb⟩ := exec_mapper_resultWf hk s
    exact finish_keeps_memoryWf id hm hb (he.symm.trans h)
  · rcases exec_load hk s with ⟨x, he⟩ | ⟨-, b, hb, he⟩ | ⟨-, b, hb, he⟩ | ⟨-, -, l1, l2, l3, l4, -, -, he⟩ <;>
      rw [he] at h <;> cases h
    · exact memoryWf_respond hm _ _ resultWf_unwritten
    · exact memoryWf_respond (memoryWf_loadRxa hm hb) _ _ resultWf_unwritten
    · exact memoryWf_respond (memoryWf_loadRxb hm hb) _ _ resultWf_unwritten
    · exact memoryWf_respond (memoryWf_loadArm hm _ l1 l2 l3 l4) _ _ resultWf_unwritten

/-! ### Each update keeps the invariant -/

section
variable {s : State} (h : Inv s)
include h

theorem inv_withRequests (rs : List Request) : Inv (withRequests rs s) := { h with }

theorem inv_markRefused : Inv (markRefused s) := { h with }

theorem inv_addFault (n : FaultName) : Inv (addFault n s) := { h with }

theorem inv_clearOutstanding : Inv (setOutstanding none s) :=
  { h with
    pendingA := fun _ hp => by cases hp
    pendingB := fun _ hp => by cases hp }

theorem inv_respond {code : Byte} (info : Info) {r : Result} (hc : code ∈ statusCodes) (hr : ResultWf r) :
    Inv (respond code info r s) :=
  { h with
    memory := memoryWf_respond h.memory code info hr
    response := rfl
    status := hc }

theorem inv_dropTxa (ho : s.outstanding = none) : Inv (dropTxa s) :=
  { h with
    txaValid := fun hv => by cases hv
    pendingA := fun _ hp => by cases ho.symm.trans hp }

theorem inv_dropTxb (ho : s.outstanding = none) : Inv (dropTxb s) :=
  { h with
    txbValid := fun hv => by cases hv
    pendingB := fun _ hp => by cases ho.symm.trans hp }

theorem inv_offerA (cmd : Byte) {p : List Byte} (hp : p.length ≤ 60) (reply : Bool) :
    Inv (setOutstanding (if reply then some ⟨.a, cmd⟩ else none) (loadTxa (frameA cmd p) s)) :=
  { h with
    memory := memoryWf_loadTxa h.memory (frameA_length cmd hp).le
    txa := .inr ⟨cmd, p, hp, rfl⟩
    txaValid := fun _ => List.cons_ne_nil _ _
    pendingA := fun c hc => by cases reply <;> cases hc; exact ⟨rfl, rfl⟩
    pendingB := fun c hc => by cases reply <;> cases hc }

theorem inv_offerB (cmd id : Byte) {p : List Byte} (hp : p.length ≤ 252) (reply : Bool) :
    Inv (setOutstanding (if reply then some ⟨.b, cmd⟩ else none) (loadTxb (frameB cmd id p) s)) :=
  have hl : (frameB cmd id p).length = p.length + 6 := frameB_length cmd id p
  { h with
    memory := memoryWf_loadTxb h.memory (by omega)
    txb := .inr ⟨cmd, id, p, hp, rfl, hl ▸ countHalf_toNat (by omega)⟩
    txbValid := fun _ => List.cons_ne_nil _ _
    pendingA := fun c hc => by cases reply <;> cases hc
    pendingB := fun c hc => by cases reply <;> cases hc; exact ⟨rfl, rfl⟩ }

theorem inv_loadRxa {b : List Byte} (hb : b.length ≤ 64) : Inv (loadRxa b s) :=
  have hcount : (countByte b.length).toNat = b.length := countByte_toNat (by omega)
  { h with
    memory := memoryWf_loadRxa h.memory hb
    rxa := by
      rw [loadRxa_rxaCount, loadRxa_rxa, hcount]
      exact ⟨hb, fun a => by simp⟩ }

theorem inv_loadRxb {b : List Byte} (hb : b.length ≤ 258) : Inv (loadRxb b s) :=
  have hcount : (countHalf b.length).toNat = b.length := countHalf_toNat (by omega)
  { h with
    memory := memoryWf_loadRxb h.memory hb
    rxb := by
      rw [loadRxb_rxbCount, loadRxb_rxb, hcount]
      exact ⟨hb, fun a => by simp⟩ }

theorem inv_loadArm {l1 l2 l3 l4 : F64} (hl : (lengthOk l1 && lengthOk l2 && lengthOk l3 && lengthOk l4) = true)
    (hf : (heightTable s.params.numeric l1 l2 l3 l4).all f64Finite = true) :
    Inv (loadArm l1 l2 l3 l4 (heightTable s.params.numeric l1 l2 l3 l4) s) :=
  { h with
    memory := memoryWf_loadArm h.memory _ l1 l2 l3 l4
    unarmed := fun hv => by cases hv
    armed := fun _ => ⟨l1, l2, l3, l4, hl, rfl, rfl, rfl, rfl, rfl, hf⟩ }

end

theorem ok_mem_statusCodes : 0x00#8 ∈ statusCodes := by decide

/-- The code of a raised outcome is one an outcome can have (R220). -/
theorem RaiseOk.code_mem {r : Raise} (h : RaiseOk r) : outcomeCode r.kind ∈ statusCodes := by
  rcases h with ⟨x, rfl⟩ | ⟨a, lo, hi, rfl⟩ | ⟨k, rfl, -, -, hk, -⟩
  · exact show outcomeCode .badRequest ∈ statusCodes by decide
  · exact show outcomeCode .parameterOutOfRange ∈ statusCodes by decide
  · show outcomeCode k ∈ statusCodes
    cases k with
    | transportError => exact absurd rfl hk
    | _ => decide

theorem inv_raise {s : State} (h : Inv s) {r : Raise} (hr : RaiseOk r) :
    Inv (respond (outcomeCode r.kind) r.info Result.unwritten s) :=
  inv_respond h r.info hr.code_mem resultWf_unwritten

theorem inv_done {s : State} (h : Inv s) : Inv (respond 0x00#8 Info.zero Result.unwritten s) :=
  inv_respond h _ ok_mem_statusCodes resultWf_unwritten

theorem finish_keeps_inv {s t : State} {body : Except Stop Result} (f : State → State) (hf : Inv (f s))
    (hb : BodyOk body) (hmem : memoryWf t = true) (h : finish f body s = .next t) : Inv t := by
  rcases finish_cases f body s with ⟨r, -, he⟩ | ⟨r, hbody, he⟩ | ⟨n, -, he⟩ <;> rw [he] at h <;> cases h
  · exact inv_respond hf _ ok_mem_statusCodes (resultWf_of_memoryWf hmem)
  · exact inv_raise hf (hb r hbody)
  · exact inv_addFault hf n

theorem exec_keeps_inv {s t : State} (i : Instr) (h : Inv s) (he : exec i s = .next t) : Inv t := by
  have hmem : memoryWf t = true := exec_keeps_memoryWf i h.memory he
  rcases opKind_cases i with hk | hk | hk | hk | hk
  · obtain ⟨bad, cmd, p, reply, hi, hlen, hraise⟩ := exec_encodeA hk s.params
    rw [hi s rfl] at he
    rcases encodeA_cases bad cmd p reply s with ⟨-, hc⟩ | ⟨ho, r, hr, hc⟩ | ⟨ho, hbad, hc⟩ <;>
      rw [hc] at he <;> cases he
    · exact inv_addFault h _
    · exact inv_raise (inv_dropTxa h ho) (hraise r hr)
    · exact inv_done (inv_offerA h cmd (hlen hbad) reply)
  · obtain ⟨bad, cmd, id, p, reply, hi, hlen, hraise⟩ := exec_encodeB hk s.params
    rw [hi s rfl] at he
    rcases encodeB_cases bad cmd id p reply s with ⟨-, hc⟩ | ⟨ho, r, hr, hc⟩ | ⟨ho, hbad, hc⟩ <;>
      rw [hc] at he <;> cases he
    · exact inv_addFault h _
    · exact inv_raise (inv_dropTxb h ho) (hraise r hr)
    · exact inv_done (inv_offerB h cmd id (hlen hbad) reply)
  · obtain ⟨body, hi, hb⟩ := exec_decode hk s
    exact finish_keeps_inv (setOutstanding none) (inv_clearOutstanding h) hb hmem (hi.symm.trans he)
  · obtain ⟨body, hi, hb⟩ := exec_mapper hk s
    exact finish_keeps_inv id h hb hmem (hi.symm.trans he)
  · rcases exec_load hk s with ⟨x, hc⟩ | ⟨-, b, hb, hc⟩ | ⟨-, b, hb, hc⟩ | ⟨-, -, l1, l2, l3, l4, hl, hf, hc⟩ <;>
      rw [hc] at he <;> cases he
    · exact inv_raise h (raiseOk_badRequest x)
    · exact inv_done (inv_loadRxa h hb)
    · exact inv_done (inv_loadRxb h hb)
    · exact inv_done (inv_loadArm h hl hf)

/-- What a step that answers a next state did: it stayed idle, refused a reserved selector, or executed the first
request. -/
theorem step_next_cases {s t : State} (h : step s = .next t) :
    t = s ∨ ∃ r rs, s.requests = r :: rs ∧
      (t = markRefused (withRequests rs s) ∨
        ∃ i, decode s.params.commands r = .ok i ∧ exec i (withRequests rs s) = .next t) := by
  unfold step at h
  split at h
  · cases h
  split at h
  · cases h
  split at h
  · cases h; exact .inl rfl
  · rename_i r rs hreq
    refine .inr ⟨r, rs, hreq, ?_⟩
    unfold takeRequest at h
    split at h
    · rename_i i hd; exact .inr ⟨i, hd, h⟩
    · cases h; exact .inl rfl
    · cases h
    · cases h
    · cases h

/-- Settles O11: the idle step, the refused selector and the executed request each keep it. -/
theorem stepKeepsInv : Obligations.StepKeepsInv := by
  intro s t h hstep
  rcases step_next_cases hstep with rfl | ⟨r, rs, -, rfl | ⟨i, -, he⟩⟩
  · exact h
  · exact inv_markRefused (inv_withRequests h rs)
  · exact exec_keeps_inv i (inv_withRequests h rs) he

/-- The command bytes at reset are usable, the arctangent is one R188 describes, and the read timeout is positive. -/
theorem givenParams_ok : paramsOk givenParams = true := by
  rw [paramsOk, Bool.and_eq_true, Bool.and_eq_true]
  exact ⟨⟨defaultCommands_ok, givenAtan_ok⟩, decide_eq_true (Nat.succ_pos _)⟩

/-- Settles O9, clause by clause: every register is at its reset value. -/
theorem invHoldsAtReset : Obligations.InvHoldsAtReset where
  params := givenParams_ok
  memory := by decide
  response := rfl
  status := ok_mem_statusCodes
  txa := .inl rfl
  txaValid := fun h => by cases h
  rxa := ⟨by decide, fun a => by simp [State.reset]⟩
  txb := .inl ⟨rfl, rfl⟩
  txbValid := fun h => by cases h
  rxb := ⟨by decide, fun a => by simp [State.reset]⟩
  unarmed := fun _ => ⟨rfl, rfl, rfl, rfl, rfl⟩
  armed := fun h => by cases h
  pendingA := fun _ h => by cases h
  pendingB := fun _ h => by cases h

end Sys2Proof.Machine
end

section
/-! Rounding to a binary64 magnitude: no magnitude is nearer than the answer, ties go to even, and where the infinities
begin (R11, R180). -/

namespace Sys2Proof.Machine

/-- Where the quotient lies an exact half between two integers, the even one is taken. -/
theorem divRoundEven_tie {num den : Nat} (h : 0 < den)
    (ht : 2 * (divRoundEven num den * den) = 2 * num + den ∨ 2 * num = 2 * (divRoundEven num den * den) + den) :
    divRoundEven num den % 2 = 0 := by
  have hn : num / den * den + num % den = num := Nat.div_add_mod' num den
  have hr : num % den < den := Nat.mod_lt _ h
  unfold divRoundEven at ht ⊢
  generalize num / den = q at *
  generalize num % den = r at *
  split at ht
  · omega
  split at ht
  · rw [Nat.add_mul, Nat.one_mul] at ht; omega
  · rw [if_neg (by assumption), if_neg (by assumption)]; omega

/-- A magnitude below the answer lies below the quotient, and where the answer lies above the quotient, a whole spacing
below the answer. -/
theorem magUnits_of_lt_roundUnits {num den m s d : Nat} (h : 0 < den) (hr : roundUnits num den = s * 2 ^ 52 + d)
    (hd : d ≤ 2 ^ 53) (hge : s = 0 ∨ den * 2 ^ (52 + s) ≤ num) (hm : m < roundUnits num den) :
    magUnits m * den < num ∧ (num < d * (den * 2 ^ s) → magUnits m * den + den * 2 ^ s ≤ d * (den * 2 ^ s)) := by
  refine ⟨?_, fun habove => ?_⟩
  · by_contra hc
    exact absurd (roundUnits_le h (Nat.not_lt.1 hc)) (Nat.not_le.2 hm)
  · have hsd : s = 0 ∨ 2 ^ 52 < d := by
      rcases hge with hge | hge
      · exact .inl hge
      · right
        by_contra hc
        have hd52 : d * (den * 2 ^ s) ≤ 2 ^ 52 * (den * 2 ^ s) := Nat.mul_le_mul_right _ (Nat.not_lt.1 hc)
        rw [show 2 ^ 52 * (den * 2 ^ s) = den * 2 ^ (52 + s) by rw [Nat.pow_add]; ring] at hd52
        omega
    have hpred : magUnits m ≤ (d - 1) * 2 ^ s := by
      rw [← magUnits_scaled (s := s) (d := d - 1) (by omega) (by omega)]
      exact magUnits_le (by omega)
    have hd1 : 1 ≤ d := by omega
    calc magUnits m * den + den * 2 ^ s ≤ (d - 1) * 2 ^ s * den + den * 2 ^ s := by gcongr
      _ = (d - 1 + 1) * (den * 2 ^ s) := by ring
      _ = d * (den * 2 ^ s) := by rw [Nat.sub_add_cancel hd1]

/-- A magnitude above the answer lies above the quotient, and where the answer lies below the quotient, a whole spacing
above the answer. -/
theorem magUnits_of_roundUnits_lt {num den m s d : Nat} (h : 0 < den) (hr : roundUnits num den = s * 2 ^ 52 + d)
    (hd : d ≤ 2 ^ 53) (hs : s = 0 ∨ 2 ^ 52 ≤ d) (hlt : num < den * 2 ^ (53 + s)) (hinf : m ≤ infMag)
    (hm : roundUnits num den < m) :
    num < magUnits m * den ∧ (d * (den * 2 ^ s) < num → d * (den * 2 ^ s) + den * 2 ^ s ≤ magUnits m * den) := by
  refine ⟨?_, fun hbelow => ?_⟩
  · by_contra hc
    exact absurd (le_roundUnits h hinf (Nat.not_lt.1 hc)) (Nat.not_le.2 hm)
  · have hd53 : d < 2 ^ 53 := by
      by_contra hc
      have hmul : 2 ^ 53 * (den * 2 ^ s) ≤ d * (den * 2 ^ s) := Nat.mul_le_mul_right _ (Nat.not_lt.1 hc)
      rw [show 2 ^ 53 * (den * 2 ^ s) = den * 2 ^ (53 + s) by rw [Nat.pow_add]; ring] at hmul
      omega
    have hsucc : (d + 1) * 2 ^ s ≤ magUnits m := by
      rw [← magUnits_scaled (s := s) (d := d + 1) (by omega) (by omega)]
      exact magUnits_le (by omega)
    calc d * (den * 2 ^ s) + den * 2 ^ s = (d + 1) * 2 ^ s * den := by ring
      _ ≤ magUnits m * den := by gcongr

/-- How far a magnitude lies from `num / den` units, in units of `1 / den`. -/
def unitDist (num den m : Nat) : Nat := ((magUnits m : Int) * den - num).natAbs

theorem unitDist_eq (num den m : Nat) : unitDist num den m = (((magUnits m * den : Nat) : Int) - num).natAbs := by
  rw [unitDist, Nat.cast_mul]

/-- The answer errs by at most half its spacing, and any other magnitude lies at least a whole spacing from it, on the
quotient's side or beyond: so the answer is nearest, and a tie is an exact half. -/
theorem roundUnits_nearest {num den m : Nat} (h : 0 < den) (hr : roundUnits num den < infMag) (hm : m < infMag) :
    unitDist num den (roundUnits num den) ≤ unitDist num den m ∧
      (unitDist num den (roundUnits num den) = unitDist num den m → m ≠ roundUnits num den →
        roundUnits num den % 2 = 0) := by
  rcases eq_or_ne m (roundUnits num den) with rfl | hne
  · exact ⟨le_refl _, fun _ hne => absurd rfl hne⟩
  obtain ⟨s, d, hcap, hd, hs, hdef, hlt, hge⟩ := roundUnits_scaled num h
  have hr' : roundUnits num den = s * 2 ^ 52 + d := by omega
  have hunits : magUnits (roundUnits num den) * den = d * (den * 2 ^ s) := by
    rw [hr', magUnits_scaled hd hs]; ring
  have hp : 0 < den * 2 ^ s := Nat.mul_pos h (Nat.two_pow_pos _)
  have herr := divRoundEven_err num hp
  have htie := divRoundEven_tie (num := num) hp
  rw [← hdef] at herr htie
  have heven : d % 2 = 0 → roundUnits num den % 2 = 0 := by omega
  have hmono : ∀ {k l : Nat}, k < l → magUnits k * den < magUnits l * den := fun hkl =>
    Nat.mul_lt_mul_of_pos_right (magUnits_strictMono hkl) h
  have hbelow := fun hmr : m < roundUnits num den => And.intro (hmono hmr) (magUnits_of_lt_roundUnits h hr' hd hge hmr)
  have habove := fun hmr : roundUnits num den < m =>
    And.intro (hmono hmr) (magUnits_of_roundUnits_lt h hr' hd hs hlt hm.le hmr)
  rw [unitDist_eq, unitDist_eq]
  rw [hunits] at hbelow habove ⊢
  generalize d * (den * 2 ^ s) = a at *
  generalize magUnits m * den = b at *
  generalize den * 2 ^ s = u at *
  rcases Nat.lt_or_gt_of_ne hne with hmr | hmr
  · obtain ⟨hba, hnum, hgap⟩ := hbelow hmr
    exact ⟨by omega, fun _ _ => heven (htie (by omega))⟩
  · obtain ⟨hab, hnum, hgap⟩ := habove hmr
    exact ⟨by omega, fun _ _ => heven (htie (by omega))⟩

theorem mul_two_pow_succ (den e : Nat) : den * 2 ^ (e + 1) = den * 2 ^ e * 2 := by
  rw [Nat.pow_succ, Nat.mul_assoc]

theorem mul_two_pow_le {e k : Nat} (den : Nat) (h : e ≤ k) : den * 2 ^ e ≤ den * 2 ^ k :=
  Nat.mul_le_mul_left _ (Nat.pow_le_pow_right Nat.two_pos h)

theorem infMag_eq : infMag = 2045 * 2 ^ 52 + 2 ^ 53 := by decide

/-- Half a spacing above the largest finite magnitude, counted in half spacings of the last binade. -/
theorem overflowBound_eq (den : Nat) : (2 ^ 54 - 1) * 2 ^ 2044 * den = (2 ^ 54 - 1) * (den * 2 ^ 2044) := by
  rw [Nat.mul_assoc, Nat.mul_comm (2 ^ 2044)]

/-- A quotient that rounds to an infinity lies at least half a spacing above the largest finite magnitude. -/
theorem overflowBound_le_of_roundUnits {num den : Nat} (h : 0 < den) (hr : roundUnits num den = infMag) :
    (2 ^ 54 - 1) * (den * 2 ^ 2044) ≤ num := by
  generalize he : 2044 = e
  obtain ⟨s, d, hcap, hd, -, hdef, -, hge⟩ := roundUnits_scaled num h
  have hmag : infMag ≤ s * 2 ^ 52 + d := by omega
  rw [infMag_eq] at hmag
  rcases Nat.lt_or_ge (e + 1) s with hs | hs
  · obtain ⟨k, rfl⟩ : ∃ k, s = k + 2 := ⟨s - 2, by omega⟩
    calc (2 ^ 54 - 1) * (den * 2 ^ e) ≤ 2 ^ 54 * (den * 2 ^ k) :=
          Nat.mul_le_mul (Nat.sub_le _ _) (mul_two_pow_le den (by omega))
      _ = den * 2 ^ (52 + (k + 2)) := by rw [Nat.pow_add, Nat.pow_add]; ring
      _ ≤ num := hge.resolve_left (by omega)
  · obtain rfl : s = e + 1 := by omega
    have hd' : d = 2 ^ 53 := by omega
    have herr := (divRoundEven_err num (Nat.mul_pos h (Nat.two_pow_pos (e + 1)))).1
    rw [← hdef, hd', mul_two_pow_succ] at herr
    generalize den * 2 ^ e = u at *
    omega

/-- From half a spacing above the largest finite magnitude on, a quotient rounds to an infinity: the tie at the bound
itself leaves the largest finite magnitude, whose last bit is 1. -/
theorem roundUnits_of_overflowBound_le {num den : Nat} (h : 0 < den) (hle : (2 ^ 54 - 1) * (den * 2 ^ 2044) ≤ num) :
    roundUnits num den = infMag := by
  generalize he : 2044 = e at hle
  obtain ⟨s, d, hcap, hd, hs, hdef, -, -⟩ := roundUnits_scaled num h
  by_contra hne
  have hmag : s * 2 ^ 52 + d < infMag := by omega
  rw [infMag_eq] at hmag
  have hp : 0 < den * 2 ^ s := Nat.mul_pos h (Nat.two_pow_pos s)
  have herr := (divRoundEven_err num hp).2
  have htie := divRoundEven_tie (num := num) hp
  rw [← hdef] at herr htie
  have hu : 0 < den * 2 ^ e := Nat.mul_pos h (Nat.two_pow_pos e)
  rcases Nat.lt_or_ge e s with hes | hes
  · obtain rfl : s = e + 1 := by omega
    rw [mul_two_pow_succ] at herr htie
    generalize den * 2 ^ e = u at *
    have hd' : d = 2 ^ 53 - 1 := by
      by_contra hc
      have : d * (u * 2) ≤ (2 ^ 53 - 2) * (u * 2) := Nat.mul_le_mul_right _ (by omega)
      omega
    subst hd'
    omega
  · have hd' : d * (den * 2 ^ s) ≤ 2 ^ 53 * (den * 2 ^ s) := Nat.mul_le_mul_right _ hd
    have hsu := mul_two_pow_le den hes
    generalize den * 2 ^ e = u at *
    generalize den * 2 ^ s = v at *
    omega

theorem roundUnits_eq_infMag_iff (num : Nat) {den : Nat} (h : 0 < den) :
    roundUnits num den = infMag ↔ (2 ^ 54 - 1) * 2 ^ 2044 * den ≤ num := by
  rw [overflowBound_eq]
  exact ⟨overflowBound_le_of_roundUnits h, roundUnits_of_overflowBound_le h⟩

/-- Settles O60. -/
theorem roundingIsNearestEven : Obligations.RoundingIsNearestEven :=
  ⟨fun _ _ _ h hr hm => roundUnits_nearest h hr hm,
    fun num _ h => ⟨roundUnits_le_infMag num _, roundUnits_eq_infMag_iff num h⟩⟩

end Sys2Proof.Machine
end

section
/-! What the request port decodes: the operand record of a well-formed operation, then bytes the record does not use
(R24, R75). -/

namespace Sys2Proof

open Sys2Proof.Machine

/-- Selector `op` and the bytes `bs` hold the request of the well-formed operation `i`, and maybe bytes after it. -/
def HoldsRecord (c : Config.Commands) (op : Byte) (bs : List Byte) (i : Instr) : Prop :=
  i.wellFormed = true ∧ ∃ record rest, bs = record ++ rest ∧ encode c i = ⟨.request, op :: record⟩

/-- A count byte and as many servo-position pairs are the bytes the encoder writes for them. -/
theorem countByte_triples {n : Byte} {pairs : List ServoPos} (h : pairs.length = n.toNat) (rest : List Byte) :
    pairs.length ≤ 255 ∧ n :: (triples pairs ++ rest) = countByte pairs.length :: triples pairs ++ rest := by
  have hn := n.isLt
  exact ⟨by omega, by rw [h, countByte_of_toNat]; rfl⟩

/-- Each selector's record is read operand by operand, and each reader takes exactly the bytes the encoder writes for what
it answers. -/
theorem decodeOperands_holdsRecord (c : Config.Commands) {op : Nat} {bs : List Byte} {i : Instr}
    (h : decodeOperands op bs = .ok i) : HoldsRecord c (BitVec.ofNat 8 op) bs i := by
  unfold decodeOperands at h
  split at h <;> simp only [take_bind_ok, takeU8_ok, takeBit_ok, takeU16_ok, takeI32_ok, takeF64_ok, takePairs_ok,
    takeCounted_ok, takeCounted16_ok, Except.ok.injEq, reduceCtorEq] at h
  -- 0x05, 0x0A: no operands
  case h_5 | h_9 => subst h; exact ⟨rfl, [], bs, rfl, rfl⟩
  -- 0x23, 0x25: one byte
  case h_22 | h_24 => obtain ⟨_, rest, rfl, rfl⟩ := h; exact ⟨rfl, [_], rest, rfl, rfl⟩
  -- 0x08, 0x18: two bytes
  case h_7 | h_17 => obtain ⟨_, _, rfl, _, rest, rfl, rfl⟩ := h; exact ⟨rfl, [_, _], rest, rfl, rfl⟩
  -- 0x03, 0x04, 0x06, 0x09, 0x19: a counted list
  case h_3 | h_4 | h_6 | h_8 | h_18 =>
    obtain ⟨_, rest, ⟨hl, rfl⟩, rfl⟩ := h
    exact ⟨decide_eq_true hl, _, rest, rfl, rfl⟩
  -- 0x16: a list with a count of two bytes
  case h_16 =>
    obtain ⟨_, rest, ⟨hl, rfl⟩, rfl⟩ := h
    exact ⟨decide_eq_true hl, _, rest, rfl, rfl⟩
  -- 0x01: a command, a bit and a counted payload
  case h_1 =>
    obtain ⟨_, _, rfl, _, _, rfl, _, rest, ⟨hl, rfl⟩, rfl⟩ := h
    exact ⟨decide_eq_true hl, _ :: _ :: counted _, rest, rfl, rfl⟩
  -- 0x10: the same with a servo id
  case h_10 =>
    obtain ⟨_, _, rfl, _, _, rfl, _, _, rfl, _, rest, ⟨hl, rfl⟩, rfl⟩ := h
    exact ⟨decide_eq_true hl, _ :: _ :: _ :: counted _, rest, rfl, rfl⟩
  -- 0x02: a duration and counted pairs
  case h_2 =>
    obtain ⟨_, _, rfl, _, _, rfl, _, rest, ⟨hl, rfl⟩, rfl⟩ := h
    obtain ⟨hle, hbytes⟩ := countByte_triples hl rest
    exact ⟨decide_eq_true hle, _, rest, by rw [hbytes, List.append_assoc], rfl⟩
  -- 0x11 to 0x14: an id and two `u16`
  case h_11 | h_12 | h_13 | h_14 =>
    obtain ⟨_, _, rfl, _, _, rfl, _, rest, rfl, rfl⟩ := h
    exact ⟨rfl, _ :: (bytes16 _ ++ bytes16 _), rest, rfl, rfl⟩
  -- 0x15: an id and one `u16`
  case h_15 => obtain ⟨_, _, rfl, _, rest, rfl, rfl⟩ := h; exact ⟨rfl, _ :: bytes16 _, rest, rfl, rfl⟩
  -- 0x24: one `f64`
  case h_23 => obtain ⟨_, rest, rfl, rfl⟩ := h; exact ⟨rfl, bytes64 _, rest, rfl, rfl⟩
  -- 0x26: two `f64`
  case h_25 =>
    obtain ⟨_, _, rfl, _, rest, rfl, rfl⟩ := h
    exact ⟨rfl, bytes64 _ ++ bytes64 _, rest, by rw [List.append_assoc], rfl⟩
  -- 0x20, 0x21: three operands, the first an `f64` or an `i32`
  case h_19 | h_20 =>
    obtain ⟨_, _, rfl, _, _, rfl, _, rest, rfl, rfl⟩ := h
    exact ⟨rfl, _, rest, by simp only [List.append_assoc], rfl⟩
  -- 0x22: four `f64`
  case h_21 =>
    obtain ⟨_, _, rfl, _, _, rfl, _, _, rfl, _, rest, rfl, rfl⟩ := h
    exact ⟨rfl, _, rest, by simp only [List.append_assoc], rfl⟩

/-- Settles O2: the selector byte is the one the encoder writes, and its record opens the bytes after it. -/
theorem requestPortDecodeIsExact : Obligations.RequestPortDecodeIsExact := by
  intro c bs i h
  cases bs with
  | nil => cases h
  | cons op bs =>
    obtain ⟨hw, record, rest, rfl, he⟩ := decodeOperands_holdsRecord c (show decodeOperands op.toNat bs = .ok i from h)
    rw [BitVec.ofNat_toNat, BitVec.setWidth_eq] at he
    rw [he]
    exact ⟨hw, rfl, rest, rfl⟩

end Sys2Proof
end

section
/-! One step by the state it starts from: an ended run, an idle block, or the next request; and reset. -/

namespace Sys2Proof.Machine

open Sys2Proof.Claims

theorem step_of_fault {s : State} (hf : s.faults ≠ []) : step s = .fault .runEnded := by
  rw [step, if_pos hf]

theorem step_of_refused {s : State} (hf : s.faults = []) (hr : s.refused = true) : step s = .refused .runEnded := by
  rw [step, if_neg (not_not_intro hf), if_pos hr]

theorem step_idle {s : State} (hf : s.faults = []) (hr : s.refused = false) (hq : s.requests = []) :
    step s = .next s := by
  simp [step, hf, hr, hq]

theorem step_request {s : State} {r : Request} {rs : List Request} (hf : s.faults = []) (hr : s.refused = false)
    (hq : s.requests = r :: rs) : step s = takeRequest r (withRequests rs s) := by
  simp [step, hf, hr, hq]

theorem takeRequest_of_decode {r : Request} {i : Instr} {s : State} (h : decode s.params.commands r = .ok i) :
    takeRequest r s = exec i s := by
  simp [takeRequest, h]

/-- Taking a request leaves the ones behind it: an operation does not touch them, and a refusal sets only a ghost. -/
theorem takeRequest_requests {r : Request} {s t : State} (h : takeRequest r s = .next t) : t.requests = s.requests := by
  unfold takeRequest at h
  split at h
  · rename_i i _
    rcases exec_next i s with ⟨n, he⟩ | ⟨u, code, info, res, he, hreq, -⟩ <;> rw [he] at h <;> cases h
    · split <;> rfl
    · exact hreq
  · cases h; rfl
  all_goals cases h

/-- Settles O4. -/
theorem stepRunsTheDecodedRequest : Obligations.StepRunsTheDecodedRequest := by
  intro s r rs i hf hr hq hd
  exact (step_request hf hr hq).trans (takeRequest_of_decode hd)

/-- Settles O6. -/
theorem endedOrIdleBlockTakesNothing : Obligations.EndedOrIdleBlockTakesNothing :=
  ⟨fun _ => step_of_fault, fun _ => step_of_refused, fun _ => step_idle⟩

/-- Settles O7, by what the block finds: an ended run answers no next state, an idle block has nothing to take, and a
request is taken from the front. -/
theorem pendingRequestsKeepTheirOrder : Obligations.PendingRequestsKeepTheirOrder := by
  intro s t h
  by_cases hf : s.faults = []
  case neg => rw [step_of_fault hf] at h; cases h
  cases hr : s.refused with
  | true => rw [step_of_refused hf hr] at h; cases h
  | false =>
    cases hq : s.requests with
    | nil => rw [step_idle hf hr hq] at h; cases h; exact hq
    | cons r rs => rw [step_request hf hr hq] at h; exact takeRequest_requests h

/-- Settles O8, entry by entry of R41. -/
theorem resetLeavesTheTable : Obligations.ResetLeavesTheTable :=
  ⟨rfl, rfl, rfl, fun _ => rfl, rfl, fun _ => rfl, rfl, fun _ => rfl, rfl, rfl, fun _ => rfl, rfl, rfl,
    rfl, rfl, rfl, rfl, rfl, fun _ => rfl, rfl, rfl, rfl⟩

end Sys2Proof.Machine
end

section
/-! `M.LOADARM` where it writes the height table (R34, R35, R183). -/

namespace Sys2Proof.Machine

open Sys2Proof.Claims

theorem lengthOk_of_valid {l1 l2 l3 l4 : F64} (h : ValidLengths l1 l2 l3 l4) :
    (lengthOk l1 && lengthOk l2 && lengthOk l3 && lengthOk l4) = true := by
  simpa [ValidLengths, lengthOk, and_assoc] using h

/-- The formula of the statements is the one the model computes: `PI / 2` is its constant (R11). -/
theorem heightEntry_of_isHeightTable {n : Config.Numeric} {l1 l2 l3 l4 : F64} {e : Nat → F64}
    (h : IsHeightTable n l1 l2 l3 l4 e) : heightEntry n l1 l2 l3 l4 = e := by
  funext i
  rw [h i, f64HalfPi_eq]
  rfl

theorem heightTable_getElem? (n : Config.Numeric) (l1 l2 l3 l4 : F64) (i : Nat) :
    (heightTable n l1 l2 l3 l4)[i]? = if i < 128 then some (heightEntry n l1 l2 l3 l4 i) else none := by
  by_cases hi : i < 128 <;> simp [heightTable, Config.pzEntries, hi]

theorem heightTable_finite {n : Config.Numeric} {l1 l2 l3 l4 : F64}
    (h : ∀ i, i < 128 → f64Finite (heightEntry n l1 l2 l3 l4 i) = true) :
    (heightTable n l1 l2 l3 l4).all f64Finite = true := by
  simpa [heightTable, Config.pzEntries] using h

theorem exec_mLoadarm_builds {l1 l2 l3 l4 : F64} {s : State}
    (hl : (lengthOk l1 && lengthOk l2 && lengthOk l3 && lengthOk l4) = true) (hv : s.armValid = false)
    (hfin : (heightTable s.params.numeric l1 l2 l3 l4).all f64Finite = true) :
    exec (.mLoadarm l1 l2 l3 l4) s =
      complete Result.unwritten (loadArm l1 l2 l3 l4 (heightTable s.params.numeric l1 l2 l3 l4) s) := by
  simp [exec, execMLoadarm, hl, hv, hfin]

/-- Settles O52: the three checks pass, so the table of the formula is loaded. -/
theorem loadarmBuildsTheTable : Obligations.LoadarmBuildsTheTable := by
  intro l1 l2 l3 l4 e s hl hv he hfin
  have hentry := heightEntry_of_isHeightTable he
  refine ⟨_, exec_mLoadarm_builds (lengthOk_of_valid hl) hv (heightTable_finite (hentry ▸ hfin)),
    ⟨rfl, rfl, rfl, rfl⟩, rfl, rfl, rfl, rfl, rfl, fun i => ?_, rfl, ?_⟩
  · simp [heightTable_getElem?, hentry]
  · simp [KeepsRun, KeepsTxa, KeepsRxa, KeepsTxb, KeepsRxb]

end Sys2Proof.Machine
end

section
/-! Every next state of an operation, said once by its kind, and what follows for the response port, `OUTSTANDING` and the
ArmModel registers. -/

namespace Sys2Proof.Machine

/-- The outcomes an operation can write over the update `u` of its registers: `OK`, or a raised one (R226). -/
inductive Responds (u : State) : State → Prop
  | ok (r : Result) : Responds u (respond 0x00#8 Info.zero r u)
  | raise {r : Raise} (hr : RaiseOk r) : Responds u (respond (outcomeCode r.kind) r.info Result.unwritten u)

/-- Every next state of an operation of a kind, from the state `s`. -/
inductive Runs (s : State) : OpKind → State → Prop
  /-- An encode while a reply is outstanding (R100). -/
  | hazard {k : OpKind} (hk : k = .encodeA ∨ k = .encodeB) : Runs s k (addFault .hazardOutstanding s)
  /-- A unit A encode whose operands do not pass (R29). -/
  | refuseA {r : Raise} (ho : s.outstanding = none) (hr : RaiseOk r) :
      Runs s .encodeA (respond (outcomeCode r.kind) r.info Result.unwritten (dropTxa s))
  /-- `BuildA` (R101). -/
  | offerA (cmd : Byte) (p : List Byte) (reply : Bool) :
      Runs s .encodeA (respond 0x00#8 Info.zero Result.unwritten
        (setOutstanding (if reply then some ⟨.a, cmd⟩ else none) (loadTxa (frameA cmd p) s)))
  /-- A unit B encode whose operands do not pass (R31). -/
  | refuseB {r : Raise} (ho : s.outstanding = none) (hr : RaiseOk r) :
      Runs s .encodeB (respond (outcomeCode r.kind) r.info Result.unwritten (dropTxb s))
  /-- `BuildB` (R141). -/
  | offerB (cmd id : Byte) (p : List Byte) (reply : Bool) :
      Runs s .encodeB (respond 0x00#8 Info.zero Result.unwritten
        (setOutstanding (if reply then some ⟨.b, cmd⟩ else none) (loadTxb (frameB cmd id p) s)))
  /-- A decode that ends with an outcome (R37). -/
  | decode {k : OpKind} {t : State} (hk : k = .decodeA ∨ k = .decodeB) (ht : Responds (setOutstanding none s) t) :
      Runs s k t
  /-- A decode that takes a fault (R225). -/
  | decodeFault {k : OpKind} (hk : k = .decodeA ∨ k = .decodeB) (n : FaultName) :
      Runs s k (addFault n (setOutstanding none s))
  /-- The checksum, or a unit M operation but `M.LOADARM`, that ends with an outcome. -/
  | compute {k : OpKind} {t : State} (hk : k = .checksum ∨ k = .mapper) (ht : Responds s t) : Runs s k t
  /-- A unit M operation that takes a fault. -/
  | computeFault {k : OpKind} (hk : k = .checksum ∨ k = .mapper) (n : FaultName) : Runs s k (addFault n s)
  /-- A load or `M.LOADARM` that is refused. -/
  | refuseLoad {k : OpKind} (hk : k = .loadA ∨ k = .loadB ∨ k = .loadArm) (x : Reason) :
      Runs s k (respond 0x10#8 (badRequest x).info Result.unwritten s)
  /-- `A.RXLOAD` (R107). -/
  | loadA (b : List Byte) : Runs s .loadA (respond 0x00#8 Info.zero Result.unwritten (loadRxa b s))
  /-- `B.RXLOAD` (R149). -/
  | loadB (b : List Byte) : Runs s .loadB (respond 0x00#8 Info.zero Result.unwritten (loadRxb b s))
  /-- `M.LOADARM` (R183). -/
  | loadArm (l1 l2 l3 l4 : F64) (e : List F64) (hv : s.armValid = false) :
      Runs s .loadArm (respond 0x00#8 Info.zero Result.unwritten (loadArm l1 l2 l3 l4 e s))

theorem finish_responds {f : State → State} {body : Except Stop Result} (hb : BodyOk body) {s t : State}
    (h : finish f body s = .next t) : Responds (f s) t ∨ ∃ n, t = addFault n (f s) := by
  rcases finish_cases f body s with ⟨r, -, he⟩ | ⟨r, hr, he⟩ | ⟨n, -, he⟩ <;> rw [he] at h <;> cases h
  · exact .inl (.ok r)
  · exact .inl (.raise (hb r hr))
  · exact .inr ⟨n, rfl⟩

/-- Every operation goes one of the ways of its kind. -/
theorem exec_runs {i : Instr} {s t : State} (h : exec i s = .next t) : Runs s (opKind i) t := by
  rcases opKind_cases i with hk | hk | hk | hk | hk
  · obtain ⟨bad, cmd, p, reply, hi, -, hraise⟩ := exec_encodeA hk s.params
    rw [hi s rfl] at h
    rcases encodeA_cases bad cmd p reply s with ⟨-, he⟩ | ⟨ho, r, hr, he⟩ | ⟨-, -, he⟩ <;> rw [he] at h <;> cases h
    · exact .hazard (.inl hk)
    · exact hk ▸ .refuseA ho (hraise r hr)
    · exact hk ▸ .offerA cmd p reply
  · obtain ⟨bad, cmd, id, p, reply, hi, -, hraise⟩ := exec_encodeB hk s.params
    rw [hi s rfl] at h
    rcases encodeB_cases bad cmd id p reply s with ⟨-, he⟩ | ⟨ho, r, hr, he⟩ | ⟨-, -, he⟩ <;> rw [he] at h <;> cases h
    · exact .hazard (.inr hk)
    · exact hk ▸ .refuseB ho (hraise r hr)
    · exact hk ▸ .offerB cmd id p reply
  · obtain ⟨body, hi, hb⟩ := exec_decode hk s
    rcases finish_responds hb (hi.symm.trans h) with ht | ⟨n, rfl⟩
    · exact .decode hk ht
    · exact .decodeFault hk n
  · obtain ⟨body, hi, hb⟩ := exec_mapper hk s
    rcases finish_responds hb (hi.symm.trans h) with ht | ⟨n, rfl⟩
    · exact .compute hk ht
    · exact .computeFault hk n
  · rcases exec_load hk s with ⟨x, he⟩ | ⟨hk, b, -, he⟩ | ⟨hk, b, -, he⟩ | ⟨hk, hv, l1, l2, l3, l4, -, -, he⟩ <;>
      rw [he] at h <;> cases h
    · exact .refuseLoad hk x
    · exact hk ▸ .loadA b
    · exact hk ▸ .loadB b
    · exact hk ▸ .loadArm l1 l2 l3 l4 _ hv

theorem addFault_faults_ne_nil (n : FaultName) (s : State) : (addFault n s).faults ≠ [] := by
  rw [addFault_faults]
  split
  · exact List.ne_nil_of_mem ‹_›
  · exact List.cons_ne_nil _ _

/-- Settles O13. -/
theorem everyOperationAnswers : Obligations.EveryOperationAnswers := by
  intro i s
  rcases exec_next i s with ⟨n, he⟩ | ⟨u, code, info, r, he, hreq, href, -, hpar⟩
  · refine ⟨_, he, ?_⟩
    split <;> exact ⟨rfl, rfl, rfl⟩
  · exact ⟨_, he, hreq, href, hpar⟩

theorem Responds.outstanding {u t : State} (h : Responds u t) : t.outstanding = u.outstanding := by
  cases h <;> rfl

theorem Responds.faults {u t : State} (h : Responds u t) : t.faults = u.faults := by
  cases h <;> rfl

/-! ### The ArmModel registers -/

/-- The ArmModel registers and `ARM_VALID` are as before. -/
def KeepsArmModel (s t : State) : Prop :=
  t.armL1 = s.armL1 ∧ t.armL2 = s.armL2 ∧ t.armL3 = s.armL3 ∧ t.armL4 = s.armL4 ∧ t.armValid = s.armValid

theorem Responds.keepsArmModel {u t : State} (h : Responds u t) : KeepsArmModel u t := by
  cases h <;> exact ⟨rfl, rfl, rfl, rfl, rfl⟩

/-- Settles O19: of all the ways an operation can go only the load of the ArmModel writes its registers, and that one needs
`ARM_VALID = 0`. -/
theorem armModelReadOnlyOnceLoaded : Obligations.ArmModelReadOnlyOnceLoaded := by
  intro i s t h hlocked
  generalize hk : opKind i = k at hlocked
  cases hk ▸ exec_runs h with
  | decode _ ht => exact ht.keepsArmModel
  | compute _ ht => exact ht.keepsArmModel
  | loadArm l1 l2 l3 l4 e hv => simp [hv] at hlocked
  | _ => exact ⟨rfl, rfl, rfl, rfl, rfl⟩

/-! ### `OUTSTANDING` -/

/-- What R37 says of `OUTSTANDING` after an operation of kind `k`. -/
def OutstandingRule (k : OpKind) (s t : State) : Prop :=
  (k = .decodeA ∨ k = .decodeB → t.outstanding = none) ∧
  (k = .loadA ∨ k = .loadB ∨ k = .checksum ∨ k = .loadArm ∨ k = .mapper → t.outstanding = s.outstanding) ∧
  (k = .encodeA → t.faults = [] → t.outstanding = none ∨
    t.status = 0x00#8 ∧ ∃ cmd, t.outstanding = some ⟨.a, cmd⟩ ∧ cellRead t.txa 3 = some cmd) ∧
  (k = .encodeB → t.faults = [] → t.outstanding = none ∨
    t.status = 0x00#8 ∧ ∃ cmd, t.outstanding = some ⟨.b, cmd⟩ ∧ cellRead t.txb 4 = some cmd)

theorem Runs.outstandingRule {k : OpKind} {s t : State} (h : Runs s k t) : OutstandingRule k s t := by
  cases h with
  | hazard hk => rcases hk with rfl | rfl <;> simp [OutstandingRule, addFault_faults_ne_nil, -addFault_faults]
  | refuseA ho _ => simp [OutstandingRule, ho]
  | refuseB ho _ => simp [OutstandingRule, ho]
  | offerA cmd p reply =>
    cases reply with
    | true => simp [OutstandingRule, frameA]
    | false => simp [OutstandingRule]
  | offerB cmd id p reply =>
    cases reply with
    | true => simp [OutstandingRule, frameB, frameBodyB]
    | false => simp [OutstandingRule]
  | decode hk ht => rcases hk with rfl | rfl <;> simp [OutstandingRule, ht.outstanding]
  | decodeFault hk n => rcases hk with rfl | rfl <;> simp [OutstandingRule]
  | compute hk ht => rcases hk with rfl | rfl <;> simp [OutstandingRule, ht.outstanding]
  | computeFault hk n => rcases hk with rfl | rfl <;> simp [OutstandingRule]
  | refuseLoad hk x => rcases hk with rfl | rfl | rfl <;> simp [OutstandingRule]
  | loadA b => simp [OutstandingRule]
  | loadB b => simp [OutstandingRule]
  | loadArm => simp [OutstandingRule]

/-- Settles O17. -/
theorem outstandingFollowsTheOperations : Obligations.OutstandingFollowsTheOperations :=
  fun _ _ _ h => (exec_runs h).outstandingRule

/-! ### The response port -/

/-- The outcome stands on the registers and on the response port, and is one R220 allows (R25 to R28). -/
def WritesOutcome (t : State) : Prop :=
  t.response = ⟨t.status, t.info, t.result⟩ ∧ t.status ∈ statusCodes ∧
  (t.status ≠ 0x00#8 → t.result = Result.unwritten) ∧
  (t.status = 0x01#8 → t.info.reason = 0#8 ∧ 1 ≤ t.info.arg.toNat ∧ t.info.arg.toNat ≤ 7) ∧
  (t.status = 0x10#8 → t.info.arg = 0#8 ∧ t.info.lo = 0#16 ∧ t.info.hi = 0#16 ∧
    1 ≤ t.info.reason.toNat ∧ t.info.reason.toNat ≤ 12) ∧
  (t.status ≠ 0x01#8 → t.status ≠ 0x10#8 → t.info = Info.zero)

theorem argCode_range (a : ArgName) : 1 ≤ (argCode a).toNat ∧ (argCode a).toNat ≤ 7 := by cases a <;> decide

theorem reasonCode_range (x : Reason) : 1 ≤ (reasonCode x).toNat ∧ (reasonCode x).toNat ≤ 12 := by cases x <;> decide

theorem outcomeCode_ne_outOfRange {k : OutcomeKind} : k ≠ .parameterOutOfRange → outcomeCode k ≠ 0x01#8 := by
  cases k <;> decide

theorem outcomeCode_ne_badRequest {k : OutcomeKind} : k ≠ .badRequest → outcomeCode k ≠ 0x10#8 := by
  cases k <;> decide

theorem writesOutcome_ok (r : Result) (u : State) : WritesOutcome (respond 0x00#8 Info.zero r u) := by
  simp [WritesOutcome, ok_mem_statusCodes]

/-- `INFO` by the outcome: a range and an argument, a reason, or nothing (R220). -/
theorem writesOutcome_raise {r : Raise} (hr : RaiseOk r) (u : State) :
    WritesOutcome (respond (outcomeCode r.kind) r.info Result.unwritten u) := by
  refine ⟨rfl, hr.code_mem, fun _ => rfl, ?_⟩
  rcases hr with ⟨x, rfl⟩ | ⟨a, lo, hi, rfl⟩ | ⟨k, rfl, -, hparam, -, hbad⟩
  · have hx := reasonCode_range x
    simpa [badRequest, outcomeCode, Info.zero] using hx
  · have ha := argCode_range a
    simpa [outOfRange, outcomeCode] using ha
  · simp [plainRaise, outcomeCode_ne_outOfRange hparam, outcomeCode_ne_badRequest hbad]

theorem Responds.writesOutcome {u t : State} (h : Responds u t) : WritesOutcome t := by
  cases h with
  | ok r => exact writesOutcome_ok r u
  | raise hr => exact writesOutcome_raise hr u

theorem Runs.writesOutcome {k : OpKind} {s t : State} (h : Runs s k t) (hf : t.faults = []) : WritesOutcome t := by
  cases h with
  | hazard | decodeFault | computeFault => exact absurd hf (addFault_faults_ne_nil _ _)
  | refuseA _ hr | refuseB _ hr => exact writesOutcome_raise hr _
  | decode _ ht | compute _ ht => exact ht.writesOutcome
  | refuseLoad _ x => exact writesOutcome_raise (raiseOk_badRequest x) s
  | offerA | offerB | loadA | loadB | loadArm => exact writesOutcome_ok _ _

/-- Settles O14. -/
theorem outcomeWritesTheResponse : Obligations.OutcomeWritesTheResponse :=
  fun _ _ _ _ h hf => (exec_runs h).writesOutcome hf

end Sys2Proof.Machine
end

section
/-! Reads of unwritten cells: none where the invariant holds, and where one is read first it ends the operation with
`fault ReadUnwritten` (R39). -/

namespace Sys2Proof.Machine

open Sys2Proof.Claims

/-! ### Bodies that take no fault -/

/-- The step of a rule latches no fault. -/
def NoFault {α : Type} (x : Except Stop α) : Prop := ∀ n, x ≠ .error (.fault n)

section
variable {α β : Type}

theorem NoFault.value (v : α) : NoFault (.ok v : Except Stop α) := fun _ h => by cases h

theorem NoFault.raised (r : Raise) : NoFault (.error (.raise r) : Except Stop α) := fun _ h => by cases h

theorem NoFault.branch {c : Prop} [Decidable c] {x y : Except Stop α} (hx : c → NoFault x) (hy : ¬ c → NoFault y) :
    NoFault (if c then x else y) := by
  by_cases hc : c
  · rw [if_pos hc]; exact hx hc
  · rw [if_neg hc]; exact hy hc

/-- A check that raises an outcome in front of a step. -/
theorem NoFault.check {c : Prop} [Decidable c] {r : Raise} {x : Except Stop α} (hx : ¬ c → NoFault x) :
    NoFault (if c then .error (.raise r) else x) := .branch (fun _ => .raised r) hx

theorem NoFault.bind {x : Except Stop α} {f : α → Except Stop β} (hx : NoFault x)
    (hf : ∀ v, x = .ok v → NoFault (f v)) : NoFault (x >>= f) := fun n h => by
  rcases except_bind_error h with he | ⟨v, hv, he⟩
  · exact hx n he
  · exact hf v hv n he

theorem NoFault.need {o : Option α} (h : o.isSome = true) : NoFault (need o) := by
  obtain ⟨v, rfl⟩ := Option.isSome_iff_exists.1 h
  exact .value v

end

/-! ### The reads of each operation, on written cells -/

theorem cellReadSeq_isSome {α : Type} {m : Cells α} {a n : Nat}
    (h : ∀ j, j < n → (cellRead m (a + j)).isSome = true) : (cellReadSeq m a n).isSome = true :=
  Option.isSome_iff_exists.2 (cellReadSeq_of_written h)

section
variable {m : Cells Byte} {count : Nat}

theorem checkA_noFault (hm : cellsWrittenBelow count m) (cmd : Byte) (elen : Nat) : NoFault (checkA m count cmd elen) := by
  refine .check fun _ => .check fun h4 => ?_
  have hw : ∀ j, j < 4 → (cellRead m j).isSome = true := fun j hj => (hm j).2 (by omega)
  refine .bind (.need (hw 0 (by decide))) fun _ _ => .bind (.need (hw 1 (by decide))) fun _ _ => ?_
  exact .check fun _ => .bind (.need (hw 3 (by decide))) fun _ _ => .check fun _ => .check fun _ => .value _

theorem checkEchoedIds_noFault {off : Nat} {ids : List Byte}
    (h : ∀ k, k < ids.length → (cellRead m (off + 3 * k)).isSome = true) : NoFault (checkEchoedIds m off ids) := by
  induction ids generalizing off with
  | nil => exact .value _
  | cons id ids ih =>
    refine .bind (.need (h 0 (Nat.succ_pos _))) fun _ _ => .check fun _ => ih fun k hk => ?_
    have hnext := h (k + 1) (Nat.succ_lt_succ hk)
    rwa [show off + 3 * (k + 1) = off + 3 + 3 * k by omega] at hnext

theorem readTriples_noFault {off n : Nat} (h : ∀ k, k < 3 * n → (cellRead m (off + k)).isSome = true) :
    NoFault (readTriples m off n) := by
  obtain ⟨qs, hqs, -⟩ := readTriples_ok fun k hk => Option.isSome_iff_exists.1 (h k hk)
  exact hqs ▸ .value qs

end

section
variable {s : State} (hw : cellsWrittenBelow s.rxaCount.toNat s.rxa)
include hw

theorem decBodyA_noFault (cmd elen : Byte) : NoFault (decBodyA cmd elen s) := by
  refine .check fun _ => .bind (checkA_noFault hw _ _) fun _ hchk => ?_
  obtain ⟨hlen, -⟩ := checkA_eq_ok.1 hchk
  exact .bind (.need (cellReadSeq_isSome fun j hj => (hw _).2 (by omega))) fun _ _ => .value _

theorem decposBody_noFault (ids : List Byte) : NoFault (decposBody ids s) := by
  unfold decposBody
  split
  · exact .raised _
  · refine .bind (checkA_noFault hw _ _) fun _ hchk => ?_
    obtain ⟨hlen, -⟩ := checkA_eq_ok.1 hchk
    refine .bind (checkEchoedIds_noFault fun k hk => (hw _).2 (by omega)) fun _ _ => ?_
    exact .bind (readTriples_noFault fun k hk => (hw _).2 (by omega)) fun _ _ => .value _

theorem decbattBody_noFault : NoFault (decbattBody s) := by
  refine .bind (checkA_noFault hw _ _) fun _ hchk => ?_
  obtain ⟨hlen, -⟩ := checkA_eq_ok.1 hchk
  exact .bind (.need ((hw _).2 (by omega))) fun _ _ => .bind (.need ((hw _).2 (by omega))) fun _ _ => .value _

end

theorem decBodyB_noFault {s : State} (hw : cellsWrittenBelow s.rxbCount.toNat s.rxb) (ecmd eid : Byte) :
    NoFault (decBodyB ecmd eid s) := by
  refine .check fun _ => .check fun h2 => ?_
  refine .bind (.need ((hw _).2 (by omega))) fun _ _ => .bind (.need ((hw _).2 (by omega))) fun _ _ => ?_
  refine .check fun _ => .check fun h6 => ?_
  refine .bind (.need (cellReadSeq_isSome fun j hj => (hw _).2 (by omega))) fun _ _ => ?_
  refine .bind (.need ((hw _).2 (by omega))) fun _ _ => .bind (.need ((hw _).2 (by omega))) fun _ _ => ?_
  refine .bind (.need ((hw _).2 (by omega))) fun _ _ => .bind (.need ((hw _).2 (by omega))) fun _ _ => ?_
  refine .check fun _ => .check fun _ => .check fun _ => .check fun _ => ?_
  exact .bind (.need (cellReadSeq_isSome fun j hj => (hw _).2 (by omega))) fun _ _ => .value _

theorem scanHeights_noFault {m : Cells F64} (z : F64) {i n : Nat}
    (h : ∀ j, j < i + n → (cellRead m j).isSome = true) : NoFault (scanHeights m z i n) := by
  induction n generalizing i with
  | zero => exact .value _
  | succ n ih =>
    refine .bind (.need (h i (by omega))) fun _ _ => .branch (fun _ => .value _) fun _ => ih fun j hj => ?_
    exact h j (by omega)

/-- After `M.LOADARM` every entry of the height table is written. -/
theorem Inv.pz_isSome {s : State} (h : Inv s) (hv : s.armValid = true) {i : Nat} (hi : i < 128) :
    (cellRead s.pz i).isSome = true := by
  obtain ⟨l1, l2, l3, l4, -, -, -, -, -, hpz, -⟩ := h.armed hv
  simp [hpz, heightTable, Config.pzEntries, hi]

theorem pzBody_noFault {s : State} (h : Inv s) (i : Byte) : NoFault (pzBody i s) := by
  refine .check fun hi => .check fun hv => ?_
  exact .bind (.need (h.pz_isSome (by simpa using hv) (by omega))) fun _ _ => .value _

theorem z2iBody_noFault {s : State} (h : Inv s) (z : F64) : NoFault (z2iBody z s) := by
  refine .check fun _ => .check fun hv => ?_
  exact .bind (scanHeights_noFault z fun j hj => h.pz_isSome (by simpa using hv) (by simpa [Config.pzEntries] using hj))
    fun _ _ => .value _

theorem exec_decode_noFault {i : Instr} (hk : opKind i = .decodeA ∨ opKind i = .decodeB) {s : State} (h : Inv s) :
    ∃ body, exec i s = finish (setOutstanding none) body s ∧ NoFault body := by
  cases i <;> simp only [opKind, reduceCtorEq, or_self] at hk
  case aDec cmd elen => exact ⟨_, rfl, decBodyA_noFault h.rxa.2 cmd elen⟩
  case aDecpos ids => exact ⟨_, rfl, decposBody_noFault h.rxa.2 ids⟩
  case aDecbatt => exact ⟨_, rfl, decbattBody_noFault h.rxa.2⟩
  case bDec ecmd eid => exact ⟨_, rfl, decBodyB_noFault h.rxb.2 ecmd eid⟩

theorem exec_mapper_noFault {i : Instr} (hk : opKind i = .checksum ∨ opKind i = .mapper) {s : State} (h : Inv s) :
    ∃ body, exec i s = finish id body s ∧ NoFault body := by
  cases i <;> simp only [opKind, reduceCtorEq, or_self] at hk
  case bChk b => exact ⟨.ok _, rfl, .value _⟩
  case mA2r angle mn mx => exact ⟨_, rfl, .check fun _ => .check fun _ => .value _⟩
  case mR2a raw mn mx => exact ⟨_, rfl, .check fun _ => .value _⟩
  case mPz i => exact ⟨_, rfl, pzBody_noFault h i⟩
  case mZ2i z => exact ⟨_, rfl, z2iBody_noFault h z⟩
  case mI2r i => exact ⟨_, rfl, .check fun _ => .value _⟩
  case mTeta x y => exact ⟨_, rfl, .check fun _ => .check fun _ => .value _⟩

theorem finish_faults_of_noFault {f : State → State} {body : Except Stop Result} {s t : State} (hb : NoFault body)
    (h : finish f body s = .next t) : t.faults = (f s).faults := by
  rcases finish_cases f body s with ⟨r, -, he⟩ | ⟨r, -, he⟩ | ⟨n, hn, he⟩
  · rw [he] at h; cases h; rfl
  · rw [he] at h; cases h; rfl
  · exact absurd hn (hb n)

theorem readUnwritten_not_mem_hazard {s : State} (h : FaultName.readUnwritten ∉ s.faults) :
    FaultName.readUnwritten ∉ (addFault .hazardOutstanding s).faults := by
  rw [addFault_faults]
  split
  · exact h
  · simp [h]

/-- Where the invariant holds no operation reads an unwritten cell: an encode and a load read none, a decode reads cells
below the received count, and unit M reads its height table only once it is built (R39). -/
theorem exec_reads_written {i : Instr} {s t : State} (hinv : Inv s) (hs : FaultName.readUnwritten ∉ s.faults)
    (h : exec i s = .next t) : FaultName.readUnwritten ∉ t.faults := by
  generalize hk : opKind i = k
  cases hk ▸ exec_runs h with
  | hazard => exact readUnwritten_not_mem_hazard hs
  | decode _ ht | compute _ ht => rwa [ht.faults]
  | decodeFault hdec n =>
    obtain ⟨body, hi, hb⟩ := exec_decode_noFault (hk ▸ hdec) hinv
    rwa [finish_faults_of_noFault hb (hi.symm.trans h)]
  | computeFault hmap n =>
    obtain ⟨body, hi, hb⟩ := exec_mapper_noFault (hk ▸ hmap) hinv
    rwa [finish_faults_of_noFault hb (hi.symm.trans h)]
  | _ => exact hs

/-! ### The first read of an unwritten cell -/

/-- A step of a rule that stops at an unwritten cell. -/
abbrev stopsUnwritten {α : Type} : Except Stop α := .error (.fault .readUnwritten)

theorem bind_stopsUnwritten {α β : Type} {x : Except Stop α} {f : α → Except Stop β} (h : x = stopsUnwritten) :
    (x >>= f) = stopsUnwritten := by
  rw [h]; rfl

theorem bind_of_ok {α β : Type} {x : Except Stop α} {v : α} {f : α → Except Stop β} (h : x = .ok v) :
    (x >>= f) = f v := by
  rw [h]; rfl

theorem need_stopsUnwritten {α : Type} {o : Option α} (h : o = none) : need o = stopsUnwritten := by
  rw [h]; rfl

theorem cellReadSeq_eq_none {α : Type} {m : Cells α} {a n j : Nat} (hj : j < n) (h : cellRead m (a + j) = none) :
    cellReadSeq m a n = none := by
  cases hs : cellReadSeq m a n with
  | none => rfl
  | some vs =>
    obtain ⟨hl, hr⟩ := cellReadSeq_eq_some.1 hs
    have hv := (hr j hj).symm.trans h
    rw [List.getElem?_eq_none_iff] at hv
    omega

section
variable {m : Cells Byte}

/-- The cells of the header in the order `CheckA` reads them (R108): the first unwritten one behind a right signature. -/
def HeaderUnwritten (m : Cells Byte) : Prop :=
  cellRead m 0 = none ∨ cellRead m 0 = some 0x55#8 ∧ cellRead m 1 = none ∨
    cellRead m 0 = some 0x55#8 ∧ cellRead m 1 = some 0x55#8 ∧ cellRead m 3 = none

theorem checkA_unwritten {count : Nat} (cmd : Byte) (elen : Nat) (hc : 4 ≤ count) (h : HeaderUnwritten m) :
    checkA m count cmd elen = stopsUnwritten := by
  rw [checkA, if_neg (by omega), if_neg (by omega)]
  rcases h with h0 | ⟨h0, h1⟩ | ⟨h0, h1, h3⟩
  · rw [h0]; rfl
  · rw [h0, h1]; rfl
  · rw [h0, h1, h3]; rfl

theorem checkEchoedIds_unwritten {off k : Nat} {ids : List Byte} (hk : k < ids.length)
    (hb : ∀ j, j < k → cellRead m (off + 3 * j) = ids[j]?) (h : cellRead m (off + 3 * k) = none) :
    checkEchoedIds m off ids = stopsUnwritten := by
  induction ids generalizing off k with
  | nil => cases hk
  | cons id ids ih =>
    cases k with
    | zero => exact bind_stopsUnwritten (need_stopsUnwritten h)
    | succ k =>
      have h0 : need (cellRead m off) = .ok id := need_eq_ok.2 (hb 0 (Nat.succ_pos k))
      rw [checkEchoedIds, bind_of_ok h0, if_neg (not_not_intro rfl)]
      refine ih (Nat.lt_of_succ_lt_succ hk) (fun j hj => ?_) ?_
      · have hnext := hb (j + 1) (Nat.succ_lt_succ hj)
        rwa [show off + 3 * (j + 1) = off + 3 + 3 * j by omega, List.getElem?_cons_succ] at hnext
      · rwa [show off + 3 * (k + 1) = off + 3 + 3 * k by omega] at h

/-- Triples that were read stood in written cells. -/
theorem written_of_readTriples {off n : Nat} {qs : List ServoPos} (h : readTriples m off n = .ok qs) {k : Nat}
    (hk : k < n) : cellRead m (off + 1 + 3 * k) ≠ none ∧ cellRead m (off + 2 + 3 * k) ≠ none := by
  induction n generalizing off qs k with
  | zero => cases hk
  | succ n ih =>
    obtain ⟨_, -, h⟩ := bind_eq_ok.1 h
    obtain ⟨_, hlo, h⟩ := bind_eq_ok.1 h
    obtain ⟨_, hhi, h⟩ := bind_eq_ok.1 h
    obtain ⟨_, hrest, -⟩ := bind_eq_ok.1 h
    cases k with
    | zero => exact ⟨by simp [need_eq_ok.1 hlo], by simp [need_eq_ok.1 hhi]⟩
    | succ k =>
      rw [show off + 1 + 3 * (k + 1) = off + 3 + 1 + 3 * k by omega,
        show off + 2 + 3 * (k + 1) = off + 3 + 2 + 3 * k by omega]
      exact ih hrest (Nat.lt_of_succ_lt_succ hk)

theorem readTriples_unwritten {off n k : Nat} (hk : k < n)
    (h : cellRead m (off + 1 + 3 * k) = none ∨ cellRead m (off + 2 + 3 * k) = none) :
    readTriples m off n = stopsUnwritten := by
  cases hr : readTriples m off n with
  | error e => rw [readTriples_raise hr]
  | ok qs =>
    obtain ⟨hlo, hhi⟩ := written_of_readTriples hr hk
    exact absurd h (not_or.2 ⟨hlo, hhi⟩)

end

theorem scanHeights_unwritten {m : Cells F64} {z : F64} {i n k : Nat} {h : Nat → F64} (hi : i ≤ k) (hk : k < i + n)
    (hb : ∀ j, j < k → cellRead m j = some (h j) ∧ f64Le z (h j) = false) (hu : cellRead m k = none) :
    scanHeights m z i n = stopsUnwritten := by
  induction n generalizing i with
  | zero => omega
  | succ n ih =>
    rcases Nat.eq_or_lt_of_le hi with rfl | hlt
    · exact bind_stopsUnwritten (need_stopsUnwritten hu)
    · obtain ⟨hread, hle⟩ := hb i hlt
      rw [scanHeights, bind_of_ok (need_eq_ok.2 hread), if_neg (by simp [hle])]
      exact ih hlt (by omega)

/-! ### The bodies that end there -/

section
variable {s : State}

theorem checkA_of_validReply {cmd : Byte} {elen : Nat} (h : ValidReplyA cmd elen s) :
    checkA s.rxa s.rxaCount.toNat cmd elen = .ok () := checkA_eq_ok.2 h

theorem decBodyA_header_unwritten {cmd elen : Byte} (he : elen.toNat ≤ 60) (hc : 4 ≤ s.rxaCount.toNat)
    (h : HeaderUnwritten s.rxa) : decBodyA cmd elen s = stopsUnwritten := by
  rw [decBodyA, if_neg (by simpa [Config.payloadMaxA] using he)]
  exact bind_stopsUnwritten (checkA_unwritten _ _ hc h)

theorem decposBody_eq {ids : List Byte} (h1 : 1 ≤ ids.length) (h19 : ids.length ≤ 19) :
    decposBody ids s = (do
      checkA s.rxa s.rxaCount.toNat s.params.commands.getpos (1 + 3 * ids.length)
      checkEchoedIds s.rxa 5 ids
      let qs ← readTriples s.rxa 5 ids.length
      .ok { Result.unwritten with
            ids := cellsOf (qs.map ServoPos.id), pos := cellsOf (qs.map ServoPos.pos),
            n := some (countByte ids.length) }) := by
  have hc : checkCount Config.posCountMax ids.length = none := checkCount_none.2 ⟨h1, h19⟩
  rw [decposBody, hc]

theorem decBodyA_payload_unwritten {cmd elen : Byte} (he : elen.toNat ≤ 60) (hv : ValidReplyA cmd elen.toNat s) {j : Nat}
    (hj : j < elen.toNat) (h : cellRead s.rxa (4 + j) = none) : decBodyA cmd elen s = stopsUnwritten := by
  rw [decBodyA, if_neg (by simpa [Config.payloadMaxA] using he), bind_of_ok (checkA_of_validReply hv)]
  exact bind_stopsUnwritten (need_stopsUnwritten (cellReadSeq_eq_none hj h))

theorem decbattBody_payload_unwritten (hv : ValidReplyA s.params.commands.batt 2 s) {j : Nat}
    (hj : j < 2) (h : cellRead s.rxa (4 + j) = none) : decbattBody s = stopsUnwritten := by
  rw [decbattBody, bind_of_ok (checkA_of_validReply hv)]
  cases hlo : cellRead s.rxa 4 with
  | none => exact bind_stopsUnwritten rfl
  | some lo =>
    have hj1 : j = 1 := by
      rcases (show j = 0 ∨ j = 1 by omega) with rfl | rfl
      · cases hlo.symm.trans h
      · rfl
    subst hj1
    rw [bind_of_ok (need_some lo)]
    exact bind_stopsUnwritten (need_stopsUnwritten h)

theorem decposBody_ids_unwritten {ids : List Byte} (h1 : 1 ≤ ids.length) (h19 : ids.length ≤ 19)
    (hv : ValidReplyA s.params.commands.getpos (1 + 3 * ids.length) s) {k : Nat} (hk : k < ids.length)
    (hb : ∀ j, j < k → cellRead s.rxa (5 + 3 * j) = ids[j]?) (h : cellRead s.rxa (5 + 3 * k) = none) :
    decposBody ids s = stopsUnwritten := by
  rw [decposBody_eq h1 h19, bind_of_ok (checkA_of_validReply hv)]
  exact bind_stopsUnwritten (checkEchoedIds_unwritten hk hb h)

theorem decposBody_positions_unwritten {ids : List Byte} (h1 : 1 ≤ ids.length) (h19 : ids.length ≤ 19)
    (hv : ValidReplyA s.params.commands.getpos (1 + 3 * ids.length) s)
    (hb : ∀ j, j < ids.length → cellRead s.rxa (5 + 3 * j) = ids[j]?) {k : Nat} (hk : k < ids.length)
    (h : cellRead s.rxa (6 + 3 * k) = none ∨ cellRead s.rxa (7 + 3 * k) = none) :
    decposBody ids s = stopsUnwritten := by
  rw [decposBody_eq h1 h19, bind_of_ok (checkA_of_validReply hv), bind_of_ok (checkEchoedIds_ok hb)]
  exact bind_stopsUnwritten (readTriples_unwritten hk h)

/-- Behind the right signature of a long enough reply, `B.DEC` reads every cell from 2 on before it checks any of them
(R150). -/
theorem decBodyB_unwritten (ecmd eid : Byte) (hn : 2 ≤ s.rxbCount.toNat)
    (h : cellRead s.rxb 0 = none ∨ cellRead s.rxb 0 = some 0x55#8 ∧ cellRead s.rxb 1 = none ∨
      cellRead s.rxb 0 = some 0x55#8 ∧ cellRead s.rxb 1 = some 0x55#8 ∧ 6 ≤ s.rxbCount.toNat ∧
        (∃ j, 2 ≤ j ∧ j < s.rxbCount.toNat ∧ cellRead s.rxb j = none)) :
    decBodyB ecmd eid s = stopsUnwritten := by
  simp only [decBodyB]
  rw [if_neg (by omega), if_neg (by omega)]
  rcases h with h0 | ⟨h0, h1⟩ | ⟨h0, h1, hlen, j, hj2, hjn, hj⟩
  · exact bind_stopsUnwritten (need_stopsUnwritten h0)
  · rw [bind_of_ok (need_eq_ok.2 h0)]
    exact bind_stopsUnwritten (need_stopsUnwritten h1)
  · rw [bind_of_ok (need_eq_ok.2 h0), bind_of_ok (need_eq_ok.2 h1), if_neg (by decide), if_neg (by omega)]
    cases hbody : cellReadSeq s.rxb 2 (s.rxbCount.toNat - 3) with
    | none => rfl
    | some body =>
      have hlast : j = s.rxbCount.toNat - 1 := by
        by_contra hne
        have hin : j - 2 < s.rxbCount.toNat - 3 := by omega
        have hnone := cellReadSeq_eq_none (m := s.rxb) (a := 2) hin (by rwa [show 2 + (j - 2) = j by omega])
        cases hbody.symm.trans hnone
      rw [bind_of_ok (need_some body)]
      exact bind_stopsUnwritten (need_stopsUnwritten (hlast ▸ hj))

end

theorem finish_stopsUnwritten {f : State → State} {body : Except Stop Result} {s : State} (hf : (f s).faults = [])
    (h : body = stopsUnwritten) : finish f body s = .next { f s with faults := [.readUnwritten] } := by
  rw [h]
  simp [finish, latchFault, addFault, hf]

theorem decodeReadsUnwritten_of_body {i : Instr} {s : State} {body : Except Stop Result} (hf : s.faults = [])
    (hi : exec i s = finish (setOutstanding none) body s) (h : body = stopsUnwritten) : DecodeReadsUnwritten i s :=
  hi.trans (finish_stopsUnwritten (f := setOutstanding none) hf h)

theorem pzBody_unwritten {i : Byte} {s : State} (hi : i.toNat ≤ 127) (hv : s.armValid = true)
    (h : cellRead s.pz i.toNat = none) : pzBody i s = stopsUnwritten := by
  rw [pzBody, if_neg (by omega), if_neg (by simp [hv])]
  exact bind_stopsUnwritten (need_stopsUnwritten h)

theorem z2iBody_unwritten {z : F64} {s : State} (hz : f64IsNaN z = false) (hv : s.armValid = true)
    (h : scanHeights s.pz z 0 Config.pzEntries = stopsUnwritten) : z2iBody z s = stopsUnwritten := by
  rw [z2iBody, if_neg (by simp [hz]), if_neg (by simp [hv])]
  exact bind_stopsUnwritten h

/-- Settles O12: under the invariant every cell a rule reads is written, and elsewhere each rule is followed to its first
unwritten cell. -/
theorem noRuleReadsUnwritten : Obligations.NoRuleReadsUnwritten := by
  refine ⟨fun i s t hinv hs h => exec_reads_written hinv hs h, ?unitA, ?unitB, ?pz, ?z2i⟩
  case unitA =>
    rintro i s cmd elen hf (⟨e, rfl, rfl, he⟩ | ⟨ids, rfl, rfl, rfl, h1, h19⟩ | ⟨rfl, rfl, rfl⟩)
    · refine ⟨fun hc h => decodeReadsUnwritten_of_body hf rfl (decBodyA_header_unwritten he hc h), ?_, ?_⟩
      · rintro hv - ⟨j, hj, h⟩
        exact decodeReadsUnwritten_of_body hf rfl (decBodyA_payload_unwritten he hv hj h)
      · rintro ids - ⟨⟩
    · refine ⟨fun hc h => decodeReadsUnwritten_of_body hf rfl ?_, ?_, ?_⟩
      · rw [decposBody_eq h1 h19]
        exact bind_stopsUnwritten (checkA_unwritten _ _ hc h)
      · rintro - (⟨e, h⟩ | h) <;> cases h
      · rintro _ hv ⟨⟩ (⟨k, hk, hb, h⟩ | ⟨hb, k, hk, h⟩)
        · exact decodeReadsUnwritten_of_body hf rfl (decposBody_ids_unwritten h1 h19 hv hk hb h)
        · exact decodeReadsUnwritten_of_body hf rfl (decposBody_positions_unwritten h1 h19 hv hb hk h)
    · refine ⟨fun hc h => decodeReadsUnwritten_of_body hf rfl (bind_stopsUnwritten (checkA_unwritten _ _ hc h)), ?_, ?_⟩
      · rintro hv - ⟨j, hj, h⟩
        exact decodeReadsUnwritten_of_body hf rfl (decbattBody_payload_unwritten hv hj h)
      · rintro ids - ⟨⟩
  case unitB =>
    intro ecmd eid s hf hn h
    exact decodeReadsUnwritten_of_body hf rfl (decBodyB_unwritten ecmd eid hn h)
  case pz =>
    intro i s hf hi hv h
    exact finish_stopsUnwritten (f := id) hf (pzBody_unwritten hi hv h)
  case z2i =>
    intro z k h s hf hz hv hk hb hu
    exact finish_stopsUnwritten (f := id) hf
      (z2iBody_unwritten hz hv (scanHeights_unwritten (Nat.zero_le k) (by simpa [Config.pzEntries] using hk) hb hu))

end Sys2Proof.Machine
end

section
/-! What an operation does is a function of its operands, the configuration, `OUTSTANDING` and the space its kind may read
(R51, R55). -/

namespace Sys2Proof.Machine

/-- Two next states take the same fault or hold the same outcome, and the same `OUTSTANDING`. -/
def SameAnswer (t t' : State) : Prop :=
  t.faults = t'.faults ∧ t.outstanding = t'.outstanding ∧ (t.faults = [] → t.response = t'.response)

section
variable {s s' t t' : State} (hf : s.faults = s'.faults) (ho : s.outstanding = s'.outstanding)
include hf ho

theorem sameAnswer_addFault (n : FaultName) : SameAnswer (addFault n s) (addFault n s') :=
  ⟨by rw [addFault_faults, addFault_faults, hf], ho, fun h => absurd h (addFault_faults_ne_nil n s)⟩

theorem sameAnswer_respond (code : Byte) (info : Info) (r : Result) :
    SameAnswer (respond code info r s) (respond code info r s') := ⟨hf, ho, fun _ => rfl⟩

theorem finish_sameAnswer {body : Except Stop Result} (h : finish id body s = .next t)
    (h' : finish id body s' = .next t') : SameAnswer t t' := by
  cases body with
  | ok r => cases h; cases h'; exact sameAnswer_respond hf ho _ _ r
  | error e =>
    cases e with
    | raise r => cases h; cases h'; exact sameAnswer_respond hf ho _ _ _
    | fault n => cases h; cases h'; exact sameAnswer_addFault hf ho n

/-- The preamble takes the same hazard or goes on to the encode, so two encodes that agree once it is passed agree. -/
theorem encodePreamble_sameAnswer {body body' : Answer} {offered : State → Option (List Byte)}
    (hbody : ∀ u u', body = .next u → body' = .next u' → SameAnswer u u' ∧ offered u = offered u')
    (h : encodePreamble s body = .next t) (h' : encodePreamble s' body' = .next t') :
    SameAnswer t t' ∧ (t.faults = [] → offered t = offered t') := by
  by_cases hn : s.outstanding = none
  · rw [encodePreamble_idle hn] at h
    rw [encodePreamble_idle (ho ▸ hn)] at h'
    obtain ⟨hsame, hoff⟩ := hbody t t' h h'
    exact ⟨hsame, fun _ => hoff⟩
  · rw [encodePreamble_pending hn] at h
    rw [encodePreamble_pending (ho ▸ hn)] at h'
    cases h; cases h'
    exact ⟨sameAnswer_addFault hf ho _, fun hz => absurd hz (addFault_faults_ne_nil _ s)⟩

theorem encodeA_sameAnswer {bad : Option Raise} {cmd : Byte} {p : List Byte} {reply : Bool}
    (h : encodeA bad cmd p reply s = .next t) (h' : encodeA bad cmd p reply s' = .next t') :
    SameAnswer t t' ∧ (t.faults = [] → offeredA t = offeredA t') := by
  refine encodePreamble_sameAnswer hf ho (fun u u' hu hu' => ?_) h h'
  cases bad with
  | some r => cases hu; cases hu'; exact ⟨sameAnswer_respond hf ho _ _ _, rfl⟩
  | none => cases hu; cases hu'; exact ⟨⟨hf, by simp [ho], fun _ => rfl⟩, rfl⟩

theorem encodeB_sameAnswer {bad : Option Raise} {cmd id : Byte} {p : List Byte} {reply : Bool}
    (h : encodeB bad cmd id p reply s = .next t) (h' : encodeB bad cmd id p reply s' = .next t') :
    SameAnswer t t' ∧ (t.faults = [] → offeredB t = offeredB t') := by
  refine encodePreamble_sameAnswer hf ho (fun u u' hu hu' => ?_) h h'
  cases bad with
  | some r => cases hu; cases hu'; exact ⟨sameAnswer_respond hf ho _ _ _, rfl⟩
  | none => cases hu; cases hu'; exact ⟨⟨hf, by simp [ho], fun _ => rfl⟩, rfl⟩

end

/-! ### The bodies of the decodes and of unit M -/

section
variable {s s' : State}

theorem decBodyA_congr (cmd elen : Byte) (hr : s.rxa = s'.rxa ∧ s.rxaCount = s'.rxaCount) :
    decBodyA cmd elen s = decBodyA cmd elen s' := by
  rw [decBodyA, decBodyA, hr.1, hr.2]

theorem decposBody_congr (ids : List Byte) (hp : s.params = s'.params)
    (hr : s.rxa = s'.rxa ∧ s.rxaCount = s'.rxaCount) : decposBody ids s = decposBody ids s' := by
  rw [decposBody, decposBody, hp, hr.1, hr.2]

theorem decbattBody_congr (hp : s.params = s'.params) (hr : s.rxa = s'.rxa ∧ s.rxaCount = s'.rxaCount) :
    decbattBody s = decbattBody s' := by
  rw [decbattBody, decbattBody, hp, hr.1, hr.2]

theorem decBodyB_congr (ecmd eid : Byte) (hp : s.params = s'.params)
    (hr : s.rxb = s'.rxb ∧ s.rxbCount = s'.rxbCount) : decBodyB ecmd eid s = decBodyB ecmd eid s' := by
  simp only [decBodyB, hp, hr.1, hr.2]

theorem pzBody_congr (i : Byte) (ht : s.pz = s'.pz ∧ s.armValid = s'.armValid) : pzBody i s = pzBody i s' := by
  rw [pzBody, pzBody, ht.1, ht.2]

theorem z2iBody_congr (z : F64) (ht : s.pz = s'.pz ∧ s.armValid = s'.armValid) : z2iBody z s = z2iBody z s' := by
  rw [z2iBody, z2iBody, ht.1, ht.2]

/-- A decode runs the same body on the same received bytes. -/
theorem exec_decode_same {i : Instr} (hk : opKind i = .decodeA ∨ opKind i = .decodeB) (hp : s.params = s'.params)
    (ha : opKind i = .decodeA → s.rxa = s'.rxa ∧ s.rxaCount = s'.rxaCount)
    (hb : opKind i = .decodeB → s.rxb = s'.rxb ∧ s.rxbCount = s'.rxbCount) :
    ∃ body, exec i s = finish id body (setOutstanding none s) ∧ exec i s' = finish id body (setOutstanding none s') := by
  cases i <;> simp only [opKind, reduceCtorEq, or_self] at hk
  case aDec cmd elen => exact ⟨decBodyA cmd elen s', by rw [← decBodyA_congr cmd elen (ha rfl)]; rfl, rfl⟩
  case aDecpos ids => exact ⟨decposBody ids s', by rw [← decposBody_congr ids hp (ha rfl)]; rfl, rfl⟩
  case aDecbatt => exact ⟨decbattBody s', by rw [← decbattBody_congr hp (ha rfl)]; rfl, rfl⟩
  case bDec ecmd eid => exact ⟨decBodyB ecmd eid s', by rw [← decBodyB_congr ecmd eid hp (hb rfl)]; rfl, rfl⟩

/-- The checksum and unit M run the same body on the same configuration and height table. -/
theorem exec_mapper_same {i : Instr} (hk : opKind i = .checksum ∨ opKind i = .mapper) (hp : s.params = s'.params)
    (ht : opKind i = .mapper → s.pz = s'.pz ∧ s.armValid = s'.armValid) :
    ∃ body, exec i s = finish id body s ∧ exec i s' = finish id body s' := by
  cases i <;> simp only [opKind, reduceCtorEq, or_self] at hk
  case bChk b => exact ⟨.ok _, rfl, rfl⟩
  case mA2r angle mn mx => exact ⟨a2rBody s'.params.numeric.midpoint angle mn mx, by rw [← hp]; rfl, rfl⟩
  case mR2a raw mn mx => exact ⟨r2aBody raw mn mx, rfl, rfl⟩
  case mPz i => exact ⟨pzBody i s', by rw [← pzBody_congr i (ht rfl)]; rfl, rfl⟩
  case mZ2i z => exact ⟨z2iBody z s', by rw [← z2iBody_congr z (ht rfl)]; rfl, rfl⟩
  case mI2r i => exact ⟨i2rBody s'.params.numeric.midpoint i, by rw [← hp]; rfl, rfl⟩
  case mTeta x y => exact ⟨tetaBody s'.params.numeric x y, by rw [← hp]; rfl, rfl⟩

/-- The checks of `M.LOADARM` in order (R183): the lengths, `ARM_VALID`, the entries. -/
def loadarmRefusal (n : Config.Numeric) (l1 l2 l3 l4 : F64) (armed : Bool) : Option Reason :=
  if !(lengthOk l1 && lengthOk l2 && lengthOk l3 && lengthOk l4) then some .invalidArmModel
  else if armed then some .armModelLocked
  else if !(heightTable n l1 l2 l3 l4).all f64Finite then some .invalidArmModel
  else none

theorem exec_mLoadarm_eq (l1 l2 l3 l4 : F64) (s : State) : exec (.mLoadarm l1 l2 l3 l4) s =
    match loadarmRefusal s.params.numeric l1 l2 l3 l4 s.armValid with
    | some x => raiseOutcome (badRequest x) s
    | none => complete Result.unwritten (loadArm l1 l2 l3 l4 (heightTable s.params.numeric l1 l2 l3 l4) s) := by
  rw [exec, execMLoadarm, loadarmRefusal]
  split
  · rfl
  split
  · rfl
  split <;> rfl

/-- A load and `M.LOADARM` make the same checks; what they load touches neither `FAULT` nor `OUTSTANDING`. -/
theorem exec_load_same {i : Instr} (hk : opKind i = .loadA ∨ opKind i = .loadB ∨ opKind i = .loadArm)
    (hp : s.params = s'.params) (hv : opKind i = .loadArm → s.armValid = s'.armValid) :
    ∃ body u u', exec i s = finish id body u ∧ exec i s' = finish id body u' ∧
      (u.faults = s.faults ∧ u.outstanding = s.outstanding) ∧
        u'.faults = s'.faults ∧ u'.outstanding = s'.outstanding := by
  cases i <;> simp only [opKind, reduceCtorEq, or_self] at hk
  case aRxload b =>
    by_cases hb : Config.rxaMax < b.length
    · exact ⟨.error (.raise _), s, s', if_pos hb, if_pos hb, ⟨rfl, rfl⟩, rfl, rfl⟩
    · exact ⟨.ok _, loadRxa b s, loadRxa b s', if_neg hb, if_neg hb, ⟨rfl, rfl⟩, rfl, rfl⟩
  case bRxload b =>
    by_cases hb : Config.rxbMax < b.length
    · exact ⟨.error (.raise _), s, s', if_pos hb, if_pos hb, ⟨rfl, rfl⟩, rfl, rfl⟩
    · exact ⟨.ok _, loadRxb b s, loadRxb b s', if_neg hb, if_neg hb, ⟨rfl, rfl⟩, rfl, rfl⟩
  case mLoadarm l1 l2 l3 l4 =>
    rw [exec_mLoadarm_eq, exec_mLoadarm_eq, ← hp, ← hv rfl]
    cases loadarmRefusal s.params.numeric l1 l2 l3 l4 s.armValid with
    | some x => exact ⟨.error (.raise (badRequest x)), s, s', rfl, rfl, ⟨rfl, rfl⟩, rfl, rfl⟩
    | none => exact ⟨.ok Result.unwritten, _, _, rfl, rfl, ⟨rfl, rfl⟩, rfl, rfl⟩

end

/-! ### Each kind of operation -/

section
variable {i : Instr} {s s' t t' : State} (hf : s.faults = s'.faults) (hp : s.params = s'.params)
  (ho : s.outstanding = s'.outstanding) (h : exec i s = .next t) (h' : exec i s' = .next t')
include hf hp ho h h'

theorem exec_encodeA_sameAnswer (hk : opKind i = .encodeA) :
    SameAnswer t t' ∧ (t.faults = [] → offeredA t = offeredA t') := by
  obtain ⟨bad, cmd, p, reply, he, -, -⟩ := exec_encodeA hk s.params
  exact encodeA_sameAnswer hf ho ((he s rfl).symm.trans h) ((he s' hp.symm).symm.trans h')

theorem exec_encodeB_sameAnswer (hk : opKind i = .encodeB) :
    SameAnswer t t' ∧ (t.faults = [] → offeredB t = offeredB t') := by
  obtain ⟨bad, cmd, id, p, reply, he, -, -⟩ := exec_encodeB hk s.params
  exact encodeB_sameAnswer hf ho ((he s rfl).symm.trans h) ((he s' hp.symm).symm.trans h')

/-- Each kind reads no more of the state than R51 lets it. -/
theorem exec_sameAnswer (ha : opKind i = .decodeA → s.rxa = s'.rxa ∧ s.rxaCount = s'.rxaCount)
    (hb : opKind i = .decodeB → s.rxb = s'.rxb ∧ s.rxbCount = s'.rxbCount)
    (hm : opKind i = .mapper ∨ opKind i = .loadArm → s.pz = s'.pz ∧ s.armValid = s'.armValid) : SameAnswer t t' := by
  rcases opKind_cases i with hk | hk | hk | hk | hk
  · exact (exec_encodeA_sameAnswer hf hp ho h h' hk).1
  · exact (exec_encodeB_sameAnswer hf hp ho h h' hk).1
  · obtain ⟨body, he, he'⟩ := exec_decode_same hk hp ha hb
    exact finish_sameAnswer (s := setOutstanding none s) (s' := setOutstanding none s') hf rfl (he.symm.trans h)
      (he'.symm.trans h')
  · obtain ⟨body, he, he'⟩ := exec_mapper_same hk hp fun hmap => hm (.inl hmap)
    exact finish_sameAnswer hf ho (he.symm.trans h) (he'.symm.trans h')
  · obtain ⟨body, u, u', he, he', ⟨hu, hou⟩, hu', hou'⟩ := exec_load_same hk hp fun harm => (hm (.inr harm)).2
    exact finish_sameAnswer (by rw [hu, hu', hf]) (by rw [hou, hou', ho]) (he.symm.trans h) (he'.symm.trans h')

end

/-- Settles O20. -/
theorem operationsArePure : Obligations.OperationsArePure := by
  intro i s s' t t' hf hf' hp ho ha hb hm h h'
  have hfaults : s.faults = s'.faults := hf.trans hf'.symm
  obtain ⟨hfault, hout, hresp⟩ := exec_sameAnswer hfaults hp ho h h' ha hb hm
  refine ⟨hfault, hout, fun hz => ⟨hresp hz, fun hk => ?_, fun hk => ?_⟩⟩
  · exact (exec_encodeA_sameAnswer hfaults hp ho h h' hk).2 hz
  · exact (exec_encodeB_sameAnswer hfaults hp ho h h' hk).2 hz

end Sys2Proof.Machine
end

section
/-! The addressed spaces: every step keeps their canonical form, and each operation writes only the spaces of its kind
(R50, R51). -/

namespace Sys2Proof.Machine

open Sys2Proof.Claims

/-! ### The canonical form along a step -/

theorem memoryWf_withRequests {s : State} (hm : memoryWf s = true) (rs : List Request) :
    memoryWf (withRequests rs s) = true := hm

theorem memoryWf_markRefused {s : State} (hm : memoryWf s = true) : memoryWf (markRefused s) = true := hm

/-- Settles O10: the idle step, the refused selector and the executed request each keep it. -/
theorem stepKeepsCanonicalMemory : Obligations.StepKeepsCanonicalMemory := by
  intro s t hm hstep
  rcases step_next_cases hstep with rfl | ⟨r, rs, -, rfl | ⟨i, -, he⟩⟩
  · exact hm
  · exact memoryWf_markRefused (memoryWf_withRequests hm rs)
  · exact exec_keeps_memoryWf i (memoryWf_withRequests hm rs) he

/-! ### Which kind writes which space -/

/-- Every space, with the registers that say what of it counts, is as before. -/
def KeepsSpaces (s t : State) : Prop :=
  KeepsTxa s t ∧ KeepsRxa s t ∧ KeepsTxb s t ∧ KeepsRxb s t ∧ KeepsArm s t

/-- An operation of kind `k` keeps each space that R51 does not let it write. -/
def KeepsOtherSpaces (k : OpKind) (s t : State) : Prop :=
  (k ≠ .encodeA → KeepsTxa s t) ∧ (k ≠ .loadA → KeepsRxa s t) ∧ (k ≠ .encodeB → KeepsTxb s t) ∧
    (k ≠ .loadB → KeepsRxb s t) ∧ (k ≠ .loadArm → KeepsArm s t)

theorem KeepsSpaces.keepsOtherSpaces {s t : State} (h : KeepsSpaces s t) (k : OpKind) : KeepsOtherSpaces k s t := by
  obtain ⟨htxa, hrxa, htxb, hrxb, harm⟩ := h
  exact ⟨fun _ => htxa, fun _ => hrxa, fun _ => htxb, fun _ => hrxb, fun _ => harm⟩

theorem keepsSpaces_refl (s : State) : KeepsSpaces s s :=
  ⟨⟨rfl, fun _ => rfl⟩, ⟨rfl, fun _ => rfl⟩, ⟨rfl, rfl, fun _ => rfl⟩, ⟨rfl, fun _ => rfl⟩,
    ⟨rfl, rfl, rfl, rfl, rfl, fun _ => rfl⟩⟩

theorem keepsSpaces_setOutstanding (o : Option Pending) (s : State) : KeepsSpaces s (setOutstanding o s) :=
  keepsSpaces_refl s

theorem KeepsSpaces.addFault {s u : State} (h : KeepsSpaces s u) (n : FaultName) : KeepsSpaces s (addFault n u) := h

theorem KeepsSpaces.respond {s u : State} (h : KeepsSpaces s u) (code : Byte) (info : Info) (r : Result) :
    KeepsSpaces s (respond code info r u) := h

theorem KeepsSpaces.responds {s u t : State} (h : KeepsSpaces s u) (ht : Responds u t) : KeepsSpaces s t := by
  cases ht <;> exact h.respond ..

/-- Of all the ways an operation can go, only the encodes, the loads and `M.LOADARM` write a space, each its own. -/
theorem Runs.keepsOtherSpaces {k : OpKind} {s t : State} (h : Runs s k t) : KeepsOtherSpaces k s t := by
  have hkeep := keepsSpaces_refl s
  have hclear := keepsSpaces_setOutstanding none s
  cases h with
  | hazard => exact (hkeep.addFault _).keepsOtherSpaces k
  | decode _ ht => exact (hclear.responds ht).keepsOtherSpaces k
  | decodeFault _ n => exact (hclear.addFault n).keepsOtherSpaces k
  | compute _ ht => exact (hkeep.responds ht).keepsOtherSpaces k
  | computeFault _ n => exact (hkeep.addFault n).keepsOtherSpaces k
  | refuseLoad _ x => exact (hkeep.respond ..).keepsOtherSpaces k
  | refuseA | offerA | refuseB | offerB | loadA | loadB | loadArm =>
    simp [KeepsOtherSpaces, KeepsTxa, KeepsRxa, KeepsTxb, KeepsRxb, KeepsArm]

/-- Settles O18. -/
theorem spacesWrittenOnlyByTheirOperations : Obligations.SpacesWrittenOnlyByTheirOperations :=
  fun _ _ _ h => (exec_runs h).keepsOtherSpaces

end Sys2Proof.Machine
end

section
/-! Command frames as requests: each is the encode that emits it, so an `OK` leaves exactly the frame on offer (R70, R73,
R77, R79; log entry 2). -/

namespace Sys2Proof.Machine

/-- A raised outcome is not `OK` (R220). -/
theorem RaiseOk.code_ne_ok {r : Raise} (h : RaiseOk r) : outcomeCode r.kind ≠ 0x00#8 := by
  rcases h with ⟨x, rfl⟩ | ⟨a, lo, hi, rfl⟩ | ⟨k, rfl, hk, -⟩
  · exact show outcomeCode .badRequest ≠ 0x00#8 by decide
  · exact show outcomeCode .parameterOutOfRange ≠ 0x00#8 by decide
  · show outcomeCode k ≠ 0x00#8
    cases k with
    | ok => exact absurd rfl hk
    | _ => decide

/-! ### The frame on offer after a load -/

theorem offeredA_of_loaded {t : State} {f : List Byte} (hv : t.txaValid = true) (ht : t.txa = cellsOf f)
    (hf : f.length = 64) : offeredA t = some f := by
  have hread : cellReadSeq (cellsOf f) 0 64 = some ((f.drop 0).take 64) := cellReadSeq_cellsOf (by omega)
  rw [offeredA, if_pos hv, ht, hread, List.drop_zero, List.take_of_length_le hf.le]

theorem offeredB_of_loaded {t : State} {f : List Byte} (hv : t.txbValid = true) (ht : t.txb = cellsOf f)
    (hl : t.txbLen.toNat = f.length) : offeredB t = some f := by
  have hread : cellReadSeq (cellsOf f) 0 f.length = some ((f.drop 0).take f.length) := cellReadSeq_cellsOf (by omega)
  rw [offeredB, if_pos hv, ht, hl, hread, List.drop_zero, List.take_length]

/-! ### Encodes that end `OK` -/

section
variable {bad : Option Raise} {cmd id : Byte} {p : List Byte} {reply : Bool} {s t : State}
  (ho : s.outstanding = none) (hbad : ∀ r, bad = some r → RaiseOk r) (hok : t.status = 0x00#8)
include ho hbad hok

/-- A unit A encode that ends `OK` was not refused, so `BuildA`'s frame is on offer (R29, R101). -/
theorem encodeA_offers (hp : p.length ≤ 60) (h : encodeA bad cmd p reply s = .next t) :
    offeredA t = some (frameA cmd p) := by
  rcases encodeA_cases bad cmd p reply s with ⟨hn, -⟩ | ⟨-, r, hr, he⟩ | ⟨-, -, he⟩
  · exact absurd ho hn
  · rw [he] at h; cases h
    exact absurd hok (hbad r hr).code_ne_ok
  · rw [he] at h; cases h
    exact offeredA_of_loaded rfl rfl (frameA_length cmd hp)

/-- A unit B encode that ends `OK` was not refused, so `BuildB`'s frame is on offer (R31, R141). -/
theorem encodeB_offers (hp : p.length ≤ 252) (h : encodeB bad cmd id p reply s = .next t) :
    offeredB t = some (frameB cmd id p) := by
  rcases encodeB_cases bad cmd id p reply s with ⟨hn, -⟩ | ⟨-, r, hr, he⟩ | ⟨-, -, he⟩
  · exact absurd ho hn
  · rw [he] at h; cases h
    exact absurd hok (hbad r hr).code_ne_ok
  · rw [he] at h; cases h
    have hlen : (frameB cmd id p).length ≤ 65535 := by rw [frameB_length]; omega
    exact offeredB_of_loaded rfl rfl (countHalf_toNat hlen)

end

/-! ### Which encode a command frame is -/

/-- The operation is the unit A encode that emits its own request, a frame that fits. -/
def EncodesItselfA (i : Instr) (s : State) : Prop :=
  ∃ bad cmd p reply, exec i s = encodeA bad cmd p reply s ∧ encode s.params.commands i = ⟨.wireA, frameA cmd p⟩ ∧
    p.length ≤ 60 ∧ ∀ r, bad = some r → RaiseOk r

/-- The operation is the unit B encode that emits its own request, a frame that fits. -/
def EncodesItselfB (i : Instr) (s : State) : Prop :=
  ∃ bad cmd id p reply, exec i s = encodeB bad cmd id p reply s ∧
    encode s.params.commands i = ⟨.wireB, frameB cmd id p⟩ ∧ p.length ≤ 252 ∧ ∀ r, bad = some r → RaiseOk r

theorem encodesItselfA_of_wireA {i : Instr} (hw : i.wellFormed = true) {s : State}
    (hf : (encode s.params.commands i).form = .wireA) : EncodesItselfA i s := by
  cases i with
  | cmdASetpos dur pairs =>
    have hlen : 3 + 3 * pairs.length ≤ 60 := of_decide_eq_true hw
    exact ⟨_, _, _, _, rfl, rfl, (setposPayload_length dur pairs).trans_le hlen, fun _ => checkCount_ok⟩
  | cmdAGetpos ids | cmdAStop ids =>
    have hlen : 1 + ids.length ≤ 60 := of_decide_eq_true hw
    exact ⟨_, _, _, _, rfl, rfl, (idsPayload_length ids).trans_le hlen, fun _ => checkCount_ok⟩
  | cmdABatt => exact ⟨none, _, [], _, rfl, rfl, Nat.zero_le _, fun _ h => by cases h⟩
  | _ => cases hf

/-- A command that `B.ENC` emits (R79, R143). -/
theorem encodesItselfB_of_named {i : Instr} {s : State} {n : Config.CommandName} {id : Byte} {p : List Byte}
    (he : exec i s = encodeNamedB n id p s)
    (hi : encode s.params.commands i = ⟨.wireB, frameB (codeOf s.params.commands n) id p⟩) (hp : p.length ≤ 252) :
    EncodesItselfB i s := ⟨_, _, _, _, _, he, hi, hp, fun _ => checkCommandB_ok⟩

/-- The commands that `B.ENC` emits, and those with a typed encode, which checks the typed values (R142, R144 to R148). -/
theorem encodesItselfB_of_wireB {i : Instr} {s : State} (hf : (encode s.params.commands i).form = .wireB) :
    EncodesItselfB i s := by
  cases i with
  | moveTimeRead | moveTimeWaitRead | moveStart | moveStop | idRead | angleOffsetWrite | angleOffsetRead
  | angleLimitRead | vinLimitRead | tempMaxLimitRead | tempRead | vinRead | posRead | orMotorModeRead
  | loadOrUnloadRead | ledCtrlRead | ledErrorRead | idWrite | angleOffsetAdjust | loadOrUnloadWrite | ledCtrlWrite
  | ledErrorWrite | orMotorModeWrite => exact encodesItselfB_of_named rfl rfl (by simp)
  | moveTimeWrite | moveTimeWaitWrite =>
    exact ⟨_, _, _, _, _, rfl, rfl, by simp [bytes16], fun _ => validateMove_ok⟩
  | angleLimitWrite => exact ⟨_, _, _, _, _, rfl, rfl, by simp [bytes16], fun _ => validateAngleLimit_ok⟩
  | vinLimitWrite => exact ⟨_, _, _, _, _, rfl, rfl, by simp [bytes16], fun _ => validateVin_ok⟩
  | tempMaxLimitWrite id p0 =>
    exact ⟨_, _, _, _, _, rfl, by rw [lowByte_zext16]; rfl, by simp, fun _ => validateTemp_ok⟩
  | _ => cases hf

/-- Settles O21: a command frame is the encode of its own command and payload, and an encode that ends `OK` has its frame
on offer. -/
theorem commandFrameOffersItself : Obligations.CommandFrameOffersItself := by
  refine ⟨fun i s t hw hf ho h hok => ?unitA, fun i s t _ hf ho h hok => ?unitB⟩
  case unitA =>
    obtain ⟨bad, cmd, p, reply, he, hi, hp, hbad⟩ := encodesItselfA_of_wireA hw hf
    rw [hi]
    exact encodeA_offers ho hbad hok hp (he.symm.trans h)
  case unitB =>
    obtain ⟨bad, cmd, id, p, reply, he, hi, hp, hbad⟩ := encodesItselfB_of_wireB hf
    rw [hi]
    exact encodeB_offers ho hbad hok hp (he.symm.trans h)

end Sys2Proof.Machine
end

section
/-! The set-positions frame carries its triples in caller order (R71, R103, R112). -/

namespace Sys2Proof.Claims

open Sys2Proof.Machine

theorem triples_eq_flatMap (pairs : List ServoPos) :
    triples pairs = pairs.flatMap fun q => [q.id, lo8 q.pos, hi8 q.pos] := by
  induction pairs with
  | nil => rfl
  | cons q qs ih => simp [triples, ih, lowByte_eq_lo8, highByte_eq_hi8]

theorem setposPayload_eq_setposBytes (dur : Half) (pairs : List ServoPos) :
    setposPayload dur pairs = setposBytes dur pairs := by
  simp [setposPayload, setposBytes, bytes16, countByte, triples_eq_flatMap, lowByte_eq_lo8, highByte_eq_hi8]

theorem encodeSetpos_frames (dur : Half) {pairs : List ServoPos} {s : State} (ho : s.outstanding = none)
    (h1 : 1 ≤ pairs.length) (h19 : pairs.length ≤ 19) :
    ∃ t, encodeSetpos dur pairs s = .next t ∧ FramesA 0x03#8 (setposBytes dur pairs) false s t := by
  have hc : checkCount Config.posCountMax pairs.length = none := checkCount_none.2 ⟨h1, h19⟩
  rw [encodeSetpos, hc, ← setposPayload_eq_setposBytes]
  exact encodeA_frames _ false ho (by rw [setposPayload_length]; omega)

/-- Settles O23: the selector and the command frame run the same encode. -/
theorem setPositionsFramesTriples : Obligations.SetPositionsFramesTriples := by
  rintro dur pairs s i (rfl | rfl) ho h1 h19
  · exact encodeSetpos_frames dur ho h1 h19
  · exact encodeSetpos_frames dur ho h1 h19

end Sys2Proof.Claims
end

section
/-! Words written out from R70, R73 and R75. -/

namespace Sys2Proof.Claims

open Sys2Proof.Machine

/-- Settles O3: each word but the last is what the encoder writes for its operation, so it decodes to it. -/
theorem sampleWordsDecode : Obligations.SampleWordsDecode := by
  have key : ∀ i : Instr, i.wellFormed = true → decode defaultCommands (encode defaultCommands i) = .ok i := fun i =>
    decodeUndoesEncode defaultCommands i defaultCommands_ok
  exact ⟨rfl, key (.aSetpos 1000#16 [⟨3#8, 500#16⟩]) rfl, key (.bMove 1#8 500#16 1000#16) rfl, key (.mI2r 64#8) rfl,
    key (.cmdAGetpos [3#8]) rfl, key (.posRead 1#8) rfl, rfl⟩

end Sys2Proof.Claims
end

section
/-! What `B.ENC` refuses: the payload's length, then for a bounded command the row's length and its bounds (R142, R143). -/

namespace Sys2Proof.Claims

open Sys2Proof.Machine

/-- A refused unit B encode answers what was raised and drops the frame on offer (R31, R226). -/
theorem encodeB_refuses (r : Raise) (cmd id : Byte) (p : List Byte) (reply : Bool) {s : State}
    (ho : s.outstanding = none) :
    ∃ t, encodeB (some r) cmd id p reply s = .next t ∧ Answers (outcomeCode r.kind) r.info noResult t ∧ DropsTxb s t := by
  rcases encodeB_cases (some r) cmd id p reply s with ⟨hn, -⟩ | ⟨-, r', hr, he⟩ | ⟨-, hr, -⟩
  · exact absurd ho hn
  · cases hr
    refine ⟨_, he, ⟨rfl, rfl, rfl, rfl⟩, ?_⟩
    simp [DropsTxb, KeepsAllButTxb, KeepsRun, KeepsTxa, KeepsRxa, KeepsRxb, KeepsArm]
  · cases hr

theorem bEnc_refuses {cmd : Byte} {p : List Byte} {r : Raise} (id : Byte) (resp : Bool) {s : State}
    (ho : s.outstanding = none) (hr : checkCommandB s.params.commands cmd p = some r) :
    ∃ t, exec (.bEnc cmd id resp p) s = .next t ∧ Answers (outcomeCode r.kind) r.info noResult t ∧ DropsTxb s t := by
  rw [exec, execBEnc, encodeCommandB, hr]
  exact encodeB_refuses r cmd id p _ ho

section
variable {c : Config.Commands} (hc : commandsOk c = true) {r : Config.CommandRow} (hr : r ∈ commandTable c)
include hc hr

theorem checkCommandB_wrong_length {p : List Byte} (hb : r.bounds ≠ .unbounded) (hl : p.length ≤ 252)
    (hne : p.length ≠ r.preq) : checkCommandB c r.code p = some (badRequest .payloadLengthMismatch) := by
  rw [checkCommandB_of_length hl, rowOf_code hc hr]
  simp only [if_neg hb, if_pos hne]

/-- A bounded command's payload of the right length gets the validation of its row (R143). -/
theorem checkCommandB_bounded {p : List Byte} (hb : r.bounds ≠ .unbounded) (hl : p.length = r.preq)
    (h252 : r.preq ≤ 252) : checkCommandB c r.code p = validatePayload r.bounds p := by
  rw [checkCommandB_of_length (hl.trans_le h252), rowOf_code hc hr]
  simp only [if_neg hb, if_neg (not_not_intro hl)]

end

/-- A payload of the right length that the validation of its row raises on is refused with what is raised. -/
theorem bEnc_refuses_bounds {r : Config.CommandRow} {p : List Byte} {x : Raise} (id : Byte) (resp : Bool) {s : State}
    (ho : s.outstanding = none) (hc : commandsOk s.params.commands = true) (hr : r ∈ commandTable s.params.commands)
    (hb : r.bounds ≠ .unbounded) (hl : p.length = r.preq) (h252 : r.preq ≤ 252)
    (hx : validatePayload r.bounds p = some x) :
    ∃ t, exec (.bEnc r.code id resp p) s = .next t ∧ Answers (outcomeCode x.kind) x.info noResult t ∧ DropsTxb s t :=
  bEnc_refuses id resp ho ((checkCommandB_bounded hc hr hb hl h252).trans hx)

theorem leNat_eq_le16_toNat (b0 b1 : Byte) : leNat b0 b1 = (le16 b0 b1).toNat := (le16_toNat b0 b1).symm

/-- Settles O35: a payload too long, a length the row does not give, then each bound in payload order. -/
theorem bEncRefusals : Obligations.BEncRefusals := by
  refine ⟨?tooLong, ?wrongLength, ?halves, ?temp⟩
  case tooLong =>
    intro cmd id resp p s ho hl
    exact bEnc_refuses id resp ho (if_pos hl)
  case wrongLength =>
    intro id resp p r s ho hc hr hb hl hne
    exact bEnc_refuses id resp ho (checkCommandB_wrong_length hc hr hb hl hne)
  case halves =>
    intro id p0 p1 p2 p3 q resp r s ho hc hr hlen h252
    have refuses {x : Raise} := bEnc_refuses_bounds (p := p0 :: p1 :: p2 :: p3 :: q) (x := x) id resp ho hc hr
      (hl := hlen) (h252 := h252)
    simp only [leNat_eq_le16_toNat]
    refine ⟨fun hb => ?move, fun hb => ?angleLimit, fun hb => ?vin⟩
    case move =>
      rw [hb] at refuses
      have hv := validateMove_eq (le16 p0 p1) (le16 p2 p3)
      refine ⟨fun h0 => ?_, fun h0 h1 => ?_⟩
      · exact refuses (by decide) (hv.trans (if_pos h0))
      · exact refuses (by decide) (hv.trans ((if_neg (by omega)).trans (if_pos h1)))
    case angleLimit =>
      rw [hb] at refuses
      have hv := validateAngleLimit_eq (le16 p0 p1) (le16 p2 p3)
      refine ⟨fun h0 => ?_, fun h0 h1 => ?_, fun h0 h1 => ?_⟩
      · exact refuses (by decide) (hv.trans (if_pos h0))
      · exact refuses (by decide) (hv.trans ((if_neg (by omega)).trans (if_pos h1)))
      · exact refuses (by decide) (hv.trans ((if_neg (by omega)).trans ((if_neg (by omega)).trans (if_pos h1))))
    case vin =>
      rw [hb] at refuses
      have hv := validateVin_eq (le16 p0 p1) (le16 p2 p3)
      refine ⟨fun h0 => ?_, fun h0 h1 h2 => ?_⟩
      · exact refuses (by decide) (hv.trans (if_pos h0))
      · exact refuses (by decide) (hv.trans ((if_neg (by omega)).trans (if_pos h2)))
  case temp =>
    intro id p0 q resp r s ho hc hr hb hlen h252 ht
    have hv : validatePayload r.bounds (p0 :: q) = some (outOfRange .maxTemperature 50 100) := by
      rw [hb]
      exact (validateTemp_eq (zext16 p0)).trans (if_pos (by rwa [zext16_toNat]))
    exact bEnc_refuses_bounds (p := p0 :: q) id resp ho hc hr (by simp [hb]) hlen h252 hv

end Sys2Proof.Claims
end

section
/-! `M.Z2R`, the height-to-actuator chain: the index `M.Z2I` finds is one `M.I2R` maps, to a raw value from 503 to 900
(R185 to R187). -/

namespace Sys2Proof.Machine

/-! ### Order of values that are not negative -/

/-- `x` is not negative and at most `b`. -/
def NonnegUpTo (b x : F64) : Prop := f64Neg x = false ∧ f64Mag x ≤ f64Mag b

theorem f64Neg_mul {x y : F64} (hx : f64Finite x = true) (hy : f64Finite y = true) :
    f64Neg (f64Mul x y) = (f64Neg x != f64Neg y) := by
  obtain ⟨x1, x2⟩ := (f64Finite_iff x).1 hx
  obtain ⟨y1, y2⟩ := (f64Finite_iff y).1 hy
  simp only [f64Mul, x1, x2, y1, y2, Bool.or_self, Bool.false_eq_true, if_false]
  exact f64Neg_pack _ (Nat.lt_of_le_of_lt (roundUnits_le_infMag _ _) (by decide))

theorem f64Neg_div {x y : F64} (hx : f64Finite x = true) (hy : f64Finite y = true) (h0 : f64IsZero y = false) :
    f64Neg (f64Div x y) = (f64Neg x != f64Neg y) := by
  obtain ⟨x1, x2⟩ := (f64Finite_iff x).1 hx
  obtain ⟨y1, y2⟩ := (f64Finite_iff y).1 hy
  simp only [f64Div, x1, x2, y1, y2, h0, Bool.or_self, Bool.false_eq_true, if_false]
  exact f64Neg_pack _ (Nat.lt_of_le_of_lt (roundUnits_le_infMag _ _) (by decide))

theorem nonnegUpTo_ofInt {i n : Nat} (h : i ≤ n) : NonnegUpTo (f64OfInt n) (f64OfInt i) := by
  have hlt : ∀ k : Nat, roundUnits (k * unitsPerOne) 1 < 2 ^ 63 := fun k =>
    Nat.lt_of_le_of_lt (roundUnits_le_infMag _ _) (by decide)
  have heq : ∀ k : Nat, f64OfInt k = f64Pack false (roundUnits (k * unitsPerOne) 1) := fun k => by
    rw [f64OfInt, decide_eq_false (by omega), Int.natAbs_natCast]
  rw [NonnegUpTo, heq, heq, f64Neg_pack _ (hlt i), f64Mag_pack _ (hlt i), f64Mag_pack _ (hlt n)]
  exact ⟨rfl, roundUnits_mono Nat.one_pos (Nat.mul_le_mul_right _ h)⟩

section
variable {b x : F64} (h : NonnegUpTo b x) (hb : f64Finite b = true)
include h hb

theorem NonnegUpTo.finite : f64Finite x = true :=
  (f64Finite_iff_lt x).2 (h.2.trans_lt ((f64Finite_iff_lt b).1 hb))

/-- Multiplication by a value that is not negative keeps the order. -/
theorem NonnegUpTo.mul {y : F64} (hy : f64Finite y = true) (hn : f64Neg y = false) :
    NonnegUpTo (f64Mul b y) (f64Mul x y) := by
  have hx := h.finite hb
  refine ⟨by rw [f64Neg_mul hx hy, h.1, hn]; rfl, ?_⟩
  rw [f64Mag_mul hx hy, f64Mag_mul hb hy]
  exact roundUnits_mono unitsPerOne_pos (Nat.mul_le_mul_right _ (magUnits_le h.2))

/-- Division by a positive value keeps the order. -/
theorem NonnegUpTo.div {y : F64} (hy : f64Finite y = true) (hn : f64Neg y = false) (h0 : f64IsZero y = false) :
    NonnegUpTo (f64Div b y) (f64Div x y) := by
  have hx := h.finite hb
  have hpos : 0 < magUnits (f64Mag y) := magUnits_strictMono (Nat.pos_of_ne_zero (of_decide_eq_false h0))
  refine ⟨by rw [f64Neg_div hx hy h0, h.1, hn]; rfl, ?_⟩
  rw [f64Mag_div hx hy h0, f64Mag_div hb hy h0]
  exact roundUnits_mono hpos (Nat.mul_le_mul_right _ (magUnits_le h.2))

end

theorem f64Units_of_nonneg {x : F64} (h : f64Neg x = false) : f64Units x = magUnits (f64Mag x) := by
  rw [f64Units, h]; rfl

/-- Where `c - x` is at least `d` in exact units, the rounded difference is from `d` to `c`. -/
theorem f64Sub_bounds {c d x : F64} (hc : f64Finite c = true) (hcn : f64Neg c = false) (hd : f64Finite d = true)
    (hx : f64Finite x = true) (hxn : f64Neg x = false)
    (h : magUnits (f64Mag d) + magUnits (f64Mag x) ≤ magUnits (f64Mag c)) :
    f64Neg (f64Sub c x) = false ∧ f64Mag d ≤ f64Mag (f64Sub c x) ∧ f64Mag (f64Sub c x) ≤ f64Mag c := by
  have hxneg : f64Finite (f64Negate x) = true := by rwa [f64Finite_iff_lt, f64Mag_negate, ← f64Finite_iff_lt]
  have hsum : f64Units c + f64Units (f64Negate x) = ((magUnits (f64Mag c) - magUnits (f64Mag x) : Nat) : Int) := by
    rw [f64Units_negate, f64Units_of_nonneg hcn, f64Units_of_nonneg hxn]; omega
  refine ⟨?_, ?_⟩
  · obtain ⟨c1, c2⟩ := (f64Finite_iff c).1 hc
    obtain ⟨x1, x2⟩ := (f64Finite_iff _).1 hxneg
    simp only [f64Sub, f64Add, c1, c2, x1, x2, hsum, hcn, Bool.or_self, Bool.false_eq_true, if_false, Bool.false_and]
    split
    · exact f64Neg_pack _ (by decide)
    · rw [decide_eq_false (by omega)]
      exact f64Neg_pack _ (Nat.lt_of_le_of_lt (roundUnits_le_infMag _ _) (by decide))
  · rw [f64Sub, f64Mag_add hc hxneg, hsum, Int.natAbs_natCast]
    exact ⟨le_roundUnits Nat.one_pos ((f64Finite_iff_lt d).1 hd).le (by omega), roundUnits_le Nat.one_pos (by omega)⟩

/-- Rounding to an integer keeps a quotient between two integers, whichever way a midpoint goes. -/
theorem divRoundMidpoint_bounds (m : Config.Midpoint) {num den lo hi : Nat} (h : 0 < den) (hlo : lo * den ≤ num)
    (hhi : num ≤ hi * den) : lo ≤ divRoundMidpoint m num den ∧ divRoundMidpoint m num den ≤ hi := by
  have hdm : num / den * den + num % den = num := Nat.div_add_mod' num den
  have hbelow : lo ≤ num / den := (Nat.le_div_iff_mul_le h).2 hlo
  have habove : num / den ≤ hi := Nat.div_le_of_le_mul (by rwa [Nat.mul_comm])
  have hrest : num % den ≠ 0 → num / den + 1 ≤ hi := fun hr =>
    Nat.lt_of_mul_lt_mul_right (a := den) (by omega)
  unfold divRoundMidpoint
  split
  · exact ⟨hbelow, habove⟩
  have hup := hrest (by omega)
  split
  · exact ⟨by omega, hup⟩
  cases m with
  | toEven => simp only; omega
  | awayFromZero => simp only; omega

theorem f64Round_of_nonneg (m : Config.Midpoint) {x : F64} (h : f64Neg x = false) :
    f64Round m x = divRoundMidpoint m (magUnits (f64Mag x)) unitsPerOne :=
  if_neg (by simp [h])

/-! ### The quotient of `M.I2R` -/

/-- At every index of the height table `v` of R186 is from 503 to 900, in exact units: the term taken from 900 grows with
the index and is at most 397 at the last. -/
theorem i2rQuotient_bounds {i : Nat} (hi : i ≤ 127) : f64Neg (i2rQuotient i) = false ∧
    503 * unitsPerOne ≤ magUnits (f64Mag (i2rQuotient i)) ∧
      magUnits (f64Mag (i2rQuotient i)) ≤ 900 * unitsPerOne := by
  have hindex : NonnegUpTo (f64OfInt (127 : Nat)) (f64OfInt i) := nonnegUpTo_ofInt hi
  have halpha : NonnegUpTo (alphaOf 127) (alphaOf i) :=
    (hindex.div (y := f64OfInt 128) (by decide +kernel) (by decide +kernel) (by decide +kernel) (by decide +kernel)).mul
      (y := f64HalfPi) (by decide +kernel) (by decide) (by decide)
  have hscaled := (halpha.div (y := f64HalfPi) (by decide +kernel) (by decide) (by decide) (by decide)).mul
    (y := f64OfInt 400) (by decide +kernel) (by decide +kernel) (by decide +kernel)
  have hfin := hscaled.finite (by decide +kernel)
  obtain ⟨hnonneg, hle⟩ := hscaled
  have hlast : magUnits (f64Mag (f64Mul (f64Div (alphaOf 127) f64HalfPi) (f64OfInt 400))) ≤ 397 * unitsPerOne := by
    decide +kernel
  have h503 : magUnits (f64Mag (f64OfInt 503)) = 503 * unitsPerOne := by decide +kernel
  have h900 : magUnits (f64Mag (f64OfInt 900)) = 900 * unitsPerOne := by decide +kernel
  obtain ⟨hneg, hlo, hhi⟩ := f64Sub_bounds (c := f64OfInt 900) (d := f64OfInt 503) (by decide +kernel) (by decide +kernel)
    (by decide +kernel) hfin hnonneg (by have := magUnits_le hle; omega)
  exact ⟨hneg, h503.symm.trans_le (magUnits_le hlo), (magUnits_le hhi).trans_eq h900⟩

/-- `M.I2R` ends `OK` on every index of the height table, with a raw value from 503 to 900 (R186). -/
theorem i2rBody_ok (m : Config.Midpoint) {i : Byte} (hi : i.toNat ≤ 127) :
    ∃ r : Word, i2rBody m i = .ok { Result.unwritten with int := some r } ∧ 503 ≤ r.toNat ∧ r.toNat ≤ 900 := by
  obtain ⟨hneg, hlo, hhi⟩ := i2rQuotient_bounds hi
  obtain ⟨h503, h900⟩ := divRoundMidpoint_bounds m unitsPerOne_pos hlo hhi
  refine ⟨_, if_neg (by omega), ?_⟩
  rw [f64Round_of_nonneg m hneg, BitVec.ofInt_natCast, BitVec.toNat_ofNat, Nat.mod_eq_of_lt (h900.trans_lt (by decide))]
  exact ⟨h503, h900⟩

theorem exec_mI2r_succeeds {i : Byte} (hi : i.toNat ≤ 127) (s : State) :
    ∃ t, exec (.mI2r i) s = .next t ∧ t.status = 0x00#8 ∧
      ∃ r : Word, t.result.int = some r ∧ 503 ≤ r.toNat ∧ r.toNat ≤ 900 := by
  obtain ⟨r, hbody, hlo, hhi⟩ := i2rBody_ok s.params.numeric.midpoint hi
  refine ⟨respond 0x00#8 Info.zero { Result.unwritten with int := some r } s, ?_, rfl, r, rfl, hlo, hhi⟩
  rw [exec, execMI2r, hbody]
  rfl

/-! ### The chain -/

/-- Once the table is built, `M.Z2I` finds an index of it for every height that is a number (R185). -/
theorem z2iBody_ok {z : F64} {s : State} (h : Inv s) (hv : s.armValid = true) (hz : f64IsNaN z = false) :
    ∃ k, k ≤ 127 ∧ z2iBody z s = .ok { Result.unwritten with int := some (BitVec.ofNat 32 k) } := by
  obtain ⟨l1, l2, l3, l4, -, -, -, -, -, hpz, -⟩ := h.armed hv
  have hread : ∀ j, j < 0 + 128 → cellRead s.pz j = some (heightEntry s.params.numeric l1 l2 l3 l4 j) := fun j hj => by
    rw [hpz, cellRead_cellsOf, heightTable_getElem?, if_pos (by omega)]
  obtain ⟨k, hk, hfound⟩ := scanHeights_ok (z := z) hread
  refine ⟨k, by omega, ?_⟩
  rw [z2iBody, if_neg (by simp [hz]), if_neg (by simp [hv])]
  exact bind_of_ok hk

/-- Where `M.Z2I` answers an index, the chain is `M.I2R` of it in the state `M.Z2I` leaves. -/
theorem runZ2r_of_index {z : F64} {s : State} {k : Nat} (hk : k ≤ 127)
    (h : z2iBody z s = .ok { Result.unwritten with int := some (BitVec.ofNat 32 k) }) :
    runZ2r z s = exec (.mI2r (BitVec.ofNat 8 k))
      (respond 0x00#8 Info.zero { Result.unwritten with int := some (BitVec.ofNat 32 k) } s) := by
  have hz : exec (.mZ2i z) s =
      .next (respond 0x00#8 Info.zero { Result.unwritten with int := some (BitVec.ofNat 32 k) } s) := by
    rw [exec, execMZ2i, h]; rfl
  rw [runZ2r, hz]
  simp only [respond_result, respond_faults, if_true, BitVec.toNat_ofNat, Nat.mod_eq_of_lt (show k < 2 ^ 32 by omega)]

/-- Settles O58: the index `M.Z2I` leaves is one of the table, and `M.I2R` maps every such index. -/
theorem heightToActuatorChainSucceeds : Obligations.HeightToActuatorChainSucceeds := by
  intro z s h hv hz
  obtain ⟨k, hk, hindex⟩ := z2iBody_ok h hv hz
  have hbyte : (BitVec.ofNat 8 k).toNat ≤ 127 := by rw [BitVec.toNat_ofNat]; omega
  rw [runZ2r_of_index hk hindex]
  exact exec_mI2r_succeeds hbyte _

end Sys2Proof.Machine
end

section
/-! What an encode answers while a reply is outstanding, and what the unit A operations refuse (R100 to R110, R222). -/

namespace Sys2Proof.Claims

open Sys2Proof.Machine

/-! ### The hazard -/

/-- The first fault of a run is the only name in the ghost set (R38). -/
theorem addFault_of_no_faults {s : State} (n : FaultName) (h : s.faults = []) :
    addFault n s = { s with faults := [n] } := by
  simp [addFault, h]

/-- An encode behind the preamble takes the hazard and writes nothing else, whatever it would have framed (R100). -/
theorem encodePreamble_hazard {s : State} (ho : s.outstanding ≠ none) (hf : s.faults = []) (body : Answer) :
    encodePreamble s body = .next { s with faults := [.hazardOutstanding] } := by
  rw [encodePreamble_pending ho, addFault_of_no_faults _ hf]

/-- Settles O16: each encode of either unit is `BuildA` or `BuildB` behind the preamble. -/
theorem encodeWhileOutstandingTakesHazard : Obligations.EncodeWhileOutstandingTakesHazard := by
  rintro i s (hk | hk) ho hf
  · obtain ⟨bad, cmd, p, reply, hi, -, -⟩ := exec_encodeA hk s.params
    exact (hi s rfl).trans (encodePreamble_hazard ho hf _)
  · obtain ⟨bad, cmd, id, p, reply, hi, -, -⟩ := exec_encodeB hk s.params
    exact (hi s rfl).trans (encodePreamble_hazard ho hf _)

/-! ### Encodes -/

theorem exec_aEnc_fits (cmd : Byte) (resp : Bool) {p : List Byte} (s : State) (h : p.length ≤ 60) :
    exec (.aEnc cmd resp p) s = encodeA none cmd p resp s := by
  have hfits : ¬ Config.payloadMaxA < p.length := Nat.not_lt.2 h
  rw [exec, execAEnc, if_neg hfits]

theorem exec_aEnc_tooLong (cmd : Byte) (resp : Bool) {p : List Byte} (s : State) (h : 60 < p.length) :
    exec (.aEnc cmd resp p) s = encodeA (some (badRequest .payloadTooLong)) cmd p resp s := by
  have hlong : Config.payloadMaxA < p.length := h
  rw [exec, execAEnc, if_pos hlong]

/-- Settles O22: a payload that fits passes the one check of `A.ENC`. -/
theorem aEncFramesAnyCommand : Obligations.AEncFramesAnyCommand := by
  intro cmd resp p s ho hp
  rw [exec_aEnc_fits cmd resp s hp]
  exact encodeA_frames cmd resp ho hp

/-- A refused unit A encode answers what was raised and drops the frame on offer (R29, R226). -/
theorem encodeA_refuses (r : Raise) (cmd : Byte) (p : List Byte) (reply : Bool) {s : State}
    (ho : s.outstanding = none) :
    ∃ t, encodeA (some r) cmd p reply s = .next t ∧ Answers (outcomeCode r.kind) r.info noResult t ∧ DropsTxa s t := by
  rcases encodeA_cases (some r) cmd p reply s with ⟨hn, -⟩ | ⟨-, r', hr, he⟩ | ⟨-, hr, -⟩
  · exact absurd ho hn
  · cases hr
    refine ⟨_, he, ⟨rfl, rfl, rfl, rfl⟩, ?_⟩
    simp [DropsTxa, KeepsAllButTxa, KeepsRun, KeepsRxa, KeepsTxb, KeepsRxb, KeepsArm]
  · cases hr

theorem checkCount_outOfRange {most n : Nat} (h : n = 0 ∨ most < n) :
    checkCount most n = some (badRequest .countOutOfRange) := if_pos (by omega)

/-- A unit A encode whose servo count is out of range (R103 to R105). -/
theorem encodeA_refuses_count {most n : Nat} (h : n = 0 ∨ most < n) (cmd : Byte) (p : List Byte) (reply : Bool)
    {s : State} (ho : s.outstanding = none) :
    ∃ t, encodeA (checkCount most n) cmd p reply s = .next t ∧ AnswersBadRequest 2#8 t ∧ DropsTxa s t := by
  rw [checkCount_outOfRange h]
  exact encodeA_refuses _ cmd p reply ho

/-! ### The load and the decodes -/

/-- A raised outcome writes nothing but the answer (R226). -/
theorem raiseOutcome_keepsAll (r : Raise) (s : State) :
    ∃ t, raiseOutcome r s = .next t ∧ Answers (outcomeCode r.kind) r.info noResult t ∧ KeepsAll s t :=
  ⟨_, rfl, ⟨rfl, rfl, rfl, rfl⟩, ⟨⟨rfl, rfl, rfl, rfl⟩, keepsSpaces_refl s⟩, rfl⟩

/-- A decode that raises an outcome writes nothing but the answer, and clears `OUTSTANDING` (R37, R226). -/
theorem decode_raises {s : State} {body : Except Stop Result} {r : Raise} (h : body = .error (.raise r)) :
    ∃ t, finish (setOutstanding none) body s = .next t ∧ t.outstanding = none ∧ KeepsAllSpaces s t ∧
      Answers (outcomeCode r.kind) r.info noResult t := by
  subst h
  exact ⟨_, rfl, rfl, ⟨⟨rfl, rfl, rfl, rfl⟩, keepsSpaces_refl s⟩, rfl, rfl, rfl, rfl⟩

/-- A decode that returns writes nothing but the answer, and clears `OUTSTANDING` (R37). -/
theorem decode_returns {s : State} {body : Except Stop Result} {r : Result} (h : body = .ok r) :
    ∃ t, finish (setOutstanding none) body s = .next t ∧ t.outstanding = none ∧ KeepsAllSpaces s t ∧ AnswersOk r t := by
  subst h
  exact ⟨_, rfl, rfl, ⟨⟨rfl, rfl, rfl, rfl⟩, keepsSpaces_refl s⟩, rfl, rfl, rfl, rfl⟩

theorem decBodyA_tooLong (cmd : Byte) {elen : Byte} (s : State) (h : 60 < elen.toNat) :
    decBodyA cmd elen s = .error (.raise (badRequest .expectedLengthOutOfRange)) := if_pos h

theorem decposBody_count {ids : List Byte} (s : State) (h : ids.length = 0 ∨ 19 < ids.length) :
    decposBody ids s = .error (.raise (badRequest .countOutOfRange)) := by
  have hc : checkCount Config.posCountMax ids.length = some (badRequest .countOutOfRange) := checkCount_outOfRange h
  rw [decposBody, hc]

/-- Settles O27: each operation stops at the first check of its rule. -/
theorem unitABadRequests : Obligations.UnitABadRequests := by
  refine ⟨?enc, ?setpos, ?getpos, ?stop, ?load, ?dec, ?decpos⟩
  case enc =>
    intro cmd resp p s ho hp
    rw [exec_aEnc_tooLong cmd resp s hp]
    exact encodeA_refuses _ cmd p resp ho
  case setpos =>
    rintro dur pairs s i (rfl | rfl) ho hn
    · exact encodeA_refuses_count hn _ _ _ ho
    · exact encodeA_refuses_count hn _ _ _ ho
  case getpos =>
    rintro ids s i (rfl | rfl) ho hn
    · exact encodeA_refuses_count hn _ _ _ ho
    · exact encodeA_refuses_count hn _ _ _ ho
  case stop =>
    rintro ids s i (rfl | rfl) ho hn
    · exact encodeA_refuses_count hn _ _ _ ho
    · exact encodeA_refuses_count hn _ _ _ ho
  case load =>
    intro b s hb
    have hlong : Config.rxaMax < b.length := hb
    rw [exec, execARxload, if_pos hlong]
    exact raiseOutcome_keepsAll _ s
  case dec =>
    intro cmd elen s he
    obtain ⟨t, hexec, hout, hkeep, hans⟩ := decode_raises (decBodyA_tooLong cmd s he)
    exact ⟨t, hexec, hans, hout, hkeep⟩
  case decpos =>
    intro ids s hn
    obtain ⟨t, hexec, hout, hkeep, hans⟩ := decode_raises (decposBody_count s hn)
    exact ⟨t, hexec, hans, hout, hkeep⟩

end Sys2Proof.Claims
end

section
/-! What the unit A decodes return of a valid reply, and how they fail on any other (R108 to R111). -/

namespace Sys2Proof.Claims

open Sys2Proof.Machine

/-! ### Valid replies -/

section
variable {s : State}

/-- The payload that `A.DEC` returns is the bytes behind the header (R109). -/
theorem decBodyA_ok_of_valid {cmd elen : Byte} (he : elen.toNat ≤ 60) (hv : ValidReplyA cmd elen.toNat s)
    (hw : RxaWritten s) :
    ∃ p, decBodyA cmd elen s = .ok { Result.unwritten with payload := cellsOf p, plen := some elen } ∧
      p.length = elen.toNat ∧ ∀ j, j < elen.toNat → cellRead s.rxa (4 + j) = p[j]? := by
  obtain ⟨hlen, -⟩ := id hv
  obtain ⟨p, hp⟩ := cellReadSeq_of_written (m := s.rxa) (a := 4) (n := elen.toNat) fun j hj =>
    Option.isSome_iff_exists.2 (hw (4 + j) (by omega))
  refine ⟨p, ?_, cellReadSeq_eq_some.1 hp⟩
  have hfits : ¬ Config.payloadMaxA < elen.toNat := Nat.not_lt.2 he
  rw [decBodyA, if_neg hfits, bind_of_ok (checkA_of_validReply hv), bind_of_ok (need_eq_ok.2 hp)]

/-- Settles O29. -/
theorem aDecReturnsPayload : Obligations.ADecReturnsPayload := by
  intro cmd elen s he hv hw
  obtain ⟨p, hbody, hlen, hp⟩ := decBodyA_ok_of_valid he hv hw
  obtain ⟨t, hexec, hout, hkeep, hans⟩ := decode_returns (s := s) hbody
  obtain ⟨-, -, hresult, -⟩ := id hans
  have hres : t.result.payload = cellsOf p := congrArg Result.payload hresult
  refine ⟨t, hexec, hout, hkeep, hres ▸ hans, fun j => ?_⟩
  rw [hres, cellRead_cellsOf]
  by_cases hj : j < elen.toNat
  · rw [if_pos hj, hp j hj]
  · rw [if_neg hj, List.getElem?_eq_none (by omega)]

/-- The triples that `A.DECPOS` returns are those behind the count, with the ids that were sent (R110). -/
theorem decposBody_ok_of_valid {ids : List Byte} (h1 : 1 ≤ ids.length) (h19 : ids.length ≤ 19)
    (hv : ValidReplyA s.params.commands.getpos (1 + 3 * ids.length) s) (hw : RxaWritten s)
    (hids : ∀ k, k < ids.length → cellRead s.rxa (5 + 3 * k) = ids[k]?) :
    ∃ qs : List ServoPos, decposBody ids s =
        .ok { Result.unwritten with
              ids := cellsOf ids, pos := cellsOf (qs.map ServoPos.pos), n := some (countByte ids.length) } ∧
      qs.length = ids.length ∧ ∀ k b0 b1, k < ids.length → cellRead s.rxa (6 + 3 * k) = some b0 →
        cellRead s.rxa (7 + 3 * k) = some b1 → (qs[k]?).map ServoPos.pos = some (le16 b0 b1) := by
  obtain ⟨hlen, -⟩ := id hv
  obtain ⟨qs, hqs, hn, hread⟩ := readTriples_ok (m := s.rxa) (off := 5) (n := ids.length) fun k hk =>
    hw (5 + k) (by omega)
  have hechoed : qs.map ServoPos.id = ids := by
    refine List.ext_getElem? fun k => ?_
    by_cases hk : k < ids.length
    · obtain ⟨hid, -⟩ := hread k hk
      rw [List.getElem?_map, ← hid, hids k hk]
    · rw [List.getElem?_eq_none (by simp; omega), List.getElem?_eq_none (by omega)]
  refine ⟨qs, ?_, hn, fun k b0 b1 hk hlo hhi => (hread k hk).2 b0 b1 hlo hhi⟩
  rw [decposBody_eq h1 h19, bind_of_ok (checkA_of_validReply hv), bind_of_ok (checkEchoedIds_ok hids), bind_of_ok hqs,
    hechoed]

/-- Settles O30. -/
theorem aDecposReturnsPositions : Obligations.ADecposReturnsPositions := by
  intro ids s h1 h19 hv hw hids
  obtain ⟨qs, hbody, hn, hpos⟩ := decposBody_ok_of_valid h1 h19 hv hw hids
  obtain ⟨t, hexec, hout, hkeep, hans⟩ := decode_returns (s := s) hbody
  obtain ⟨-, -, hres, -⟩ := id hans
  have hrids : t.result.ids = cellsOf ids := congrArg Result.ids hres
  have hrpos : t.result.pos = cellsOf (qs.map ServoPos.pos) := congrArg Result.pos hres
  refine ⟨t, hexec, hout, hkeep, hrids ▸ hrpos ▸ hans, fun k => ?_, fun k b0 b1 hk hlo hhi => ?_, fun k hk => ?_⟩
  · rw [hrids, cellRead_cellsOf]
  · rw [hrpos, cellRead_cellsOf, List.getElem?_map]
    exact hpos k b0 b1 hk hlo hhi
  · rw [hrpos, cellRead_cellsOf, List.getElem?_eq_none (by simp; omega)]

/-- Settles O31. -/
theorem aDecbattReturnsMillivolts : Obligations.ADecbattReturnsMillivolts := by
  intro s b0 b1 hv hlo hhi
  refine decode_returns (body := decbattBody s) ?_
  rw [decbattBody, bind_of_ok (checkA_of_validReply hv), bind_of_ok (need_eq_ok.2 hlo), bind_of_ok (need_eq_ok.2 hhi)]
  rfl

/-! ### Failures -/

/-- `CheckA` reads only cells below the received count (R108). -/
theorem checkA_noFault_of_written (hw : RxaWritten s) (cmd : Byte) (elen : Nat) :
    NoFault (checkA s.rxa s.rxaCount.toNat cmd elen) := by
  refine .check fun _ => .check fun h4 => ?_
  have hread : ∀ j, j < 4 → (cellRead s.rxa j).isSome = true := fun j hj =>
    Option.isSome_iff_exists.2 (hw j (by omega))
  refine .bind (.need (hread 0 (by decide))) fun _ _ => .bind (.need (hread 1 (by decide))) fun _ _ => ?_
  exact .check fun _ => .bind (.need (hread 3 (by decide))) fun _ _ => .check fun _ => .check fun _ => .value _

/-- A reply that is not valid fails with `NoResponse` where nothing was received, else with `ProtocolMismatch` (R108). -/
theorem checkA_of_not_validReply {cmd : Byte} {elen : Nat} (hw : RxaWritten s) (hv : ¬ ValidReplyA cmd elen s) :
    checkA s.rxa s.rxaCount.toNat cmd elen =
      .error (.raise (plainRaise (if s.rxaCount = 0#8 then .noResponse else .protocolMismatch))) := by
  have hzero : s.rxaCount.toNat = 0 ↔ s.rxaCount = 0#8 := (BitVec.toNat_eq (y := 0#8)).symm
  cases hc : checkA s.rxa s.rxaCount.toNat cmd elen with
  | ok => exact absurd (checkA_eq_ok.1 hc) hv
  | error e =>
    rcases checkA_raise hc with rfl | rfl
    · exact absurd hc (checkA_noFault_of_written hw cmd elen _)
    · simp only [hzero]

/-! Each decode fails as `CheckA` fails. -/

theorem decBodyA_of_check {cmd elen : Byte} {e : Stop} (he : elen.toNat ≤ 60)
    (h : checkA s.rxa s.rxaCount.toNat cmd elen.toNat = .error e) : decBodyA cmd elen s = .error e := by
  have hfits : ¬ Config.payloadMaxA < elen.toNat := Nat.not_lt.2 he
  rw [decBodyA, if_neg hfits, h]
  rfl

theorem decposBody_of_check {ids : List Byte} {e : Stop} (h1 : 1 ≤ ids.length) (h19 : ids.length ≤ 19)
    (h : checkA s.rxa s.rxaCount.toNat s.params.commands.getpos (1 + 3 * ids.length) = .error e) :
    decposBody ids s = .error e := by
  rw [decposBody_eq h1 h19, h]
  rfl

theorem decbattBody_of_check {e : Stop} (h : checkA s.rxa s.rxaCount.toNat s.params.commands.batt 2 = .error e) :
    decbattBody s = .error e := by
  rw [decbattBody, h]
  rfl

/-- A decode that fails as a reply that is not valid does, as the statements say it. -/
theorem decode_fails_plain {c : Prop} [Decidable c] {body : Except Stop Result}
    (h : body = .error (.raise (plainRaise (if c then .noResponse else .protocolMismatch)))) :
    ∃ t, finish (setOutstanding none) body s = .next t ∧ t.outstanding = none ∧ KeepsAllSpaces s t ∧
      AnswersPlain (if c then 0x03#8 else 0x04#8) t := by
  by_cases hc : c
  · rw [if_pos hc] at h ⊢; exact decode_raises h
  · rw [if_neg hc] at h ⊢; exact decode_raises h

/-- Ids that pass were echoed in the order sent (R110). -/
theorem echoed_of_checkEchoedIds {m : Cells Byte} {off : Nat} {ids : List Byte}
    (h : checkEchoedIds m off ids = .ok ()) :
    ∀ k, k < ids.length → cellRead m (off + 3 * k) = ids[k]? := by
  induction ids generalizing off with
  | nil => simp
  | cons id ids ih =>
    obtain ⟨b, hb, h⟩ := bind_eq_ok.1 h
    by_cases hne : b ≠ id
    · rw [if_pos hne] at h; cases h
    · rw [if_neg hne] at h
      rintro (_ | k) hk
      · exact (need_eq_ok.1 hb).trans (congrArg some (not_not.1 hne))
      · rw [show off + 3 * (k + 1) = off + 3 + 3 * k by omega, List.getElem?_cons_succ]
        exact ih h k (Nat.lt_of_succ_lt_succ hk)

/-- An id echoed otherwise than sent is a mismatch (R110, D42). -/
theorem checkEchoedIds_mismatch {m : Cells Byte} {off k : Nat} {ids : List Byte}
    (hw : ∀ j, j < ids.length → (cellRead m (off + 3 * j)).isSome = true) (hk : k < ids.length)
    (hne : cellRead m (off + 3 * k) ≠ ids[k]?) :
    checkEchoedIds m off ids = .error (.raise (plainRaise .protocolMismatch)) := by
  cases hc : checkEchoedIds m off ids with
  | ok => exact absurd (echoed_of_checkEchoedIds hc k hk) hne
  | error e =>
    rcases checkEchoedIds_raise hc with rfl | rfl
    · exact absurd hc (checkEchoedIds_noFault hw _)
    · rfl

theorem decposBody_mismatch {ids : List Byte} (h1 : 1 ≤ ids.length) (h19 : ids.length ≤ 19)
    (hv : ValidReplyA s.params.commands.getpos (1 + 3 * ids.length) s) (hw : RxaWritten s) {k : Nat}
    (hk : k < ids.length) (hne : cellRead s.rxa (5 + 3 * k) ≠ ids[k]?) :
    decposBody ids s = .error (.raise (plainRaise .protocolMismatch)) := by
  obtain ⟨hlen, -⟩ := id hv
  have hread : ∀ j, j < ids.length → (cellRead s.rxa (5 + 3 * j)).isSome = true := fun j hj =>
    Option.isSome_iff_exists.2 (hw _ (by omega))
  rw [decposBody_eq h1 h19, bind_of_ok (checkA_of_validReply hv), checkEchoedIds_mismatch hread hk hne]
  rfl

end

/-- Settles O32: a reply that is not valid fails in `CheckA`, and a valid one with other ids in the check behind it. -/
theorem unitADecodeFailures : Obligations.UnitADecodeFailures := by
  refine ⟨?notValid, ?otherIds⟩
  case notValid =>
    rintro i cmd elen s (⟨e, rfl, rfl, he⟩ | ⟨ids, rfl, rfl, rfl, h1, h19⟩ | ⟨rfl, rfl, rfl⟩) hw hv
    · exact decode_fails_plain (decBodyA_of_check he (checkA_of_not_validReply hw hv))
    · exact decode_fails_plain (decposBody_of_check h1 h19 (checkA_of_not_validReply hw hv))
    · exact decode_fails_plain (decbattBody_of_check (checkA_of_not_validReply hw hv))
  case otherIds =>
    rintro ids s h1 h19 hv hw ⟨k, hk, hne⟩
    exact decode_raises (decposBody_mismatch h1 h19 hv hw hk hne)

end Sys2Proof.Claims
end

section
/-! Unit A round trips: a whole frame that was loaded is a valid reply, whose decode returns the payload that was framed
(R113). -/

namespace Sys2Proof.Claims

open Sys2Proof.Machine

/-! ### A whole frame in `RXA` -/

/-- `RXA` holds the whole unit A frame of command `cmd` and payload `p`. -/
structure HoldsFrameA (cmd : Byte) (p : List Byte) (s : State) : Prop where
  count : s.rxaCount.toNat = 64
  cells : s.rxa = cellsOf (frameA cmd p)

theorem exec_aRxload_frameA (cmd : Byte) {p : List Byte} (hp : p.length ≤ 60) (s : State) :
    ∃ t, exec (.aRxload (frameA cmd p)) s = .next t ∧ t.params = s.params ∧ HoldsFrameA cmd p t := by
  have hlen : (frameA cmd p).length = 64 := frameA_length cmd hp
  have hfits : ¬ Config.rxaMax < (frameA cmd p).length := by rw [hlen]; decide
  refine ⟨_, if_neg hfits, rfl, ?_, rfl⟩
  exact (countByte_toNat (by omega)).trans hlen

section
variable {cmd : Byte} {p : List Byte} {s : State} (h : HoldsFrameA cmd p s)
include h

/-- A whole frame is long enough for every payload length a decode can expect (R70, R108). -/
theorem HoldsFrameA.validReply {elen : Nat} (he : elen ≤ 60) : ValidReplyA cmd elen s := by
  refine ⟨by rw [h.count]; omega, ?_⟩
  simp [h.cells, frameA, Config.sig]

theorem HoldsFrameA.written (hp : p.length ≤ 60) : RxaWritten s := by
  intro a ha
  rw [h.count, ← frameA_length cmd hp] at ha
  exact ⟨_, by rw [h.cells, cellRead_cellsOf, List.getElem?_eq_getElem ha]⟩

theorem HoldsFrameA.payload {j : Nat} (hj : j < p.length) : cellRead s.rxa (4 + j) = p[j]? := by
  simp [h.cells, frameA, Nat.add_comm 4 j, List.getElem?_append_left hj]

end

/-! ### A payload of positions -/

/-- The three bytes of each triple, in caller order (R71). -/
theorem triples_getElem? (qs : List ServoPos) (k : Nat) :
    (triples qs)[3 * k]? = (qs[k]?).map ServoPos.id ∧
      (triples qs)[3 * k + 1]? = (qs[k]?).map (lowByte ·.pos) ∧
      (triples qs)[3 * k + 2]? = (qs[k]?).map (highByte ·.pos) := by
  induction qs generalizing k with
  | nil => simp [triples]
  | cons q qs ih =>
    cases k with
    | zero => simp [triples]
    | succ k => simpa [triples, Nat.mul_succ] using ih k

theorem positionsPayload_eq_replyBytes (pairs : List ServoPos) : positionsPayload pairs = replyBytes pairs := by
  rw [positionsPayload, replyBytes, triples_eq_flatMap]
  rfl

/-- A reply given byte by byte is the frame of its positions (R70, R71). -/
theorem reply_eq_frameA {cmd : Byte} {pairs : List ServoPos} {f : List Byte} (h19 : pairs.length ≤ 19)
    (hf : ∀ j, f[j]? = frameByteA cmd (replyBytes pairs) j) : f = frameA cmd (positionsPayload pairs) := by
  have hp : (positionsPayload pairs).length ≤ 60 := by rw [positionsPayload_length]; omega
  refine List.ext_getElem? fun j => ?_
  rw [hf j, ← positionsPayload_eq_replyBytes, frameA_getElem?_eq_frameByteA cmd hp]

/-- Each triple of a positions reply that was loaded (R71, R110). -/
theorem HoldsFrameA.triple {cmd : Byte} {pairs : List ServoPos} {s : State}
    (h : HoldsFrameA cmd (positionsPayload pairs) s) {k : Nat} (hk : k < pairs.length) :
    cellRead s.rxa (5 + 3 * k) = some pairs[k].id ∧ cellRead s.rxa (6 + 3 * k) = some (lowByte pairs[k].pos) ∧
      cellRead s.rxa (7 + 3 * k) = some (highByte pairs[k].pos) := by
  have hbyte : ∀ j, j < 3 * pairs.length → cellRead s.rxa (5 + j) = (triples pairs)[j]? := fun j hj => by
    have hread := h.payload (j := j + 1) (by rw [positionsPayload_length]; omega)
    rwa [show 4 + (j + 1) = 5 + j by omega, positionsPayload, List.getElem?_cons_succ] at hread
  obtain ⟨hid, hlo, hhi⟩ := triples_getElem? pairs k
  rw [List.getElem?_eq_getElem hk] at hid hlo hhi
  refine ⟨(hbyte _ (by omega)).trans hid, ?_, ?_⟩
  · rw [show 6 + 3 * k = 5 + (3 * k + 1) by omega]
    exact (hbyte _ (by omega)).trans hlo
  · rw [show 7 + 3 * k = 5 + (3 * k + 2) by omega]
    exact (hbyte _ (by omega)).trans hhi

/-! ### The round trips -/

/-- `A.DEC` of a loaded frame, with the length of its payload, returns the payload (R109). -/
theorem HoldsFrameA.decodes {cmd : Byte} {p : List Byte} {s : State} (h : HoldsFrameA cmd p s) (hp : p.length ≤ 60) :
    ∃ t, exec (.aDec cmd (BitVec.ofNat 8 p.length)) s = .next t ∧ t.status = 0x00#8 ∧
      t.result.plen = some (BitVec.ofNat 8 p.length) ∧ ∀ j, cellRead t.result.payload j = p[j]? := by
  have hlen : (BitVec.ofNat 8 p.length).toNat = p.length := countByte_toNat (by omega)
  obtain ⟨t, hexec, -, -, ⟨hstatus, -, hres, -⟩, hread⟩ := aDecReturnsPayload cmd (BitVec.ofNat 8 p.length) s
    (hlen.trans_le hp) (h.validReply (hlen.trans_le hp)) (h.written hp)
  refine ⟨t, hexec, hstatus, congrArg Result.plen hres, fun j => ?_⟩
  rw [hread j, hlen]
  by_cases hj : j < p.length
  · rw [if_pos hj, h.payload hj]
  · rw [if_neg hj, List.getElem?_eq_none (by omega)]

/-- `A.DECPOS` of a loaded reply, with the ids it was built from, returns the positions (R110). -/
theorem HoldsFrameA.decodesPositions {pairs : List ServoPos} {s : State}
    (h : HoldsFrameA s.params.commands.getpos (positionsPayload pairs) s) (h1 : 1 ≤ pairs.length)
    (h19 : pairs.length ≤ 19) :
    ∃ t, exec (.aDecpos (pairs.map ServoPos.id)) s = .next t ∧ t.status = 0x00#8 ∧
      ∀ k, cellRead t.result.pos k = (pairs[k]?).map ServoPos.pos := by
  have hn : (pairs.map ServoPos.id).length = pairs.length := List.length_map _
  have hp : (positionsPayload pairs).length ≤ 60 := by rw [positionsPayload_length]; omega
  have hechoed : ∀ k, k < (pairs.map ServoPos.id).length →
      cellRead s.rxa (5 + 3 * k) = (pairs.map ServoPos.id)[k]? := fun k hk => by
    obtain ⟨hid, -⟩ := h.triple (hn ▸ hk)
    rw [hid, List.getElem?_map, List.getElem?_eq_getElem (hn ▸ hk)]
    rfl
  obtain ⟨t, hexec, -, -, ⟨hstatus, -⟩, -, hpos, hnone⟩ := aDecposReturnsPositions (pairs.map ServoPos.id) s
    (by omega) (by omega) (h.validReply (by omega)) (h.written hp) hechoed
  refine ⟨t, hexec, hstatus, fun k => ?_⟩
  by_cases hk : k < pairs.length
  · obtain ⟨-, hlo, hhi⟩ := h.triple hk
    rw [hpos k _ _ (by omega) hlo hhi, List.getElem?_eq_getElem hk]
    exact congrArg some (le16_lowByte_highByte _)
  · rw [hnone k (by omega), List.getElem?_eq_none (by omega)]
    rfl

/-- Settles O33: the frame on offer, or the one a device replies with, is loaded whole and decoded. -/
theorem unitARoundTrip : Obligations.UnitARoundTrip := by
  refine ⟨fun cmd p s ho hp => ?payload, fun pairs s f h1 h19 _ hf => ?positions⟩
  case payload =>
    obtain ⟨t, henc, ⟨hstatus, -⟩, -⟩ := aEncFramesAnyCommand cmd false p s ho hp
    have hoffer : offeredA t = some (frameA cmd p) :=
      encodeA_offers ho (fun _ h => by cases h) hstatus hp ((exec_aEnc_fits cmd false s hp).symm.trans henc)
    obtain ⟨t', hload, -, hframe⟩ := exec_aRxload_frameA cmd hp t
    obtain ⟨t'', hdec⟩ := hframe.decodes hp
    exact ⟨_, t, t', t'', henc, hoffer, frameA_length cmd hp, hload, hdec⟩
  case positions =>
    obtain rfl := reply_eq_frameA h19 hf
    have hp : (positionsPayload pairs).length ≤ 60 := by rw [positionsPayload_length]; omega
    obtain ⟨t, hload, hparams, hframe⟩ := exec_aRxload_frameA s.params.commands.getpos hp s
    rw [← hparams] at hframe
    obtain ⟨t', hdec⟩ := hframe.decodesPositions h1 h19
    exact ⟨t, t', hload, hdec⟩

end Sys2Proof.Claims
end

section
/-! The checksum operation, the receive loads and the typed encodes of unit B: what each frames of operands in range, and
which argument it names of operands out of range (R107, R142, R144 to R149, R152). -/

namespace Sys2Proof.Claims

open Sys2Proof.Machine

/-! ### Operations that end `OK` -/

/-- `OK` writes nothing but the answer. -/
theorem complete_keepsAll (r : Result) (s : State) :
    ∃ t, complete r s = .next t ∧ AnswersOk r t ∧ KeepsAll s t :=
  ⟨_, rfl, ⟨rfl, rfl, rfl, rfl⟩, ⟨⟨rfl, rfl, rfl, rfl⟩, keepsSpaces_refl s⟩, rfl⟩

/-- Settles O45. -/
theorem checksumOperation : Obligations.ChecksumOperation := by
  intro b s
  rw [← checksum_eq_checksumOf]
  exact complete_keepsAll _ s

/-! ### The receive loads -/

theorem exec_aRxload_fits {b : List Byte} (s : State) (h : b.length ≤ 64) :
    exec (.aRxload b) s = complete Result.unwritten (loadRxa b s) := by
  have hfits : ¬ Config.rxaMax < b.length := Nat.not_lt.2 h
  rw [exec, execARxload, if_neg hfits]

theorem exec_bRxload_fits {b : List Byte} (s : State) (h : b.length ≤ 258) :
    exec (.bRxload b) s = complete Result.unwritten (loadRxb b s) := by
  have hfits : ¬ Config.rxbMax < b.length := Nat.not_lt.2 h
  rw [exec, execBRxload, if_neg hfits]

theorem exec_bRxload_tooLong {b : List Byte} (s : State) (h : 258 < b.length) :
    exec (.bRxload b) s = raiseOutcome (badRequest .rxTooLong) s := by
  have hlong : Config.rxbMax < b.length := h
  rw [exec, execBRxload, if_pos hlong]

/-- Settles O28: a load that fits writes its own register, any other nothing but the answer. -/
theorem receiveLoadsFill : Obligations.ReceiveLoadsFill := by
  refine ⟨fun b s hb => ?unitA, fun b s hb => ?unitB, fun b s hb => ?tooLong⟩
  case unitA =>
    rw [exec_aRxload_fits s hb]
    refine ⟨_, rfl, ⟨rfl, rfl, rfl, rfl⟩, rfl, cellRead_cellsOf b, rfl, ?_⟩
    simp [KeepsRun, KeepsTxa, KeepsTxb, KeepsRxb, KeepsArm]
  case unitB =>
    rw [exec_bRxload_fits s hb]
    refine ⟨_, rfl, ⟨rfl, rfl, rfl, rfl⟩, rfl, cellRead_cellsOf b, rfl, ?_⟩
    simp [KeepsRun, KeepsTxa, KeepsTxb, KeepsRxa, KeepsArm]
  case tooLong =>
    rw [exec_bRxload_tooLong s hb]
    exact raiseOutcome_keepsAll _ s

/-! ### Limits in range -/

section
variable {s : State} (ho : s.outstanding = none)
include ho

theorem encodeAngleLimit_frames (id : Byte) {mn mx : Half} (hle : mn.toNat ≤ mx.toNat) (hmx : mx.toNat ≤ 1000) :
    ∃ t, encodeAngleLimit id mn mx s = .next t ∧ FramesB (code s .angleLimitWrite) id (twoHalves mn mx) false s t := by
  rw [encodeAngleLimit, validateAngleLimit_eq, if_neg (by omega), if_neg (by omega), if_neg (by omega),
    bytes16_append_eq_twoHalves]
  exact encodeB_frames _ id _ false ho

theorem encodeVinLimit_frames (id : Byte) {mn mx : Half} (hmn : 4500 ≤ mn.toNat ∧ mn.toNat ≤ 12000)
    (hmx : 4500 ≤ mx.toNat ∧ mx.toNat ≤ 12000) :
    ∃ t, encodeVinLimit id mn mx s = .next t ∧ FramesB (code s .vinLimitWrite) id (twoHalves mn mx) false s t := by
  rw [encodeVinLimit, validateVin_eq, if_neg (by omega), if_neg (by omega), bytes16_append_eq_twoHalves]
  exact encodeB_frames _ id _ false ho

theorem encodeTempLimit_frames (id : Byte) {t : Half} (h50 : 50 ≤ t.toNat) (h100 : t.toNat ≤ 100) :
    ∃ u, encodeTempLimit id t s = .next u ∧ FramesB (code s .tempMaxLimitWrite) id [lowByte t] false s u := by
  rw [encodeTempLimit, validateTemp_eq, if_neg (by omega)]
  exact encodeB_frames _ id _ false ho

end

/-- Settles O37: the selector and the command frame run the same encode. -/
theorem angleLimitFrames : Obligations.AngleLimitFrames := by
  rintro id mn mx s i (rfl | rfl) ho hle hmx
  · exact encodeAngleLimit_frames ho id hle hmx
  · exact encodeAngleLimit_frames ho id hle hmx

/-- Settles O38: the selector and the command frame run the same encode. -/
theorem vinLimitFrames : Obligations.VinLimitFrames := by
  rintro id mn mx s i (rfl | rfl) ho hmn0 hmn1 hmx0 hmx1
  · exact encodeVinLimit_frames ho id ⟨hmn0, hmn1⟩ ⟨hmx0, hmx1⟩
  · exact encodeVinLimit_frames ho id ⟨hmn0, hmn1⟩ ⟨hmx0, hmx1⟩

/-- Settles O39: the command frame is the encode of its byte as a `u16`. -/
theorem tempLimitFrames : Obligations.TempLimitFrames := by
  refine ⟨fun id c s ho h50 h100 => ?selector, fun id p0 s ho h50 h100 => ?frame⟩
  case selector =>
    rw [← lowByte_eq_lo8]
    exact encodeTempLimit_frames ho id h50 h100
  case frame =>
    rw [← zext16_toNat] at h50 h100
    have hframes := encodeTempLimit_frames ho id h50 h100
    rwa [lowByte_zext16] at hframes

/-! ### Arguments out of range -/

/-- A typed encode names the first argument its validation raises on, with the bound (R142, R221). -/
theorem encodeB_names {bad : Option Raise} {a : ArgName} {lo hi : Nat} (hbad : bad = some (outOfRange a lo hi))
    (cmd id : Byte) (p : List Byte) {s : State} (ho : s.outstanding = none) :
    ∃ t, encodeB bad cmd id p false s = .next t ∧
      AnswersOutOfRange (argCode a) (BitVec.ofNat 16 lo) (BitVec.ofNat 16 hi) t ∧ DropsTxb s t := by
  rw [hbad]
  exact encodeB_refuses _ cmd id p false ho

section
variable {s : State} (ho : s.outstanding = none)
include ho

theorem encodeMove_names (n : Config.CommandName) (id : Byte) (pos time : Half) :
    (1000 < pos.toNat →
      ∃ t, encodeMove n id pos time s = .next t ∧ AnswersOutOfRange 1#8 0#16 1000#16 t ∧ DropsTxb s t) ∧
    (pos.toNat ≤ 1000 → 30000 < time.toNat →
      ∃ t, encodeMove n id pos time s = .next t ∧ AnswersOutOfRange 2#8 0#16 30000#16 t ∧ DropsTxb s t) := by
  have hv := validateMove_eq pos time
  refine ⟨fun h0 => ?_, fun h0 h1 => ?_⟩
  · exact encodeB_names (hv.trans (if_pos h0)) _ id _ ho
  · exact encodeB_names (hv.trans ((if_neg (by omega)).trans (if_pos h1))) _ id _ ho

theorem encodeAngleLimit_names (id : Byte) (mn mx : Half) :
    (1000 < mn.toNat →
      ∃ t, encodeAngleLimit id mn mx s = .next t ∧ AnswersOutOfRange 3#8 0#16 1000#16 t ∧ DropsTxb s t) ∧
    (mn.toNat ≤ 1000 → 1000 < mx.toNat →
      ∃ t, encodeAngleLimit id mn mx s = .next t ∧ AnswersOutOfRange 4#8 0#16 1000#16 t ∧ DropsTxb s t) ∧
    (mn.toNat ≤ 1000 → mx.toNat < mn.toNat →
      ∃ t, encodeAngleLimit id mn mx s = .next t ∧ AnswersOutOfRange 3#8 0#16 mx t ∧ DropsTxb s t) := by
  have hv := validateAngleLimit_eq mn mx
  refine ⟨fun h0 => ?_, fun h0 h1 => ?_, fun h0 h1 => ?_⟩
  · exact encodeB_names (hv.trans (if_pos h0)) _ id _ ho
  · exact encodeB_names (hv.trans ((if_neg (by omega)).trans (if_pos h1))) _ id _ ho
  · have hnames := encodeB_names (hv.trans ((if_neg (by omega)).trans ((if_neg (by omega)).trans (if_pos h1))))
      (code s .angleLimitWrite) id (bytes16 mn ++ bytes16 mx) ho
    rwa [BitVec.ofNat_toNat, BitVec.setWidth_eq] at hnames

theorem encodeVinLimit_names (id : Byte) (mn mx : Half) :
    (mn.toNat < 4500 ∨ 12000 < mn.toNat →
      ∃ t, encodeVinLimit id mn mx s = .next t ∧ AnswersOutOfRange 5#8 4500#16 12000#16 t ∧ DropsTxb s t) ∧
    (4500 ≤ mn.toNat → mn.toNat ≤ 12000 → mx.toNat < 4500 ∨ 12000 < mx.toNat →
      ∃ t, encodeVinLimit id mn mx s = .next t ∧ AnswersOutOfRange 6#8 4500#16 12000#16 t ∧ DropsTxb s t) := by
  have hv := validateVin_eq mn mx
  refine ⟨fun h0 => ?_, fun h0 h1 h2 => ?_⟩
  · exact encodeB_names (hv.trans (if_pos h0)) _ id _ ho
  · exact encodeB_names (hv.trans ((if_neg (by omega)).trans (if_pos h2))) _ id _ ho

theorem encodeTempLimit_names (id : Byte) {t : Half} (h : t.toNat < 50 ∨ 100 < t.toNat) :
    ∃ u, encodeTempLimit id t s = .next u ∧ AnswersOutOfRange 7#8 50#16 100#16 u ∧ DropsTxb s u :=
  encodeB_names ((validateTemp_eq t).trans (if_pos h)) _ id _ ho

end

/-- Settles O40: each selector and its command frame run the same encode. -/
theorem outOfRangeParameterIsNamed : Obligations.OutOfRangeParameterIsNamed := by
  refine ⟨?move, ?angleLimit, ?vinLimit, fun id c s ho hc => encodeTempLimit_names ho id hc, fun id p0 s ho hp => ?temp⟩
  case move =>
    rintro id pos time s i (rfl | rfl | rfl | rfl) ho
    · exact encodeMove_names ho .moveTimeWrite id pos time
    · exact encodeMove_names ho .moveTimeWaitWrite id pos time
    · exact encodeMove_names ho .moveTimeWrite id pos time
    · exact encodeMove_names ho .moveTimeWaitWrite id pos time
  case angleLimit =>
    rintro id mn mx s i (rfl | rfl) ho
    · exact encodeAngleLimit_names ho id mn mx
    · exact encodeAngleLimit_names ho id mn mx
  case vinLimit =>
    rintro id mn mx s i (rfl | rfl) ho
    · exact encodeVinLimit_names ho id mn mx
    · exact encodeVinLimit_names ho id mn mx
  case temp =>
    exact encodeTempLimit_names ho id (by rwa [zext16_toNat])

end Sys2Proof.Claims
end

section
/-! What `B.DEC` answers for the bytes received, check by check in the order of R150, and the checksum laws and the round
trip that follow (R140, R150 to R154). -/

namespace Sys2Proof.Claims

open Sys2Proof.Machine

/-! ### The bytes received -/

section
variable {f : List Byte} {s : State} (h : RxbHolds f s)
include h

theorem RxbHolds.read {j : Nat} {v : Byte} (hj : f[j]? = some v) : need (cellRead s.rxb j) = .ok v := by
  obtain ⟨hlt, -⟩ := List.getElem?_eq_some_iff.1 hj
  exact need_eq_ok.2 ((h.2 j hlt).trans hj)

theorem RxbHolds.readSeq {a n : Nat} (hn : a + n ≤ f.length) :
    need (cellReadSeq s.rxb a n) = .ok ((f.drop a).take n) := by
  refine need_eq_ok.2 (cellReadSeq_eq_some.2 ⟨by simp; omega, fun j hj => ?_⟩)
  rw [h.2 (a + j) (by omega), List.getElem?_take_of_lt hj, List.getElem?_drop]

end

/-- A load of a unit B frame's length or less leaves exactly the bytes loaded (R149). -/
theorem rxbHolds_loadRxb {b : List Byte} (hb : b.length ≤ 258) (s : State) (code : Byte) (info : Info) (r : Result) :
    RxbHolds b (respond code info r (loadRxb b s)) :=
  ⟨countHalf_toNat (by omega), fun j _ => cellRead_cellsOf b j⟩

/-- A sequence long enough for a frame (R73), by its fields. -/
theorem exists_fields {f : List Byte} (h : 6 ≤ f.length) :
    ∃ b0 b1 id len cmd q chk, f = b0 :: b1 :: id :: len :: cmd :: (q ++ [chk]) := by
  match f, h with
  | b0 :: b1 :: id :: len :: cmd :: c :: cs, _ =>
    exact ⟨b0, b1, id, len, cmd, _, _, by rw [List.dropLast_append_getLast (List.cons_ne_nil c cs)]⟩

/-- The last byte is the checksum of those from offset 2 to it (R140). -/
def EndsInChecksum (f : List Byte) : Prop := f.getLast? = some (checksumOf (f.drop 2).dropLast)

theorem endsInChecksum_iff {b0 b1 chk : Byte} {body : List Byte} :
    EndsInChecksum (b0 :: b1 :: (body ++ [chk])) ↔ chk = checksumOf body := by
  have hlast : (b0 :: b1 :: (body ++ [chk])).getLast? = some chk :=
    List.getLast?_concat (l := b0 :: b1 :: body)
  simp [EndsInChecksum, hlast]

/-! ### The checks of `B.DEC` in order -/

section
variable {s : State} (ecmd eid : Byte)

theorem decBodyB_empty (h : RxbHolds [] s) : decBodyB ecmd eid s = reject .noResponse := if_pos h.1

theorem decBodyB_oneByte {b0 : Byte} (h : RxbHolds [b0] s) : decBodyB ecmd eid s = reject .invalidSignature := by
  have hn : s.rxbCount.toNat = 1 := h.1
  simp only [decBodyB]
  rw [if_neg (by omega), if_pos (by omega)]

/-- The first check behind the signature bytes is on them. -/
theorem decBodyB_badSignature {b0 b1 : Byte} {q : List Byte} (h : RxbHolds (b0 :: b1 :: q) s)
    (hs : b0 ≠ Config.sig ∨ b1 ≠ Config.sig) : decBodyB ecmd eid s = reject .invalidSignature := by
  have hn : s.rxbCount.toNat = q.length + 2 := h.1
  simp only [decBodyB]
  rw [if_neg (by omega), if_neg (by omega), bind_of_ok (h.read (j := 0) rfl), bind_of_ok (h.read (j := 1) rfl),
    if_pos hs]

theorem decBodyB_short {q : List Byte} (h : RxbHolds (Config.sig :: Config.sig :: q) s) (hq : q.length < 4) :
    decBodyB ecmd eid s = reject .invalidLength := by
  have hn : s.rxbCount.toNat = q.length + 2 := h.1
  simp only [decBodyB]
  rw [if_neg (by omega), if_neg (by omega), bind_of_ok (h.read (j := 0) rfl), bind_of_ok (h.read (j := 1) rfl),
    if_neg (by simp), if_pos (by omega)]

/-- The checks behind the signature and the shortest length: checksum, id, `LEN`, command (R150). -/
theorem decBodyB_fields {id len cmd chk : Byte} {q : List Byte}
    (h : RxbHolds (Config.sig :: Config.sig :: id :: len :: cmd :: (q ++ [chk])) s) :
    decBodyB ecmd eid s =
      if checksumOf (id :: len :: cmd :: q) ≠ chk then reject .checksumMismatch
      else if ecmd ≠ code s .idRead ∧ id ≠ eid then reject .invalidServoId
      else if len.toNat + 3 ≠ q.length + 6 then reject .invalidLength
      else if cmd ≠ ecmd then reject .invalidCommand
      else .ok { Result.unwritten with payload := cellsOf q, plen := some (countByte q.length), byte := some id } := by
  have hn : s.rxbCount.toNat = q.length + 6 := by simpa using h.1
  have hbody : need (cellReadSeq s.rxb 2 (q.length + 3)) = .ok (id :: len :: cmd :: q) :=
    (h.readSeq (by simp; omega)).trans (by simp)
  have hpayload : need (cellReadSeq s.rxb 5 q.length) = .ok q := (h.readSeq (by simp; omega)).trans (by simp)
  have hchk : need (cellRead s.rxb (q.length + 5)) = .ok chk := h.read (by simp)
  simp only [decBodyB, hn, Nat.reduceSubDiff, ← checksum_eq_checksumOf]
  rw [if_neg (by omega), if_neg (by omega), bind_of_ok (h.read (j := 0) rfl), bind_of_ok (h.read (j := 1) rfl),
    if_neg (by simp), if_neg (by omega), bind_of_ok hbody, bind_of_ok hchk, bind_of_ok (h.read (j := 2) rfl),
    bind_of_ok (h.read (j := 3) rfl), bind_of_ok (h.read (j := 4) rfl), bind_of_ok hpayload]
  rfl

end

/-! ### A whole frame of the expected command -/

theorem decBodyB_frame {cmd id eid : Byte} {p : List Byte} {s : State} (hp : p.length ≤ 252)
    (h : RxbHolds (frameBytesB cmd id p) s) (hid : id = eid ∨ cmd = code s .idRead) :
    decBodyB cmd eid s =
      .ok { Result.unwritten with payload := cellsOf p, plen := some (countByte p.length), byte := some id } := by
  have hlen : (BitVec.ofNat 8 (p.length + 3)).toNat + 3 = p.length + 6 :=
    congrArg (· + 3) (countByte_toNat (by omega))
  have hids : ¬ (cmd ≠ code s .idRead ∧ id ≠ eid) := by
    rintro ⟨hcmd, hne⟩
    exact hid.elim hne hcmd
  refine (decBodyB_fields (q := p) cmd eid h).trans ((if_neg (not_not_intro rfl)).trans ?_)
  rw [if_neg hids, if_neg (not_not_intro hlen), if_neg (not_not_intro rfl)]

/-- Settles O43: the frame passes every check. -/
theorem bDecReturnsPayload : Obligations.BDecReturnsPayload := by
  intro cmd sid eid p s hp h hid
  obtain ⟨t, hexec, hout, hkeep, hans⟩ := decode_returns (s := s) (decBodyB_frame hp h hid)
  obtain ⟨-, -, hresult, -⟩ := id hans
  have hres : t.result.payload = cellsOf p := congrArg Result.payload hresult
  refine ⟨t, hexec, hout, hkeep, hres ▸ hans, fun j => ?_⟩
  rw [hres, cellRead_cellsOf]

/-! ### Failures -/

section
variable {ecmd eid : Byte} {f : List Byte} {s : State}

theorem decBodyB_of_badSignature (h : RxbHolds f s) (hn : 2 ≤ f.length) (hs : f.take 2 ≠ [0x55#8, 0x55#8]) :
    decBodyB ecmd eid s = reject .invalidSignature := by
  match f, hn with
  | b0 :: b1 :: q, _ =>
    refine decBodyB_badSignature ecmd eid h (not_and_or.1 ?_)
    rintro ⟨rfl, rfl⟩
    exact hs rfl

theorem decBodyB_of_short (h : RxbHolds f s) (hn : 2 ≤ f.length) (h6 : f.length < 6)
    (hs : f.take 2 = [0x55#8, 0x55#8]) : decBodyB ecmd eid s = reject .invalidLength := by
  match f, hn with
  | b0 :: b1 :: q, _ =>
    cases hs
    exact decBodyB_short ecmd eid h (by simp only [List.length_cons] at h6; omega)

theorem decBodyB_of_badChecksum (h : RxbHolds f s) (h6 : 6 ≤ f.length) (hs : f.take 2 = [0x55#8, 0x55#8])
    (hc : ¬ EndsInChecksum f) : decBodyB ecmd eid s = reject .checksumMismatch := by
  obtain ⟨b0, b1, id, len, cmd, q, chk, rfl⟩ := exists_fields h6
  cases hs
  rw [decBodyB_fields ecmd eid h, if_pos]
  exact fun he => hc (endsInChecksum_iff (body := id :: len :: cmd :: q).2 he.symm)

/-- The checks of a reply that ends in its checksum. -/
theorem decBodyB_of_checksum (h : RxbHolds f s) (h6 : 6 ≤ f.length) (hs : f.take 2 = [0x55#8, 0x55#8])
    (hc : EndsInChecksum f) :
    ∃ r, decBodyB ecmd eid s =
      if ecmd ≠ code s .idRead ∧ f[2]? ≠ some eid then reject .invalidServoId
      else if (f[3]?).map (fun b => b.toNat + 3) ≠ some f.length then reject .invalidLength
      else if f[4]? ≠ some ecmd then reject .invalidCommand
      else .ok r := by
  obtain ⟨b0, b1, id, len, cmd, q, chk, rfl⟩ := exists_fields h6
  cases hs
  have hchk : chk = checksumOf (id :: len :: cmd :: q) := endsInChecksum_iff.1 hc
  refine ⟨{ Result.unwritten with payload := cellsOf q, plen := some (countByte q.length), byte := some id }, ?_⟩
  rw [decBodyB_fields ecmd eid h, if_neg (not_not_intro hchk.symm)]
  simp

end

/-- Settles O44: each clause stops at the check it names. -/
theorem bDecFailureOrder : Obligations.BDecFailureOrder := by
  rintro ecmd eid f s h code
    (⟨rfl, hn⟩ | ⟨rfl, hn⟩ | ⟨rfl, hn, hs⟩ | ⟨rfl, hn, h6, hs⟩ | ⟨rfl, h6, hs, hc⟩ | ⟨h6, hs, hc, hlate⟩)
  · rw [List.length_eq_zero_iff.1 hn] at h
    exact decode_raises (decBodyB_empty ecmd eid h)
  · obtain ⟨b0, rfl⟩ := List.length_eq_one_iff.1 hn
    exact decode_raises (decBodyB_oneByte ecmd eid h)
  · exact decode_raises (decBodyB_of_badSignature h hn hs)
  · exact decode_raises (decBodyB_of_short h hn h6 hs)
  · exact decode_raises (decBodyB_of_badChecksum h h6 hs hc)
  · obtain ⟨r, hbody⟩ := decBodyB_of_checksum (ecmd := ecmd) (eid := eid) h h6 hs hc
    rcases hlate with ⟨rfl, hid⟩ | ⟨hid, hlate⟩
    · exact decode_raises (hbody.trans (if_pos hid))
    · rw [if_neg fun ⟨hcmd, hne⟩ => hid.elim hcmd hne] at hbody
      rcases hlate with ⟨rfl, hlen⟩ | ⟨rfl, hlen, hcmd⟩
      · exact decode_raises (hbody.trans (if_pos hlen))
      · exact decode_raises (hbody.trans ((if_neg (not_not_intro hlen)).trans (if_pos hcmd)))

/-! ### The checksum laws -/

theorem frameBytesB_endsInChecksum (cmd id : Byte) (p : List Byte) : EndsInChecksum (frameBytesB cmd id p) :=
  endsInChecksum_iff.2 rfl

/-- A frame that a unit B encode leaves on offer is the one it framed (R31, R141). -/
theorem exec_encodeB_offers_frame {i : Instr} {s t : State} {f : List Byte} (hk : opKind i = .encodeB)
    (ho : s.outstanding = none) (h : exec i s = .next t) (hf : offeredB t = some f) :
    ∃ cmd id p, f = frameBytesB cmd id p := by
  obtain ⟨bad, cmd, id, p, reply, hi, hlen, -⟩ := exec_encodeB hk s.params
  rw [hi s rfl] at h
  rcases encodeB_cases bad cmd id p reply s with ⟨hn, -⟩ | ⟨-, r, -, he⟩ | ⟨-, hbad, he⟩
  · exact absurd ho hn
  · rw [he] at h; cases h
    cases hf
  · have hp := hlen hbad
    subst hbad
    have hoffer := encodeB_offers ho (fun _ h => by cases h) (by rw [he] at h; cases h; rfl) hp h
    cases hf.symm.trans hoffer
    exact ⟨cmd, id, p, frameB_eq_frameBytesB cmd id p⟩

theorem sumOf_cons (b : Byte) (bs : List Byte) : sumOf (b :: bs) = b.toNat + sumOf bs := by simp [sumOf]

theorem sumOf_set {bs : List Byte} {j : Nat} (hj : j < bs.length) (b : Byte) :
    sumOf (bs.set j b) + bs[j].toNat = sumOf bs + b.toNat := by
  induction bs generalizing j with
  | nil => cases hj
  | cons c bs ih =>
    cases j with
    | zero => rw [List.set_cons_zero, List.getElem_cons_zero, sumOf_cons, sumOf_cons]; omega
    | succ j =>
      have hrest := ih (Nat.lt_of_succ_lt_succ hj)
      rw [List.set_cons_succ, List.getElem_cons_succ, sumOf_cons, sumOf_cons]
      omega

/-- One changed byte changes the checksum, since it changes the sum by less than 256 (R140). -/
theorem checksumOf_set_ne {bs : List Byte} {j : Nat} (hj : j < bs.length) {b : Byte} (hb : bs[j] ≠ b) :
    checksumOf (bs.set j b) ≠ checksumOf bs := by
  intro he
  have hsum := sumOf_set hj b
  have hmod := congrArg BitVec.toNat he
  rw [← checksum_eq_checksumOf, ← checksum_eq_checksumOf, checksum_toNat, checksum_toNat, byteSum_eq_sumOf,
    byteSum_eq_sumOf] at hmod
  have hold := bs[j].isLt
  have hnew := b.isLt
  exact hb (BitVec.eq_of_toNat_eq (by omega))

/-- A change of one byte from offset 2 on breaks the checksum: of the bytes it covers, or of itself. -/
theorem not_endsInChecksum_set {b0 b1 chk b : Byte} {body : List Byte} (hc : chk = checksumOf body) {j : Nat}
    (hj : j < (body ++ [chk]).length) (hb : (body ++ [chk])[j]? ≠ some b) :
    ¬ EndsInChecksum ((b0 :: b1 :: (body ++ [chk])).set (j + 2) b) := by
  rw [List.set_cons_succ, List.set_cons_succ, List.set_append]
  by_cases hin : j < body.length
  · rw [if_pos hin, endsInChecksum_iff, hc]
    rw [List.getElem?_append_left hin, List.getElem?_eq_getElem hin] at hb
    exact fun he => checksumOf_set_ne hin (fun h => hb (congrArg some h)) he.symm
  · have hlast : j = body.length := by
      rw [List.length_append, List.length_singleton] at hj
      omega
    subst hlast
    rw [if_neg hin, Nat.sub_self, List.set_cons_zero, endsInChecksum_iff]
    rw [List.getElem?_concat_length] at hb
    exact fun he => hb (congrArg some (hc.trans he.symm))

theorem frameBytesB_length (cmd id : Byte) (p : List Byte) : (frameBytesB cmd id p).length = p.length + 6 := by
  rw [← frameB_eq_frameBytesB, frameB_length]

/-- Settles O46. -/
theorem mutatedFrameFailsChecksum : Obligations.MutatedFrameFailsChecksum := by
  refine ⟨fun i s t f hk ho h hf => ?offered, fun cmd id ecmd eid b p j s hp h2 hj hb => ?mutated⟩
  case offered =>
    obtain ⟨cmd, id, p, rfl⟩ := exec_encodeB_offers_frame hk ho h hf
    exact frameBytesB_endsInChecksum cmd id p
  case mutated =>
    obtain ⟨k, rfl⟩ := Nat.exists_eq_add_of_le' h2
    have hlen := frameBytesB_length cmd id p
    have hlen' : ((frameBytesB cmd id p).set (k + 2) b).length = p.length + 6 := by rw [List.length_set, hlen]
    have hbad : ¬ EndsInChecksum ((frameBytesB cmd id p).set (k + 2) b) := by
      refine not_endsInChecksum_set (body := [id, BitVec.ofNat 8 (p.length + 3), cmd] ++ p) rfl ?_ hb
      simp
      omega
    have hload := exec_bRxload_fits (b := (frameBytesB cmd id p).set (k + 2) b) s (by omega)
    obtain ⟨t', hdec, -, -, hans⟩ := decode_raises (decBodyB_of_badChecksum (ecmd := ecmd) (eid := eid)
      (rxbHolds_loadRxb (by omega) s _ _ _) (by omega) rfl hbad)
    exact ⟨_, t', hload, hdec, hans⟩

/-! ### The round trip -/

/-- Settles O47: the frame on offer is loaded whole, and the servo it was framed for is the one expected. -/
theorem unitBRoundTrip : Obligations.UnitBRoundTrip := by
  intro cmd id p s ho hp hb
  have henc : ∃ t, exec (.bEnc cmd id false p) s = .next t ∧ offeredB t = some (frameBytesB cmd id p) := by
    rw [exec, execBEnc, encodeCommandB, checkCommandB_none hp hb, ← frameB_eq_frameBytesB]
    obtain ⟨t, he, ⟨hstatus, -⟩, -⟩ :=
      encodeB_frames cmd id p (expectsReplyB s.params.commands cmd false) ho
    exact ⟨t, he, encodeB_offers ho (fun _ h => by cases h) hstatus hp he⟩
  obtain ⟨t, hexec, hoffer⟩ := henc
  have hlen : (frameBytesB cmd id p).length ≤ 258 := by rw [frameBytesB_length]; omega
  obtain ⟨t'', hdec, -, -, ⟨hstatus, -, hres, -⟩, hread⟩ :=
    bDecReturnsPayload cmd id id p _ hp (rxbHolds_loadRxb hlen t _ _ _) (.inl rfl)
  exact ⟨_, t, _, t'', hexec, hoffer, exec_bRxload_fits t hlen, hdec, hstatus, congrArg Result.byte hres,
    congrArg Result.plen hres, hread⟩

end Sys2Proof.Claims
end

section
/-! No unit B frame on offer carries a value that `ParameterOutOfRange` refuses: an encode frames only what its validation
passes, and nothing else writes `TXB` (R142, R155). -/

namespace Sys2Proof.Claims

open Sys2Proof.Machine

/-! ### Payloads that pass a validation -/

/-- A check in front of the others passes with them. -/
theorem check_eq_none {c : Prop} [Decidable c] {r : Raise} {rest : Option Raise} :
    (if c then some r else rest) = none ↔ ¬ c ∧ rest = none := by
  by_cases hc : c <;> simp [hc]

theorem validateMove_eq_none {pos time : Half} :
    validateMove pos time = none ↔ pos.toNat ≤ 1000 ∧ time.toNat ≤ 30000 := by
  simp only [validateMove_eq, check_eq_none, and_true]
  omega

theorem validateAngleLimit_eq_none {mn mx : Half} :
    validateAngleLimit mn mx = none ↔ mn.toNat ≤ mx.toNat ∧ mx.toNat ≤ 1000 := by
  simp only [validateAngleLimit_eq, check_eq_none, and_true]
  omega

theorem validateVin_eq_none {mn mx : Half} :
    validateVin mn mx = none ↔
      (4500 ≤ mn.toNat ∧ mn.toNat ≤ 12000) ∧ 4500 ≤ mx.toNat ∧ mx.toNat ≤ 12000 := by
  simp only [validateVin_eq, check_eq_none, and_true]
  omega

theorem validateTemp_eq_none {t : Half} : validateTemp t = none ↔ 50 ≤ t.toNat ∧ t.toNat ≤ 100 := by
  simp only [validateTemp_eq, check_eq_none, and_true]
  omega

theorem exists_four_of_length {p : List Byte} (h : 4 ≤ p.length) :
    ∃ p0 p1 p2 p3 q, p = p0 :: p1 :: p2 :: p3 :: q := by
  match p, h with
  | p0 :: p1 :: p2 :: p3 :: q, _ => exact ⟨p0, p1, p2, p3, q, rfl⟩

/-- A payload that holds all the bytes its bounds are about and passes the validation is within the bounds. -/
theorem withinBounds_of_validatePayload {b : Config.Bounds} {p : List Byte} (hw : boundsWidth b ≤ p.length)
    (h : validatePayload b p = none) : WithinBounds b p := by
  cases b with
  | unbounded => trivial
  | move =>
    obtain ⟨p0, p1, p2, p3, q, rfl⟩ := exists_four_of_length hw
    obtain ⟨hpos, htime⟩ := validateMove_eq_none.1 h
    rw [← leNat_eq_le16_toNat] at hpos htime
    exact ⟨p0, p1, p2, p3, q, rfl, hpos, htime⟩
  | angleLimit =>
    obtain ⟨p0, p1, p2, p3, q, rfl⟩ := exists_four_of_length hw
    obtain ⟨hle, hmx⟩ := validateAngleLimit_eq_none.1 h
    rw [← leNat_eq_le16_toNat, ← leNat_eq_le16_toNat] at hle
    rw [← leNat_eq_le16_toNat] at hmx
    exact ⟨p0, p1, p2, p3, q, rfl, hle, hmx⟩
  | vin =>
    obtain ⟨p0, p1, p2, p3, q, rfl⟩ := exists_four_of_length hw
    obtain ⟨⟨hmn0, hmn1⟩, hmx0, hmx1⟩ := validateVin_eq_none.1 h
    rw [← leNat_eq_le16_toNat] at hmn0 hmn1 hmx0 hmx1
    exact ⟨p0, p1, p2, p3, q, rfl, hmn0, hmn1, hmx0, hmx1⟩
  | temp =>
    obtain ⟨p0, q, rfl⟩ := List.exists_cons_of_length_pos hw
    obtain ⟨h50, h100⟩ := validateTemp_eq_none.1 h
    rw [zext16_toNat] at h50 h100
    exact ⟨p0, q, rfl, h50, h100⟩

/-- A byte that was cut from a value in range is the value (R148). -/
theorem zext16_lowByte {t : Half} (h : t.toNat ≤ 255) : zext16 (lowByte t) = t := by
  apply BitVec.eq_of_toNat_eq
  rw [zext16_toNat, lowByte_toNat]
  omega

/-! ### What an encode lets through its command may carry -/

/-- `B.ENC` frames only payloads its command may carry: the row found for the code is the only one with it, and its length
covers its bounds (R143; log entry 15). -/
theorem payloadInBounds_of_checkCommandB {c : Config.Commands} (hc : commandsOk c = true) {cmd : Byte} {p : List Byte}
    (h : checkCommandB c cmd p = none) : PayloadInBounds c cmd p := by
  rintro r hr rfl hb
  have hlen : p.length ≤ 252 := checkCommandB_none_length h
  have hpreq : p.length = r.preq := by
    by_contra hne
    rw [checkCommandB_wrong_length hc hr hb hlen hne] at h
    cases h
  rw [checkCommandB_bounded hc hr hb hpreq (hpreq ▸ hlen)] at h
  obtain ⟨-, -, -, hwidth⟩ := commandsOk_iff.1 hc
  exact ⟨hpreq, withinBounds_of_validatePayload ((hwidth r hr).trans_eq hpreq.symm) h⟩

/-- The payload of a typed encode is one its command may carry, where it passes the validation that R79 gives the command
(D18). -/
theorem payloadInBounds_of_typed {c : Config.Commands} (ht : typedRowsOk c = true) {n : Config.CommandName}
    (hn : n ∈ typedCommands) {p : List Byte} (hl : p.length = (commandRow n).preq)
    (hv : validatePayload (commandRow n).bounds p = none) : PayloadInBounds c (codeOf c n) p := by
  have hrows : ∀ r ∈ commandTable c, r.code = codeOf c n →
      r.bounds = (commandRow n).bounds ∧ r.preq = (commandRow n).preq := by
    simp only [typedRowsOk, List.all_eq_true, decide_eq_true_eq] at ht
    exact ht n hn
  have hwidth : boundsWidth (commandRow n).bounds ≤ p.length := by
    rw [hl]
    cases n <;> decide
  intro r hr hcode _
  obtain ⟨hbounds, hpreq⟩ := hrows r hr hcode
  rw [hbounds, hpreq]
  exact ⟨hl, withinBounds_of_validatePayload hwidth hv⟩

/-! ### Each unit B encode -/

/-- The operation is a unit B encode that frames only a payload its command may carry. -/
def EncodesInBounds (s : State) (f : State → Answer) : Prop :=
  ∃ bad cmd id p reply, f s = encodeB bad cmd id p reply s ∧
    (bad = none → p.length ≤ 252 ∧ PayloadInBounds s.params.commands cmd p)

theorem encodesInBounds_command {s : State} (hc : commandsOk s.params.commands = true) (cmd id : Byte) (resp : Bool)
    (p : List Byte) : EncodesInBounds s (encodeCommandB cmd id resp p) :=
  ⟨_, cmd, id, p, _, rfl, fun h => ⟨checkCommandB_none_length h, payloadInBounds_of_checkCommandB hc h⟩⟩

section
variable {s : State} (ht : typedRowsOk s.params.commands = true)
include ht

theorem encodesInBounds_typed {n : Config.CommandName} (hn : n ∈ typedCommands) {bad : Option Raise} (id : Byte)
    {p : List Byte} {f : State → Answer} (hf : f s = encodeB bad (codeOf s.params.commands n) id p false s)
    (hl : p.length = (commandRow n).preq) (hv : bad = none → validatePayload (commandRow n).bounds p = none) :
    EncodesInBounds s f := by
  refine ⟨bad, _, id, p, false, hf, fun h => ⟨?_, payloadInBounds_of_typed ht hn hl (hv h)⟩⟩
  rw [hl]
  cases n <;> decide

theorem encodesInBounds_move {n : Config.CommandName} (hn : n = .moveTimeWrite ∨ n = .moveTimeWaitWrite) (id : Byte)
    (pos time : Half) : EncodesInBounds s (encodeMove n id pos time) := by
  rcases hn with rfl | rfl
  all_goals
    exact encodesInBounds_typed ht (by decide) id rfl rfl (by simp [commandRow, bytes16, validatePayload])

theorem encodesInBounds_angleLimit (id : Byte) (mn mx : Half) : EncodesInBounds s (encodeAngleLimit id mn mx) :=
  encodesInBounds_typed ht (n := .angleLimitWrite) (by decide) id rfl rfl
    (by simp [commandRow, bytes16, validatePayload])

theorem encodesInBounds_vinLimit (id : Byte) (mn mx : Half) : EncodesInBounds s (encodeVinLimit id mn mx) :=
  encodesInBounds_typed ht (n := .vinLimitWrite) (by decide) id rfl rfl
    (by simp [commandRow, bytes16, validatePayload])

/-- The value is validated before it is cut, so the byte framed is the value (R148). -/
theorem encodesInBounds_tempLimit (id : Byte) (t : Half) : EncodesInBounds s (encodeTempLimit id t) := by
  refine encodesInBounds_typed ht (n := .tempMaxLimitWrite) (by decide) id rfl rfl fun h => ?_
  obtain ⟨-, h100⟩ := validateTemp_eq_none.1 h
  simpa [commandRow, validatePayload, zext16_lowByte (h100.trans (by decide))] using h

theorem exec_encodesInBounds (hc : commandsOk s.params.commands = true) {i : Instr} (hk : opKind i = .encodeB) :
    EncodesInBounds s (exec i) := by
  cases i with
  | bEnc cmd id resp p => exact encodesInBounds_command hc cmd id resp p
  | bMove id pos time | moveTimeWrite id pos time => exact encodesInBounds_move ht (.inl rfl) id pos time
  | bMovew id pos time | moveTimeWaitWrite id pos time => exact encodesInBounds_move ht (.inr rfl) id pos time
  | bAnglim id mn mx | angleLimitWrite id mn mx => exact encodesInBounds_angleLimit ht id mn mx
  | bVinlim id mn mx | vinLimitWrite id mn mx => exact encodesInBounds_vinLimit ht id mn mx
  | bTemplim id t => exact encodesInBounds_tempLimit ht id t
  | tempMaxLimitWrite id p0 => exact encodesInBounds_tempLimit ht id (zext16 p0)
  | moveTimeRead | moveTimeWaitRead | moveStart | moveStop | idRead | angleOffsetWrite | angleOffsetRead
  | angleLimitRead | vinLimitRead | tempMaxLimitRead | tempRead | vinRead | posRead | orMotorModeRead
  | loadOrUnloadRead | ledCtrlRead | ledErrorRead | idWrite | angleOffsetAdjust | loadOrUnloadWrite | ledCtrlWrite
  | ledErrorWrite | orMotorModeWrite => exact encodesInBounds_command hc _ _ false _
  | _ => cases hk

end

/-! ### The frame on offer along a step -/

theorem cellReadSeq_congr {α : Type} {m m' : Cells α} (h : ∀ a, cellRead m a = cellRead m' a) (a n : Nat) :
    cellReadSeq m a n = cellReadSeq m' a n := by
  induction n generalizing a with
  | zero => rfl
  | succ n ih => rw [cellReadSeq, cellReadSeq, h, ih]

theorem offeredB_of_keepsTxb {s t : State} (h : KeepsTxb s t) : offeredB t = offeredB s := by
  obtain ⟨hvalid, hlen, hcells⟩ := h
  rw [offeredB, offeredB, hvalid, hlen, cellReadSeq_congr hcells]

theorem offersInBounds_of_keepsTxb {s t : State} (hs : OffersInBounds s) (hp : t.params = s.params)
    (h : KeepsTxb s t) : OffersInBounds t := by
  intro f hf
  rw [hp]
  exact hs f ((offeredB_of_keepsTxb h).symm.trans hf)

theorem offersInBounds_of_none {t : State} (h : offeredB t = none) : OffersInBounds t := by
  intro f hf
  cases h.symm.trans hf

/-- A unit B encode that takes no fault and does not end `OK` has dropped the frame on offer (R31). -/
theorem encodeB_offers_none {bad : Option Raise} {cmd id : Byte} {p : List Byte} {reply : Bool} {s t : State}
    (ho : s.outstanding = none) (h : encodeB bad cmd id p reply s = .next t) (hbad : t.status ≠ 0x00#8) :
    offeredB t = none := by
  rcases encodeB_cases bad cmd id p reply s with ⟨hn, -⟩ | ⟨-, r, -, he⟩ | ⟨-, -, he⟩
  · exact absurd ho hn
  · rw [he] at h; cases h
    rfl
  · rw [he] at h; cases h
    exact absurd rfl hbad

theorem encodeB_keeps_offersInBounds {f : State → Answer} {s t : State} (hs : OffersInBounds s)
    (hf : EncodesInBounds s f) (h : f s = .next t) : OffersInBounds t := by
  obtain ⟨bad, cmd, id, p, reply, he, hp⟩ := hf
  rw [he] at h
  rcases encodeB_cases bad cmd id p reply s with ⟨-, hc⟩ | ⟨-, r, -, hc⟩ | ⟨ho, rfl, hc⟩
  · rw [hc] at h; cases h
    exact hs
  · rw [hc] at h; cases h
    exact offersInBounds_of_none rfl
  · obtain ⟨hlen, hbounds⟩ := hp rfl
    have hoffer := encodeB_offers ho (fun _ h => by cases h) (by rw [hc] at h; cases h; rfl) hlen h
    rw [hc] at h; cases h
    intro g hg
    cases hoffer.symm.trans hg
    exact ⟨cmd, id, p, frameB_eq_frameBytesB cmd id p, hlen, hbounds⟩

theorem exec_keeps_offersInBounds {i : Instr} {s t : State} (hc : commandsOk s.params.commands = true)
    (ht : typedRowsOk s.params.commands = true) (hs : OffersInBounds s) (h : exec i s = .next t) : OffersInBounds t := by
  by_cases hk : opKind i = .encodeB
  · exact encodeB_keeps_offersInBounds hs (exec_encodesInBounds ht hc hk) h
  · obtain ⟨-, -, htxb, -⟩ := spacesWrittenOnlyByTheirOperations i s t h
    obtain ⟨u, hu, -, -, hparams⟩ := everyOperationAnswers i s
    cases hu.symm.trans h
    exact offersInBounds_of_keepsTxb hs hparams (htxb hk)

/-- Settles O41: only a unit B encode writes `TXB`, and it frames only what its validation passes. -/
theorem noOutOfRangeValueIsOffered : Obligations.NoOutOfRangeValueIsOffered := by
  refine ⟨fun s t hc ht hs hstep => ?step, fun i s t hk ho h hbad => ?failed⟩
  case step =>
    rcases step_next_cases hstep with rfl | ⟨r, rs, -, rfl | ⟨i, -, he⟩⟩
    · exact hs
    · exact hs
    · exact exec_keeps_offersInBounds (s := withRequests rs s) hc ht hs he
  case failed =>
    obtain ⟨bad, cmd, id, p, reply, hi, -⟩ := exec_encodeB hk s.params
    exact encodeB_offers_none ho ((hi s rfl).symm.trans h) hbad

end Sys2Proof.Claims
end

section
/-! What the unit M operations answer, by the checks of each rule in order: the values of their formulas, and their
refusals (R181 to R188, R222, R225). -/

namespace Sys2Proof.Claims

open Sys2Proof.Machine

/-! ### How a unit M operation ends -/

/-- A unit M body that returns writes nothing but the answer. -/
theorem mapper_returns {body : Except Stop Result} {r : Result} (h : body = .ok r) (s : State) :
    ∃ t, finish id body s = .next t ∧ KeepsAll s t ∧ AnswersOk r t := by
  obtain ⟨t, ht, hanswer, hkeeps⟩ := complete_keepsAll r s
  exact ⟨t, by rw [h]; exact ht, hkeeps, hanswer⟩

/-- A unit M body that raises `BadRequest` writes nothing but the answer. -/
theorem mapper_refuses {body : Except Stop Result} {x : Reason} (h : body = .error (.raise (badRequest x)))
    (s : State) :
    ∃ t, finish id body s = .next t ∧ AnswersBadRequest (reasonCode x) t ∧ KeepsAll s t := by
  rw [h]
  exact raiseOutcome_keepsAll (badRequest x) s

/-! ### The angle operations -/

theorem servoDefinitionOk_iff {mn mx : F64} : servoDefinitionOk mn mx = true ↔ ValidDefinition mn mx := by
  simp [servoDefinitionOk, ValidDefinition, and_assoc]

section
variable {mn mx : F64}

theorem a2rBody_invalid (m : Config.Midpoint) (angle : F64) (h : ¬ ValidDefinition mn mx) :
    a2rBody m angle mn mx = .error (.raise (badRequest .invalidServoDefinition)) :=
  if_pos (by simpa [← servoDefinitionOk_iff] using h)

theorem a2rBody_nan (m : Config.Midpoint) {angle : F64} (h : ValidDefinition mn mx) (ha : f64IsNaN angle = true) :
    a2rBody m angle mn mx = .error (.raise (badRequest .nonFinite)) := by
  rw [a2rBody, if_neg (by simp [servoDefinitionOk_iff.2 h]), if_pos ha]

theorem a2rBody_valid (m : Config.Midpoint) {angle : F64} (h : ValidDefinition mn mx) (ha : f64IsNaN angle = false) :
    a2rBody m angle mn mx = .ok { noResult with int := some (a2rValue m angle mn mx) } := by
  rw [a2rBody, if_neg (by simp [servoDefinitionOk_iff.2 h]), if_neg (by simp [ha])]
  rfl

theorem r2aBody_invalid (raw : Word) (h : ¬ ValidDefinition mn mx) :
    r2aBody raw mn mx = .error (.raise (badRequest .invalidServoDefinition)) :=
  if_pos (by simpa [← servoDefinitionOk_iff] using h)

theorem r2aBody_valid (raw : Word) (h : ValidDefinition mn mx) :
    r2aBody raw mn mx = .ok { noResult with f64 := some (r2aValue raw mn mx) } :=
  if_neg (by simp [servoDefinitionOk_iff.2 h])

end

theorem rawClamp_eq (raw : Word) : rawClamp raw = max 0 (min 1000 raw.toInt) := by
  unfold rawClamp
  split
  · omega
  split <;> omega

/-- Settles O48: where `v` is finite the model's value is its rounding. -/
theorem a2rRoundsTheQuotient : Obligations.A2rRoundsTheQuotient := by
  intro angle mn mx v s hvalid ha hv hfin
  have hquotient : v = a2rQuotient angle mn mx := hv
  have hvalue : a2rValue s.params.numeric.midpoint angle mn mx =
      BitVec.ofInt 32 (f64Round s.params.numeric.midpoint v) := by
    rw [a2rValue, ← hquotient, if_pos hfin]
  rw [← hvalue]
  exact mapper_returns (a2rBody_valid _ hvalid ha) s

/-- Settles O51: the two clamps of the raw value agree. -/
theorem r2aFollowsTheFormula : Obligations.R2aFollowsTheFormula := by
  rintro raw mn mx rc s hvalid rfl
  rw [← rawClamp_eq]
  exact mapper_returns (r2aBody_valid raw hvalid) s

/-! ### The height table and the bearing -/

theorem pzBody_outOfRange {i : Byte} (s : State) (h : 127 < i.toNat) :
    pzBody i s = .error (.raise (badRequest .indexOutOfRange)) := if_pos h

theorem pzBody_unarmed {i : Byte} {s : State} (hi : i.toNat ≤ 127) (hv : s.armValid = false) :
    pzBody i s = .error (.raise (badRequest .tableNotBuilt)) := by
  rw [pzBody, if_neg (by omega), if_pos (by simp [hv])]

theorem pzBody_written {i : Byte} {h : F64} {s : State} (hi : i.toNat ≤ 127) (hv : s.armValid = true)
    (hcell : cellRead s.pz i.toNat = some h) : pzBody i s = .ok { noResult with f64 := some h } := by
  rw [pzBody, if_neg (by omega), if_neg (by simp [hv]), hcell]
  rfl

theorem z2iBody_nan {z : F64} (s : State) (hz : f64IsNaN z = true) :
    z2iBody z s = .error (.raise (badRequest .nonFinite)) := if_pos hz

theorem z2iBody_unarmed {z : F64} {s : State} (hz : f64IsNaN z = false) (hv : s.armValid = false) :
    z2iBody z s = .error (.raise (badRequest .tableNotBuilt)) := by
  rw [z2iBody, if_neg (by simp [hz]), if_pos (by simp [hv])]

theorem i2rBody_outOfRange (m : Config.Midpoint) {i : Byte} (h : 127 < i.toNat) :
    i2rBody m i = .error (.raise (badRequest .indexOutOfRange)) := if_pos h

theorem tetaBody_notFinite (n : Config.Numeric) {x y : F64} (h : f64Finite x = false ∨ f64Finite y = false) :
    tetaBody n x y = .error (.raise (badRequest .nonFinite)) :=
  if_pos (by rcases h with h | h <;> simp [h])

theorem f64Finite_of_isZero {x : F64} (h : f64IsZero x = true) : f64Finite x = true :=
  (f64Finite_iff_lt x).2 (by rw [(f64IsZero_iff x).1 h]; decide)

theorem tetaBody_origin (n : Config.Numeric) {x y : F64} (hx : f64IsZero x = true) (hy : f64IsZero y = true) :
    tetaBody n x y = .error (.raise (badRequest .degenerateBearing)) := by
  rw [tetaBody, if_neg (by simp [f64Finite_of_isZero hx, f64Finite_of_isZero hy]), if_pos (by simp [hx, hy])]

theorem tetaBody_valid (n : Config.Numeric) {x y : F64} (hx : f64Finite x = true) (hy : f64Finite y = true)
    (h0 : ¬ (f64IsZero x = true ∧ f64IsZero y = true)) :
    tetaBody n x y = .ok { noResult with f64 := some (tetaValue n x y) } := by
  rw [tetaBody, if_neg (by simp [hx, hy]), if_neg (by simpa using h0)]
  rfl

/-- Settles O54. -/
theorem pzReadsTheEntry : Obligations.PzReadsTheEntry := by
  intro i h s hi hv hcell
  obtain ⟨t, ht, hkeeps, hanswer⟩ := mapper_returns (pzBody_written hi hv hcell) s
  exact ⟨t, ht, hanswer, hkeeps⟩

/-! ### The refusals of `M.LOADARM` -/

theorem exec_mLoadarm_refuses {l1 l2 l3 l4 : F64} {x : Reason} {s : State}
    (h : loadarmRefusal s.params.numeric l1 l2 l3 l4 s.armValid = some x) :
    ∃ t, exec (.mLoadarm l1 l2 l3 l4) s = .next t ∧ AnswersBadRequest (reasonCode x) t ∧ KeepsAll s t := by
  rw [exec_mLoadarm_eq, h]
  exact raiseOutcome_keepsAll (badRequest x) s

section
variable {l1 l2 l3 l4 : F64} (n : Config.Numeric)

theorem lengthsOk_iff :
    (lengthOk l1 && lengthOk l2 && lengthOk l3 && lengthOk l4) = true ↔ ValidLengths l1 l2 l3 l4 := by
  simp [ValidLengths, lengthOk, and_assoc]

theorem loadarmRefusal_lengths (armed : Bool) (hl : ¬ ValidLengths l1 l2 l3 l4) :
    loadarmRefusal n l1 l2 l3 l4 armed = some .invalidArmModel :=
  if_pos (by rw [Bool.not_eq_true', ← Bool.not_eq_true, lengthsOk_iff]; exact hl)

theorem loadarmRefusal_locked (hl : ValidLengths l1 l2 l3 l4) :
    loadarmRefusal n l1 l2 l3 l4 true = some .armModelLocked := by
  rw [loadarmRefusal, if_neg (by simp [lengthOk_of_valid hl]), if_pos rfl]

/-- One entry that is not finite is enough (R183). -/
theorem loadarmRefusal_entry {i : Nat} (hl : ValidLengths l1 l2 l3 l4) (hi : i < 128)
    (he : f64Finite (heightEntry n l1 l2 l3 l4 i) = false) :
    loadarmRefusal n l1 l2 l3 l4 false = some .invalidArmModel := by
  have hmem : heightEntry n l1 l2 l3 l4 i ∈ heightTable n l1 l2 l3 l4 :=
    List.mem_of_getElem? ((heightTable_getElem? n l1 l2 l3 l4 i).trans (if_pos hi))
  have htable : (heightTable n l1 l2 l3 l4).all f64Finite = false :=
    List.all_eq_false.2 ⟨_, hmem, by simp [he]⟩
  rw [loadarmRefusal, if_neg (by simp [lengthOk_of_valid hl]), if_neg (by simp), if_pos (by simp [htable])]

end

/-- Settles O53: each operation stops at the first check of its rule that fails. -/
theorem mapperRefusals : Obligations.MapperRefusals := by
  refine ⟨?a2r, ?a2rNan, ?r2a, ?lengths, ?locked, ?entry, ?pz, ?pzUnarmed, ?z2iNan, ?z2iUnarmed, ?i2r, ?teta,
    ?origin⟩
  case a2r => exact fun angle mn mx s h => mapper_refuses (a2rBody_invalid _ angle h) s
  case a2rNan => exact fun angle mn mx s h ha => mapper_refuses (a2rBody_nan _ h ha) s
  case r2a => exact fun raw mn mx s h => mapper_refuses (r2aBody_invalid raw h) s
  case lengths => exact fun l1 l2 l3 l4 s hl => exec_mLoadarm_refuses (loadarmRefusal_lengths _ s.armValid hl)
  case locked =>
    intro l1 l2 l3 l4 s hl hv
    exact exec_mLoadarm_refuses (hv ▸ loadarmRefusal_locked _ hl)
  case entry =>
    intro l1 l2 l3 l4 e i s hl hv he hi hfin
    rw [← heightEntry_of_isHeightTable he] at hfin
    exact exec_mLoadarm_refuses (hv ▸ loadarmRefusal_entry _ hl hi hfin)
  case pz => exact fun i s hi => mapper_refuses (pzBody_outOfRange s hi) s
  case pzUnarmed => exact fun i s hi hv => mapper_refuses (pzBody_unarmed hi hv) s
  case z2iNan => exact fun z s hz => mapper_refuses (z2iBody_nan s hz) s
  case z2iUnarmed => exact fun z s hz hv => mapper_refuses (z2iBody_unarmed hz hv) s
  case i2r => exact fun i s hi => mapper_refuses (i2rBody_outOfRange _ hi) s
  case teta => exact fun x y s h => mapper_refuses (tetaBody_notFinite _ h) s
  case origin => exact fun x y s hx hy => mapper_refuses (tetaBody_origin _ hx hy) s

end Sys2Proof.Claims
end

section
/-! `M.Z2I` answers the first index whose entry is at least the height, and the inversion laws that follow (R185,
R191). -/

namespace Sys2Proof.Claims

open Sys2Proof.Machine

/-- `k` is the first of the 128 entries that reaches `z`, or 127 where none does (R185). -/
def FirstIndex (h : Nat → F64) (z : F64) (k : Nat) : Prop :=
  k ≤ 127 ∧ (∀ j, j < k → f64Le z (h j) = false) ∧ (f64Le z (h k) = true ∨ k = 127)

/-- No index before an entry that reaches `z` is missed. -/
theorem FirstIndex.le {h : Nat → F64} {z : F64} {k j : Nat} (hk : FirstIndex h z k) (hj : f64Le z (h j) = true) :
    k ≤ j := by
  obtain ⟨-, hbefore, -⟩ := hk
  by_contra hlt
  rw [hbefore j (by omega)] at hj
  cases hj

/-- The scan of `M.Z2I` over a written table finds the first index. -/
theorem z2iBody_firstIndex {z : F64} {h : Nat → F64} {s : State} (hz : f64IsNaN z = false) (hv : s.armValid = true)
    (hpz : ∀ i, i < 128 → cellRead s.pz i = some (h i)) :
    ∃ k, FirstIndex h z k ∧ z2iBody z s = .ok { noResult with int := some (BitVec.ofNat 32 k) } := by
  obtain ⟨k, hscan, hfound⟩ := scanHeights_ok (i := 0) (n := 128) (z := z) fun j hj => hpz j (by omega)
  refine ⟨k, ?_, ?_⟩
  · rcases hfound with ⟨-, hlt, hle, hbefore⟩ | ⟨rfl, hnone⟩
    · exact ⟨by omega, fun j hj => hbefore j (by omega) hj, .inl hle⟩
    · exact ⟨le_rfl, fun j hj => hnone j (by omega) (by omega), .inr rfl⟩
  · rw [z2iBody, if_neg (by simp [hz]), if_neg (by simp [hv])]
    exact bind_of_ok hscan

/-- Settles O55. -/
theorem z2iReturnsTheFirstIndex : Obligations.Z2iReturnsTheFirstIndex := by
  intro z h s hz hv hpz
  obtain ⟨k, ⟨hk, hbefore, hfound⟩, hbody⟩ := z2iBody_firstIndex hz hv hpz
  obtain ⟨t, ht, hkeeps, hanswer⟩ := mapper_returns hbody s
  exact ⟨t, k, ht, hkeeps, hanswer, hk, hbefore, hfound⟩

/-- The index of `M.Z2I` as a function of the table and the height. -/
def firstIndex (h : Nat → F64) (z : F64) : Nat := ((List.range 127).find? fun j => f64Le z (h j)).getD 127

theorem firstIndex_spec (h : Nat → F64) (z : F64) : FirstIndex h z (firstIndex h z) := by
  unfold firstIndex
  cases hfind : (List.range 127).find? fun j => f64Le z (h j) with
  | none =>
    refine ⟨le_rfl, fun j hj => ?_, .inr rfl⟩
    simpa using List.find?_eq_none.1 hfind j (List.mem_range.2 hj)
  | some k =>
    obtain ⟨hle, hmem, hbefore⟩ := List.find?_range_eq_some.1 hfind
    have hk : k < 127 := List.mem_range.1 hmem
    exact ⟨by simp only [Option.getD_some]; omega, fun j hj => by simpa using hbefore j hj, .inl hle⟩

/-- There is one first index. -/
theorem FirstIndex.unique {h : Nat → F64} {z : F64} {k k' : Nat} (hk : FirstIndex h z k) (hk' : FirstIndex h z k') :
    k = k' := by
  have hle : ∀ {a b}, FirstIndex h z a → FirstIndex h z b → a ≤ b := fun ha hb => by
    rcases hb.2.2 with hfound | rfl
    · exact ha.le hfound
    · exact ha.1
  exact Nat.le_antisymm (hle hk hk') (hle hk' hk)

theorem f64Le_refl {x : F64} (h : f64IsNaN x = false) : f64Le x x = true := (f64Le_iff x x).2 ⟨h, h, le_rfl⟩

theorem f64Le_trans {x y z : F64} (hxy : f64Le x y = true) (hyz : f64Le y z = true) : f64Le x z = true := by
  obtain ⟨hx, -, hle⟩ := (f64Le_iff x y).1 hxy
  obtain ⟨-, hz, hle'⟩ := (f64Le_iff y z).1 hyz
  exact (f64Le_iff x z).2 ⟨hx, hz, hle.trans hle'⟩

theorem f64Le_eq_false_of_lt {x y : F64} (h : f64Lt x y = true) : f64Le y x = false := by
  obtain ⟨-, -, hlt⟩ := (f64Lt_iff x y).1 h
  rw [← Bool.not_eq_true, f64Le_iff]
  omega

/-- Every entry of a table a run can hold is finite (R183). -/
theorem entry_finite {h : Nat → F64} {s : State} (hinv : Inv s) (hv : s.armValid = true)
    (hpz : ∀ i, i < 128 → cellRead s.pz i = some (h i)) {i : Nat} (hi : i < 128) : f64Finite (h i) = true := by
  obtain ⟨l1, l2, l3, l4, -, -, -, -, -, htable, hfin⟩ := hinv.armed hv
  have hread := hpz i hi
  rw [htable, cellRead_cellsOf] at hread
  exact List.all_eq_true.1 hfin _ (List.mem_of_getElem? hread)

/-- Settles O56: each law is about the first index; the last needs no order of the table. -/
theorem z2iInversionLaws : Obligations.Z2iInversionLaws := by
  intro h s hinv hv hpz
  have hfirst := firstIndex_spec h
  refine ⟨firstIndex h, fun z hz => ?answers, fun k hk => ?entry, fun z _ habove => ?above, fun z hz => ?below,
    fun _ z z' hzz' => ?mono⟩
  case answers =>
    obtain ⟨k, hk, hbody⟩ := z2iBody_firstIndex hz hv hpz
    obtain ⟨t, ht, -, hstatus, -, hresult, -⟩ := mapper_returns hbody s
    rw [(hfirst z).unique hk]
    exact ⟨t, ht, hstatus, congrArg Result.int hresult, hk.1⟩
  case entry =>
    exact (hfirst (h k)).le (f64Le_refl ((f64Finite_iff _).1 (entry_finite hinv hv hpz hk)).1)
  case above =>
    obtain ⟨hle, -, hfound | h127⟩ := hfirst z
    · rw [f64Le_eq_false_of_lt (habove _ (by omega))] at hfound
      cases hfound
    · exact h127
  case below => exact Nat.le_zero.1 ((hfirst z).le hz)
  case mono =>
    obtain ⟨-, -, hfound | h127⟩ := hfirst z'
    · exact (hfirst z).le (f64Le_trans hzz' hfound)
    · rw [h127]; exact (hfirst z).1

end Sys2Proof.Claims
end

section
/-! Rounding to an integer, whichever way a midpoint goes (R11). -/

namespace Sys2Proof.Machine

section
variable (m : Config.Midpoint) {num den : Nat}

/-- Rounding to an integer errs by at most a half. -/
theorem divRoundMidpoint_err (h : 0 < den) :
    2 * (divRoundMidpoint m num den * den) ≤ 2 * num + den ∧
      2 * num ≤ 2 * (divRoundMidpoint m num den * den) + den := by
  cases m with
  | toEven => exact divRoundEven_err num h
  | awayFromZero =>
    have hn : num / den * den + num % den = num := Nat.div_add_mod' num den
    have hr : num % den < den := Nat.mod_lt _ h
    unfold divRoundMidpoint
    split
    · omega
    split
    all_goals
      simp only [Nat.add_mul, Nat.one_mul]
      omega

/-- A value below `k` and a half rounds to at most `k`. -/
theorem divRoundMidpoint_le {k : Nat} (hden : 0 < den) (h : 2 * num < 2 * (k * den) + den) :
    divRoundMidpoint m num den ≤ k := by
  obtain ⟨herr, -⟩ := divRoundMidpoint_err m (num := num) hden
  by_contra hlt
  have hmul := Nat.mul_le_mul_right den (Nat.lt_of_not_le hlt)
  rw [Nat.succ_mul] at hmul
  omega

theorem divRoundMidpoint_zero (hden : 0 < den) : divRoundMidpoint m 0 den = 0 :=
  Nat.le_zero.1 (divRoundMidpoint_le m hden (by omega))

/-- A value above `k` less a half rounds to at least `k`. -/
theorem le_divRoundMidpoint {k : Nat} (hden : 0 < den) (h : 2 * (k * den) < 2 * num + den) :
    k ≤ divRoundMidpoint m num den := by
  obtain ⟨-, herr⟩ := divRoundMidpoint_err m (num := num) hden
  by_contra hlt
  have hmul := Nat.mul_le_mul_right den (Nat.lt_of_not_le hlt)
  rw [Nat.succ_mul] at hmul
  omega

theorem divRoundMidpoint_mono {num' : Nat} (hden : 0 < den) (h : num ≤ num') :
    divRoundMidpoint m num den ≤ divRoundMidpoint m num' den := by
  obtain ⟨herr, -⟩ := divRoundMidpoint_err m (num := num) hden
  obtain ⟨-, herr'⟩ := divRoundMidpoint_err m (num := num') hden
  by_contra hlt
  have hmul := Nat.mul_le_mul_right den (Nat.lt_of_not_le hlt)
  rw [Nat.succ_mul] at hmul
  have heq : num = num' := by omega
  rw [heq] at hlt
  exact hlt le_rfl

end

/-- Of a value halfway between `k` and `k + 1` the midpoint rule chooses (R11). -/
theorem divRoundMidpoint_half {num den k : Nat} (hden : 0 < den) (h : 2 * num = 2 * (k * den) + den) :
    divRoundMidpoint .toEven num den = k + k % 2 ∧ divRoundMidpoint .awayFromZero num den = k + 1 := by
  have hdiv : num / den = k := Nat.div_eq_of_lt_le (by omega) (by rw [Nat.succ_mul]; omega)
  have hmod : 2 * (num % den) = den := by
    have hn := Nat.div_add_mod' num den
    rw [hdiv] at hn
    omega
  unfold divRoundMidpoint
  rw [if_neg (by omega), if_neg (by omega), hdiv]
  exact ⟨rfl, if_neg (by omega) |>.trans (if_neg (by omega))⟩

end Sys2Proof.Machine
end

section
/-! Sums as signed rounding: the order of the exact sum is the order of the rounded one (R11). -/

namespace Sys2Proof.Machine

/-- A number of units of either sign rounded to the nearest binary64 value, as the order `f64Key` counts values. -/
def roundInt (n : Int) : Int := if 0 ≤ n then roundUnits n.natAbs 1 else -(roundUnits n.natAbs 1 : Int)

@[simp] theorem roundInt_zero : roundInt 0 = 0 := by simp [roundInt]

theorem roundInt_mono {a b : Int} (h : a ≤ b) : roundInt a ≤ roundInt b := by
  unfold roundInt
  split
  · rw [if_pos (by omega), Nat.cast_le]
    exact roundUnits_mono Nat.one_pos (by omega)
  split
  · omega
  · rw [neg_le_neg_iff, Nat.cast_le]
    exact roundUnits_mono Nat.one_pos (by omega)

theorem f64Key_of_nonneg {x : F64} (h : f64Neg x = false) : f64Key x = f64Mag x := by rw [f64Key, h]; rfl

theorem f64Key_of_neg {x : F64} (h : f64Neg x = true) : f64Key x = -(f64Mag x : Int) := by rw [f64Key, h]; rfl

theorem natAbs_f64Key (x : F64) : (f64Key x).natAbs = f64Mag x := by
  cases h : f64Neg x with
  | false => rw [f64Key_of_nonneg h, Int.natAbs_natCast]
  | true => rw [f64Key_of_neg h, Int.natAbs_neg, Int.natAbs_natCast]

theorem f64Mag_le_of_key {x y : F64} (h0 : 0 ≤ f64Key x) (h : f64Key x ≤ f64Key y) : f64Mag x ≤ f64Mag y := by
  rw [← natAbs_f64Key, ← natAbs_f64Key]
  omega

/-- Values that are equal in the order have the same units. -/
theorem f64Units_eq_of_key {x y : F64} (h : f64Key x = f64Key y) : f64Units x = f64Units y :=
  le_antisymm ((f64Key_le_iff x y).1 h.le) ((f64Key_le_iff y x).1 h.ge)

theorem f64Units_of_neg {x : F64} (h : f64Neg x = true) : f64Units x = -(magUnits (f64Mag x) : Int) := by
  rw [f64Units, h]; rfl

/-- Rounding is exact on a finite value. -/
theorem roundInt_units {x : F64} (hx : f64Finite x = true) : roundInt (f64Units x) = f64Key x := by
  have hround : roundUnits (magUnits (f64Mag x)) 1 = f64Mag x := by
    simpa using roundUnits_exact Nat.one_pos ((f64Finite_iff_lt x).1 hx).le
  cases h : f64Neg x with
  | false => rw [f64Units_of_nonneg h, f64Key_of_nonneg h, roundInt, if_pos (by omega), Int.natAbs_natCast, hround]
  | true =>
    rw [f64Units_of_neg h, f64Key_of_neg h, roundInt, Int.natAbs_neg, Int.natAbs_natCast, hround]
    split
    · have hzero : magUnits (f64Mag x) = 0 := by omega
      rw [hzero, roundUnits_zero 1 Nat.one_pos] at hround
      omega
    · rfl

theorem f64Key_pack (neg : Bool) {k : Nat} (h : k < 2 ^ 63) :
    f64Key (f64Pack neg k) = if neg then -(k : Int) else k := by
  rw [f64Key, f64Neg_pack neg h, f64Mag_pack neg h]

/-- A sum of finite values is the exact sum rounded once (R11). -/
theorem f64Key_add {x y : F64} (hx : f64Finite x = true) (hy : f64Finite y = true) :
    f64Key (f64Add x y) = roundInt (f64Units x + f64Units y) := by
  obtain ⟨x1, x2⟩ := (f64Finite_iff x).1 hx
  obtain ⟨y1, y2⟩ := (f64Finite_iff y).1 hy
  simp only [f64Add, x1, x2, y1, y2, Bool.or_self, Bool.false_eq_true, if_false]
  split
  · rename_i h0
    rw [f64Key_pack _ (by decide), h0]
    simp [roundInt]
  · rw [f64Key_pack _ (Nat.lt_of_le_of_lt (roundUnits_le_infMag _ _) (by decide)), roundInt]
    by_cases hneg : f64Units x + f64Units y < 0
    · rw [if_pos (by simpa using hneg), if_neg (by omega)]
    · rw [if_neg (by simpa using hneg), if_pos (by omega)]

theorem f64Finite_negate {x : F64} (hx : f64Finite x = true) : f64Finite (f64Negate x) = true := by
  rwa [f64Finite_iff_lt, f64Mag_negate, ← f64Finite_iff_lt]

theorem f64Key_sub {x y : F64} (hx : f64Finite x = true) (hy : f64Finite y = true) :
    f64Key (f64Sub x y) = roundInt (f64Units x - f64Units y) := by
  rw [f64Sub, f64Key_add hx (f64Finite_negate hy), f64Units_negate, Int.sub_eq_add_neg]

theorem f64IsNaN_sub {x y : F64} (hx : f64Finite x = true) (hy : f64Finite y = true) :
    f64IsNaN (f64Sub x y) = false := by
  rw [f64IsNaN_eq_false, f64Sub, f64Mag_add hx (f64Finite_negate hy)]
  exact roundUnits_le_infMag _ _

/-- Values between two finite ones are finite. -/
theorem f64Finite_of_key {lo x hi : F64} (hlo : f64Finite lo = true) (hhi : f64Finite hi = true)
    (h : f64Key lo ≤ f64Key x) (h' : f64Key x ≤ f64Key hi) : f64Finite x = true := by
  rw [f64Finite_iff_lt] at *
  rw [← natAbs_f64Key] at *
  omega

end Sys2Proof.Machine
end

section
/-! `M.A2R` for every valid ServoDefinition: the raw value as a function of the offset `ac - min`, which is
non-decreasing and ends at 0 and 1000, also where the formula overflows (R181, R190; log entry 11). -/

namespace Sys2Proof.Machine

/-! ### The error of one rounding -/

/-- A result that does not overflow errs by at most half the spacing, which is one unit or at most `2^-52` of the
quotient. -/
theorem roundUnits_err {num den : Nat} (h : 0 < den) (hfin : roundUnits num den < infMag) :
    ∃ e, 2 * (magUnits (roundUnits num den) * den) ≤ 2 * num + e ∧
      2 * num ≤ 2 * (magUnits (roundUnits num den) * den) + e ∧ (e = den ∨ 2 ^ 52 * e ≤ num) := by
  obtain ⟨s, d, hr, hd, hs, hdef, -, hge⟩ := roundUnits_scaled num h
  have hr : roundUnits num den = s * 2 ^ 52 + d := by omega
  have hunits : magUnits (roundUnits num den) * den = d * (den * 2 ^ s) := by
    rw [hr, magUnits_scaled hd hs]
    ring
  obtain ⟨herr, herr'⟩ := divRoundEven_err num (Nat.mul_pos h (Nat.two_pow_pos s))
  rw [← hdef] at herr herr'
  rw [hunits]
  refine ⟨den * 2 ^ s, herr, herr', ?_⟩
  rcases hge with rfl | hge
  · exact .inl (by rw [pow_zero, Nat.mul_one])
  · right
    rw [Nat.pow_add] at hge
    linarith

/-- A whole number of units that does not overflow rounds with a relative error of at most `2^-53`. -/
theorem roundUnits_relErr {num den : Nat} (h : 0 < den) (hdvd : den ∣ num) (hfin : roundUnits num den < infMag) :
    2 ^ 53 * (magUnits (roundUnits num den) * den) ≤ (2 ^ 53 + 1) * num ∧
      (2 ^ 53 - 1) * num ≤ 2 ^ 53 * (magUnits (roundUnits num den) * den) := by
  obtain ⟨e, hle, hge, rfl | he⟩ := roundUnits_err h hfin
  · obtain ⟨n, rfl⟩ := hdvd
    have hexact : magUnits (roundUnits (e * n) e) = n := by
      refine Nat.le_antisymm (Nat.le_of_lt_succ ?_) (Nat.le_of_lt_succ ?_) <;>
        refine Nat.lt_of_mul_lt_mul_right (a := e) ?_
      all_goals
        rw [Nat.succ_mul]
        linarith
    rw [hexact, Nat.mul_comm n]
    omega
  · omega

section
variable {p w c k : Nat} (hw : 0 < w)
include hw

/-- A quotient of at most `k` quarters rounds to at most `k` quarters, if these are a binary64 value. -/
theorem quarters_le (h : 4 * p ≤ k * w) (hc : 4 * magUnits c = k * unitsPerOne) :
    4 * magUnits (roundUnits (p * unitsPerOne) w) ≤ k * unitsPerOne := by
  rw [← hc]
  refine Nat.mul_le_mul_left 4 (magUnits_le (roundUnits_le hw (Nat.le_of_mul_le_mul_left (c := 4) ?_ (by decide))))
  calc 4 * (p * unitsPerOne) = 4 * p * unitsPerOne := by ring
    _ ≤ k * w * unitsPerOne := Nat.mul_le_mul_right _ h
    _ = 4 * magUnits c * w := by rw [hc]; ring
    _ = 4 * (magUnits c * w) := by ring

/-- A quotient of at least `k` quarters rounds to at least `k` quarters, if these are a binary64 value. -/
theorem le_quarters (h : k * w ≤ 4 * p) (hc : 4 * magUnits c = k * unitsPerOne) (hfin : c ≤ infMag) :
    k * unitsPerOne ≤ 4 * magUnits (roundUnits (p * unitsPerOne) w) := by
  rw [← hc]
  refine Nat.mul_le_mul_left 4 (magUnits_le (le_roundUnits hw hfin (Nat.le_of_mul_le_mul_left (c := 4) ?_ (by decide))))
  calc 4 * (magUnits c * w) = 4 * magUnits c * w := by ring
    _ = k * w * unitsPerOne := by rw [hc]; ring
    _ ≤ 4 * p * unitsPerOne := Nat.mul_le_mul_right _ h
    _ = 4 * (p * unitsPerOne) := by ring

end

/-! ### The formula on magnitudes -/

/-- The magnitude of `1000 * d` (R181). -/
def scaledMag (d : Nat) : Nat := roundUnits (1000 * unitsPerOne * magUnits d) unitsPerOne

/-- The magnitude of `(1000 * d) / w` where the product does not overflow (R181). -/
def quotientMag (w d : Nat) : Nat := roundUnits (magUnits (scaledMag d) * unitsPerOne) (magUnits w)

/-- `round((1000 * d) / w)` where the product does not overflow (R181). -/
def roundedRaw (m : Config.Midpoint) (w d : Nat) : Nat := divRoundMidpoint m (magUnits (quotientMag w d)) unitsPerOne

theorem scaledMag_mono {d d' : Nat} (h : d ≤ d') : scaledMag d ≤ scaledMag d' :=
  roundUnits_mono unitsPerOne_pos (Nat.mul_le_mul_left _ (magUnits_le h))

@[simp] theorem scaledMag_zero : scaledMag 0 = 0 := by
  rw [scaledMag, magUnits_zero, Nat.mul_zero, roundUnits_zero _ unitsPerOne_pos]

/-- The product is 1000 times the offset, but for one rounding. -/
theorem scaledMag_bounds {d : Nat} (h : scaledMag d < infMag) :
    4 * magUnits (scaledMag d) ≤ 4001 * magUnits d ∧ 3999 * magUnits d ≤ 4 * magUnits (scaledMag d) := by
  have hdvd : unitsPerOne ∣ 1000 * unitsPerOne * magUnits d := ⟨1000 * magUnits d, by ring⟩
  obtain ⟨hle, hge⟩ := roundUnits_relErr unitsPerOne_pos hdvd h
  rw [← scaledMag] at hle hge
  constructor
  · refine Nat.le_of_mul_le_mul_right (c := unitsPerOne) ?_ unitsPerOne_pos
    have h1 : 1000 * unitsPerOne * magUnits d = 1000 * (magUnits d * unitsPerOne) := by ring
    rw [Nat.mul_assoc, Nat.mul_assoc]
    omega
  · refine Nat.le_of_mul_le_mul_right (c := unitsPerOne) ?_ unitsPerOne_pos
    have h1 : 1000 * unitsPerOne * magUnits d = 1000 * (magUnits d * unitsPerOne) := by ring
    rw [Nat.mul_assoc, Nat.mul_assoc]
    omega

section
variable {w d d' : Nat} (hw : 0 < magUnits w)
include hw

theorem quotientMag_mono (h : d ≤ d') : quotientMag w d ≤ quotientMag w d' :=
  roundUnits_mono hw (Nat.mul_le_mul_right _ (magUnits_le (scaledMag_mono h)))

theorem roundedRaw_mono (m : Config.Midpoint) (h : d ≤ d') : roundedRaw m w d ≤ roundedRaw m w d' :=
  divRoundMidpoint_mono m unitsPerOne_pos (magUnits_le (quotientMag_mono hw h))

theorem quotientMag_zero : quotientMag w 0 = 0 := by
  rw [quotientMag, scaledMag_zero, magUnits_zero, Nat.zero_mul, roundUnits_zero _ hw]

theorem roundedRaw_zero (m : Config.Midpoint) : roundedRaw m w 0 = 0 := by
  rw [roundedRaw, quotientMag_zero hw, magUnits_zero, divRoundMidpoint_zero m unitsPerOne_pos]

/-- The quotient of an offset in the range is at most 1000.25, which is a binary64 value. -/
theorem quotientMag_le (hd : d ≤ w) (h : scaledMag d < infMag) :
    4 * magUnits (quotientMag w d) ≤ 4001 * unitsPerOne := by
  obtain ⟨hle, -⟩ := scaledMag_bounds h
  exact quarters_le hw (hle.trans (Nat.mul_le_mul_left _ (magUnits_le hd)))
    (show 4 * magUnits 0x408F420000000000 = _ by decide +kernel)

/-- The quotient of the whole range is at least 999.75, which is a binary64 value. -/
theorem le_quotientMag (h : scaledMag w < infMag) : 3999 * unitsPerOne ≤ 4 * magUnits (quotientMag w w) := by
  obtain ⟨-, hge⟩ := scaledMag_bounds h
  exact le_quarters hw hge (show 4 * magUnits 0x408F3E0000000000 = _ by decide +kernel) (by decide)

theorem roundedRaw_le (m : Config.Midpoint) (hd : d ≤ w) (h : scaledMag d < infMag) : roundedRaw m w d ≤ 1000 := by
  have hle := quotientMag_le hw hd h
  have hpos := unitsPerOne_pos
  exact divRoundMidpoint_le m hpos (by omega)

theorem roundedRaw_whole (m : Config.Midpoint) (h : scaledMag w < infMag) : roundedRaw m w w = 1000 := by
  have hge := le_quotientMag hw h
  have hpos := unitsPerOne_pos
  exact Nat.le_antisymm (roundedRaw_le hw m le_rfl h) (le_divRoundMidpoint m hpos (by omega))

end

/-! ### The free value where the product overflows -/

/-- The whole part of `num / den`, or one more where the rest reaches the threshold `θ` gives for it (log entry 11). -/
def thresholdRound (θ : Nat → Nat) (num den : Nat) : Nat :=
  num / den + if (θ (num / den) % (2 ^ 20 - 1) + 1) * den ≤ num % den * 2 ^ 20 then 1 else 0

theorem thresholdRound_mono (θ : Nat → Nat) {num num' den : Nat} (h : num ≤ num') :
    thresholdRound θ num den ≤ thresholdRound θ num' den := by
  have hdiv : num / den ≤ num' / den := Nat.div_le_div_right h
  unfold thresholdRound
  rcases hdiv.lt_or_eq with hlt | heq
  · split <;> omega
  · have hmod : num % den ≤ num' % den := by
      have hn := Nat.div_add_mod num den
      have hn' := Nat.div_add_mod num' den
      rw [heq] at hn
      omega
    rw [heq]
    split
    · rename_i hrest
      rw [if_pos (hrest.trans (Nat.mul_le_mul_right _ hmod))]
    · omega

/-- A whole quotient is its own value: the threshold is above 0. -/
theorem thresholdRound_mul (θ : Nat → Nat) (k : Nat) {den : Nat} (h : 0 < den) :
    thresholdRound θ (k * den) den = k := by
  have hpos : 0 < (θ k % (2 ^ 20 - 1) + 1) * den := Nat.mul_pos (Nat.succ_pos _) h
  rw [thresholdRound, Nat.mul_mod_left, Nat.mul_div_cancel _ h, if_neg (by omega), Nat.add_zero]

/-! ### The raw value of an offset -/

/-- The raw value of the offset of magnitude `d` in a range of magnitude `w`, with the thresholds `θ` (R181). -/
def rawOfOffset (m : Config.Midpoint) (θ : Nat → Nat) (w d : Nat) : Nat :=
  if scaledMag d < infMag then roundedRaw m w d
  else max (roundedRaw m w (f64Mag a2rWidest)) (thresholdRound θ (1000 * magUnits d) (magUnits w))

/-- The widest offset does not overflow. -/
theorem scaledMag_widest : scaledMag (f64Mag a2rWidest) < infMag := by decide +kernel

theorem scaledMag_past_widest : scaledMag (f64Mag a2rWidest + 1) = infMag := by decide +kernel

/-- The product overflows past the widest offset and nowhere else. -/
theorem scaledMag_finite_iff {d : Nat} : scaledMag d < infMag ↔ d ≤ f64Mag a2rWidest := by
  constructor
  · intro h
    by_contra hlt
    have hmono := scaledMag_mono (Nat.lt_of_not_le hlt)
    rw [Nat.succ_eq_add_one, scaledMag_past_widest] at hmono
    omega
  · exact fun h => (scaledMag_mono h).trans_lt scaledMag_widest

theorem widest_lt {d : Nat} (h : ¬ scaledMag d < infMag) : f64Mag a2rWidest < d := by
  rwa [scaledMag_finite_iff, Nat.not_le] at h

section
variable (m : Config.Midpoint) (θ : Nat → Nat) {w d d' : Nat} (hw : 0 < magUnits w)
include hw

theorem rawOfOffset_zero : rawOfOffset m θ w 0 = 0 := by
  rw [rawOfOffset, scaledMag_zero, if_pos (by decide), roundedRaw_zero hw]

theorem thresholdRound_le (hd : d ≤ w) : thresholdRound θ (1000 * magUnits d) (magUnits w) ≤ 1000 :=
  (thresholdRound_mono θ (Nat.mul_le_mul_left _ (magUnits_le hd))).trans_eq (thresholdRound_mul θ 1000 hw)

theorem rawOfOffset_le (hd : d ≤ w) : rawOfOffset m θ w d ≤ 1000 := by
  unfold rawOfOffset
  split
  · exact roundedRaw_le hw m hd ‹_›
  · exact max_le (roundedRaw_le hw m ((widest_lt ‹_›).le.trans hd) scaledMag_widest) (thresholdRound_le θ hw hd)

theorem rawOfOffset_whole : rawOfOffset m θ w w = 1000 := by
  by_cases h : scaledMag w < infMag
  · rw [rawOfOffset, if_pos h, roundedRaw_whole hw m h]
  · rw [rawOfOffset, if_neg h, thresholdRound_mul θ 1000 hw]
    exact max_eq_right (roundedRaw_le hw m (widest_lt h).le scaledMag_widest)

theorem rawOfOffset_mono (h : d ≤ d') : rawOfOffset m θ w d ≤ rawOfOffset m θ w d' := by
  unfold rawOfOffset
  by_cases hd' : scaledMag d' < infMag
  · rw [if_pos ((scaledMag_mono h).trans_lt hd'), if_pos hd']
    exact roundedRaw_mono hw m h
  rw [if_neg hd']
  by_cases hd : scaledMag d < infMag
  · rw [if_pos hd]
    exact le_max_of_le_left (roundedRaw_mono hw m (scaledMag_finite_iff.1 hd))
  · rw [if_neg hd]
    exact max_le_max_left _ (thresholdRound_mono θ (Nat.mul_le_mul_left _ (magUnits_le h)))

end

end Sys2Proof.Machine
end

section
/-! The raw value of `M.A2R` is that of the offset `ac - min`, and the offset follows the angle (R181, R190). -/

namespace Sys2Proof.Machine

open Sys2Proof.Claims

/-! ### The offset of a clamped angle -/

/-- `ac - min` (R181). -/
def a2rOffset (angle mn mx : F64) : F64 := f64Sub (f64Clamp angle mn mx) mn

section
variable {mn mx a : F64} (h : ValidDefinition mn mx) (ha : f64IsNaN a = false)
include h ha

/-- The clamp in the order of the values (R11). -/
theorem f64Key_clamp : f64Key (f64Clamp a mn mx) = max (f64Key mn) (min (f64Key mx) (f64Key a)) := by
  obtain ⟨hmn, hmx, hlt, -⟩ := h
  obtain ⟨hmnNaN, hmxNaN, hkey⟩ := (f64Lt_iff mn mx).1 hlt
  have hbelow : f64Lt a mn = true ↔ f64Key a < f64Key mn := by simp [f64Lt_iff, ha, hmnNaN]
  have habove : f64Lt mx a = true ↔ f64Key mx < f64Key a := by simp [f64Lt_iff, ha, hmxNaN]
  unfold f64Clamp
  split
  · rename_i hc
    have := hbelow.1 hc
    omega
  · rename_i hc
    rw [hbelow] at hc
    split
    · rename_i hc'
      have := habove.1 hc'
      omega
    · rename_i hc'
      rw [habove] at hc'
      omega

theorem f64Clamp_finite : f64Finite (f64Clamp a mn mx) = true := by
  have hkey := f64Key_clamp h ha
  obtain ⟨hmn, hmx, hlt, -⟩ := h
  obtain ⟨-, -, hlt⟩ := (f64Lt_iff mn mx).1 hlt
  exact f64Finite_of_key hmn hmx (by omega) (by omega)

theorem f64Key_offset : f64Key (a2rOffset a mn mx) = roundInt (f64Units (f64Clamp a mn mx) - f64Units mn) :=
  f64Key_sub (f64Clamp_finite h ha) h.1

/-- The offset is from 0 to the range of the definition. -/
theorem f64Key_offset_bounds :
    0 ≤ f64Key (a2rOffset a mn mx) ∧ f64Key (a2rOffset a mn mx) ≤ f64Key (f64Sub mx mn) := by
  have hkey := f64Key_clamp h ha
  rw [f64Key_offset h ha, f64Key_sub h.2.1 h.1]
  obtain ⟨-, -, hlt⟩ := (f64Lt_iff mn mx).1 h.2.2.1
  have hlo : f64Units mn ≤ f64Units (f64Clamp a mn mx) := (f64Key_le_iff _ _).1 (by omega)
  have hhi : f64Units (f64Clamp a mn mx) ≤ f64Units mx := (f64Key_le_iff _ _).1 (by omega)
  refine ⟨?_, roundInt_mono (by omega)⟩
  simpa using roundInt_mono (show (0 : Int) ≤ f64Units (f64Clamp a mn mx) - f64Units mn by omega)

theorem f64Mag_offset_le : f64Mag (a2rOffset a mn mx) ≤ f64Mag (f64Sub mx mn) := by
  obtain ⟨h0, hle⟩ := f64Key_offset_bounds h ha
  exact f64Mag_le_of_key h0 hle

/-- An angle at or below `min` has no offset. -/
theorem f64Key_offset_of_le (hle : f64Key a ≤ f64Key mn) : f64Key (a2rOffset a mn mx) = 0 := by
  have hkey := f64Key_clamp h ha
  obtain ⟨-, -, hlt⟩ := (f64Lt_iff mn mx).1 h.2.2.1
  rw [f64Key_offset h ha, f64Units_eq_of_key (show f64Key (f64Clamp a mn mx) = f64Key mn by omega), sub_self,
    roundInt_zero]

/-- An angle at or above `max` has the whole range as offset. -/
theorem f64Key_offset_of_ge (hge : f64Key mx ≤ f64Key a) :
    f64Key (a2rOffset a mn mx) = f64Key (f64Sub mx mn) := by
  have hkey := f64Key_clamp h ha
  obtain ⟨-, -, hlt⟩ := (f64Lt_iff mn mx).1 h.2.2.1
  rw [f64Key_offset h ha, f64Key_sub h.2.1 h.1,
    f64Units_eq_of_key (show f64Key (f64Clamp a mn mx) = f64Key mx by omega)]

theorem f64Key_offset_mono {a' : F64} (ha' : f64IsNaN a' = false) (hle : f64Key a ≤ f64Key a') :
    f64Key (a2rOffset a mn mx) ≤ f64Key (a2rOffset a' mn mx) := by
  have hkey := f64Key_clamp h ha
  have hkey' := f64Key_clamp h ha'
  rw [f64Key_offset h ha, f64Key_offset h ha']
  have hunits : f64Units (f64Clamp a mn mx) ≤ f64Units (f64Clamp a' mn mx) := (f64Key_le_iff _ _).1 (by omega)
  exact roundInt_mono (by omega)

end

/-- The range of a valid definition is above zero (D25). -/
theorem magUnits_range_pos {mn mx : F64} (h : ValidDefinition mn mx) : 0 < magUnits (f64Mag (f64Sub mx mn)) := by
  obtain ⟨hmn, hmx, hlt, -⟩ := h
  obtain ⟨-, -, hlt⟩ := (f64Lt_iff mn mx).1 hlt
  have hunits : f64Units mn < f64Units mx := by
    rw [← not_le, ← f64Key_le_iff]
    omega
  have hmag : 1 ≤ f64Mag (f64Sub mx mn) := by
    rw [f64Sub, f64Mag_add hmx (f64Finite_negate hmn), f64Units_negate]
    have hone : magUnits 1 * 1 = 1 := by decide
    exact le_roundUnits Nat.one_pos (by decide) (by omega)
  exact magUnits_strictMono hmag

/-! ### The formula at an offset -/

theorem f64Mag_of_neg {x : F64} (h : 0 ≤ f64Key x) (hneg : f64Neg x = true) : f64Mag x = 0 := by
  rw [f64Key_of_neg hneg] at h
  omega

theorem f64Key_nonneg {x : F64} (h : f64Neg x = true → f64Mag x = 0) : 0 ≤ f64Key x := by
  cases hneg : f64Neg x with
  | false => rw [f64Key_of_nonneg hneg]; omega
  | true => rw [f64Key_of_neg hneg, h hneg]; rfl

/-- Rounding a value that is not below zero, `-0` among them. -/
theorem f64Round_of_key_nonneg (m : Config.Midpoint) {x : F64} (h : 0 ≤ f64Key x) :
    f64Round m x = divRoundMidpoint m (magUnits (f64Mag x)) unitsPerOne := by
  cases hneg : f64Neg x with
  | false => exact f64Round_of_nonneg m hneg
  | true =>
    rw [f64Round, hneg, f64Mag_of_neg h hneg, magUnits_zero, divRoundMidpoint_zero m unitsPerOne_pos]
    rfl

theorem f64IsZero_of_units_pos {x : F64} (h : 0 < magUnits (f64Mag x)) : f64IsZero x = false :=
  decide_eq_false fun hzero => by rw [hzero] at h; exact h.false

/-- `(1000 * d) / w` (R181). -/
def offsetQuotient (w d : F64) : F64 := f64Div (f64Mul (f64OfInt 1000) d) w

section
variable {w d : F64} (hd : f64Finite d = true)
include hd

theorem f64Mag_thousandfold : f64Mag (f64Mul (f64OfInt 1000) d) = scaledMag (f64Mag d) := by
  rw [f64Mag_mul (by decide +kernel) hd, show magUnits (f64Mag (f64OfInt 1000)) = 1000 * unitsPerOne by decide +kernel]
  rfl

theorem f64Neg_thousandfold : f64Neg (f64Mul (f64OfInt 1000) d) = f64Neg d := by
  rw [f64Neg_mul (by decide +kernel) hd, show f64Neg (f64OfInt 1000) = false by decide +kernel, Bool.false_bne]

theorem thousandfold_finite_iff : f64Finite (f64Mul (f64OfInt 1000) d) = true ↔ scaledMag (f64Mag d) < infMag := by
  rw [f64Finite_iff_lt, f64Mag_thousandfold hd]

/-- The quotient is an infinity where the product is one. -/
theorem offsetQuotient_overflow (hw : f64Finite w = true) (h : ¬ scaledMag (f64Mag d) < infMag) :
    f64Finite (offsetQuotient w d) = false := by
  obtain ⟨w1, w2⟩ := (f64Finite_iff w).1 hw
  have hinf : f64Mag (f64Mul (f64OfInt 1000) d) = infMag := by
    rw [f64Mag_thousandfold hd]
    exact le_antisymm (roundUnits_le_infMag _ _) (Nat.le_of_not_lt h)
  have hnan : f64IsNaN (f64Mul (f64OfInt 1000) d) = false := (f64IsNaN_eq_false _).2 hinf.le
  have hisInf : f64IsInf (f64Mul (f64OfInt 1000) d) = true := decide_eq_true hinf
  simp only [offsetQuotient, f64Div, hnan, hisInf, w1, w2, Bool.or_self, Bool.false_eq_true, if_false, if_true]
  rw [← Bool.not_eq_true, f64Finite_iff_lt, f64Mag_pack _ (by decide)]
  exact lt_irrefl _

section
variable (hw : f64Finite w = true) (hpos : 0 < magUnits (f64Mag w)) (hfin : scaledMag (f64Mag d) < infMag)
include hw hpos hfin

theorem f64Mag_offsetQuotient : f64Mag (offsetQuotient w d) = quotientMag (f64Mag w) (f64Mag d) := by
  rw [offsetQuotient, f64Mag_div ((thousandfold_finite_iff hd).2 hfin) hw (f64IsZero_of_units_pos hpos),
    f64Mag_thousandfold hd]
  rfl

theorem f64Round_offsetQuotient (m : Config.Midpoint) (h0 : 0 ≤ f64Key d) (hw0 : 0 ≤ f64Key w) :
    f64Round m (offsetQuotient w d) = roundedRaw m (f64Mag w) (f64Mag d) := by
  have hmag := f64Mag_offsetQuotient hd hw hpos hfin
  have hwneg : f64Neg w = false := by
    by_contra hneg
    rw [f64Mag_of_neg hw0 (by simpa using hneg), magUnits_zero] at hpos
    exact hpos.false
  have hneg : f64Neg (offsetQuotient w d) = f64Neg d := by
    rw [offsetQuotient, f64Neg_div ((thousandfold_finite_iff hd).2 hfin) hw (f64IsZero_of_units_pos hpos),
      f64Neg_thousandfold hd, hwneg, Bool.bne_false]
  have hkey : 0 ≤ f64Key (offsetQuotient w d) := f64Key_nonneg fun h => by
    rw [hmag, f64Mag_of_neg h0 (hneg.symm.trans h), quotientMag_zero hpos]
  rw [f64Round_of_key_nonneg m hkey, hmag]
  rfl

theorem offsetQuotient_finite (hle : f64Mag d ≤ f64Mag w) : f64Finite (offsetQuotient w d) = true := by
  rw [f64Finite_iff_lt, f64Mag_offsetQuotient hd hw hpos hfin]
  by_contra h
  have hinf : 4 * magUnits infMag ≤ 4001 * unitsPerOne :=
    (Nat.mul_le_mul_left 4 (magUnits_le (Nat.le_of_not_lt h))).trans (quotientMag_le hpos hle hfin)
  exact absurd hinf (by decide +kernel)

end

end

/-! ### The raw value of an angle -/

/-- `round(v)` of R181 as a number, with the model's thresholds for the definition (log entry 11). -/
def a2rRaw (m : Config.Midpoint) (angle mn mx : F64) : Nat :=
  rawOfOffset m (Config.a2rThreshold mn mx) (f64Mag (f64Sub mx mn)) (f64Mag (a2rOffset angle mn mx))

theorem a2rValue_eq (m : Config.Midpoint) {angle mn mx : F64} (h : ValidDefinition mn mx)
    (ha : f64IsNaN angle = false) : a2rValue m angle mn mx = BitVec.ofNat 32 (a2rRaw m angle mn mx) := by
  have hw := h.2.2.2
  have hpos := magUnits_range_pos h
  obtain ⟨h0, hle⟩ := f64Key_offset_bounds h ha
  have hw0 : 0 ≤ f64Key (f64Sub mx mn) := h0.trans hle
  have hd : f64Finite (a2rOffset angle mn mx) = true :=
    f64Finite_of_key (lo := 0#64) (by decide) hw h0 hle
  have hmag := f64Mag_offset_le h ha
  have hquotient : a2rQuotient angle mn mx = offsetQuotient (f64Sub mx mn) (a2rOffset angle mn mx) := rfl
  rw [a2rValue, hquotient, a2rRaw, rawOfOffset]
  by_cases hfin : scaledMag (f64Mag (a2rOffset angle mn mx)) < infMag
  · rw [if_pos (offsetQuotient_finite hd hw hpos hfin hmag), if_pos hfin,
      f64Round_offsetQuotient hd hw hpos hfin m h0 hw0, BitVec.ofInt_natCast]
  · have hwidest : f64Round m (f64Div (f64Mul (f64OfInt 1000) a2rWidest) (f64Sub mx mn)) =
        roundedRaw m (f64Mag (f64Sub mx mn)) (f64Mag a2rWidest) :=
      f64Round_offsetQuotient (by decide) hw hpos scaledMag_widest m (by decide) hw0
    rw [if_neg (by simp [offsetQuotient_overflow hd hw hfin]), if_neg hfin, a2rOverflow, hwidest, Int.toNat_natCast]
    rfl

section
variable (m : Config.Midpoint) {mn mx a : F64} (h : ValidDefinition mn mx) (ha : f64IsNaN a = false)
include h ha

theorem a2rRaw_le : a2rRaw m a mn mx ≤ 1000 :=
  rawOfOffset_le m _ (magUnits_range_pos h) (f64Mag_offset_le h ha)

theorem a2rValue_toNat : (a2rValue m a mn mx).toNat = a2rRaw m a mn mx := by
  rw [a2rValue_eq m h ha, BitVec.toNat_ofNat, Nat.mod_eq_of_lt ((a2rRaw_le m h ha).trans_lt (by decide))]

theorem a2rRaw_of_le_min (hle : f64Key a ≤ f64Key mn) : a2rRaw m a mn mx = 0 := by
  rw [a2rRaw, ← natAbs_f64Key (a2rOffset a mn mx), f64Key_offset_of_le h ha hle]
  exact rawOfOffset_zero m _ (magUnits_range_pos h)

theorem a2rRaw_of_max_le (hge : f64Key mx ≤ f64Key a) : a2rRaw m a mn mx = 1000 := by
  rw [a2rRaw, ← natAbs_f64Key (a2rOffset a mn mx), f64Key_offset_of_ge h ha hge, natAbs_f64Key]
  exact rawOfOffset_whole m _ (magUnits_range_pos h)

theorem a2rRaw_mono {a' : F64} (ha' : f64IsNaN a' = false) (hle : f64Key a ≤ f64Key a') :
    a2rRaw m a mn mx ≤ a2rRaw m a' mn mx := by
  obtain ⟨h0, -⟩ := f64Key_offset_bounds h ha
  exact rawOfOffset_mono m _ (magUnits_range_pos h) (f64Mag_le_of_key h0 (f64Key_offset_mono h ha ha' hle))

end

end Sys2Proof.Machine

namespace Sys2Proof.Claims

open Sys2Proof.Machine

/-- What `M.A2R` answers for a valid definition and an angle that is a number. -/
theorem exec_mA2r_valid {angle mn mx : F64} (h : ValidDefinition mn mx) (ha : f64IsNaN angle = false) (s : State) :
    ∃ t, exec (.mA2r angle mn mx) s = .next t ∧ t.status = 0x00#8 ∧
      t.result.int = some (a2rValue s.params.numeric.midpoint angle mn mx) := by
  obtain ⟨t, ht, -, hstatus, -, hresult, -⟩ := mapper_returns (a2rBody_valid s.params.numeric.midpoint h ha) s
  exact ⟨t, ht, hstatus, congrArg Result.int hresult⟩

/-- Settles O49: an offset of the range gives at most 1000, no offset gives 0, and the whole range gives 1000. -/
theorem a2rStaysInRange : Obligations.A2rStaysInRange := by
  intro angle mn mx s h ha
  obtain ⟨t, ht, hstatus, hint⟩ := exec_mA2r_valid h ha s
  refine ⟨t, _, ht, hstatus, hint, ?_, fun hle => ?_, fun hge => ?_⟩
  · rw [a2rValue_toNat _ h ha]
    exact a2rRaw_le _ h ha
  · obtain ⟨-, -, hkey⟩ := (f64Le_iff angle mn).1 hle
    rw [a2rValue_eq _ h ha, a2rRaw_of_le_min _ h ha hkey]
  · obtain ⟨-, -, hkey⟩ := (f64Le_iff mx angle).1 hge
    rw [a2rValue_eq _ h ha, a2rRaw_of_max_le _ h ha hkey]

/-- Settles O50: clamping, the rounded subtraction and the raw value of an offset are each non-decreasing. -/
theorem a2rIsMonotonic : Obligations.A2rIsMonotonic := by
  intro a a' mn mx s t t' r r' h hle ht ht' hr hr'
  obtain ⟨ha, ha', hkey⟩ := (f64Le_iff a a').1 hle
  obtain ⟨u, hu, -, hint⟩ := exec_mA2r_valid h ha s
  obtain ⟨u', hu', -, hint'⟩ := exec_mA2r_valid h ha' s
  cases hu.symm.trans ht
  cases hu'.symm.trans ht'
  rw [← Option.some.inj (hint.symm.trans hr), ← Option.some.inj (hint'.symm.trans hr'),
    a2rValue_toNat _ h ha, a2rValue_toNat _ h ha']
  exact a2rRaw_mono _ h ha ha' hkey

end Sys2Proof.Claims
end

section
/-! `M.TETA` divides by the operand of larger magnitude, so the arctangent is taken on `[-1, 1]` (R188). -/

namespace Sys2Proof.Claims

open Sys2Proof.Machine

/-! ### Magnitudes -/

theorem f64Key_abs (x : F64) : f64Key (f64Abs x) = f64Mag x := by
  rw [f64Abs, f64Key_pack _ (f64Mag_lt x)]
  rfl

theorem f64IsNaN_of_finite {x : F64} (h : f64Finite x = true) : f64IsNaN x = false := ((f64Finite_iff x).1 h).1

theorem f64Le_abs_iff {x y : F64} (hx : f64Finite x = true) (hy : f64Finite y = true) :
    f64Le (f64Abs x) (f64Abs y) = true ↔ f64Mag x ≤ f64Mag y := by
  have hnan : ∀ {z : F64}, f64Finite z = true → f64IsNaN (f64Abs z) = false := fun {z} hz => by
    rw [f64IsNaN_eq_false, f64Mag_abs]
    exact ((f64Finite_iff_lt z).1 hz).le
  simp [f64Le_iff, hnan hx, hnan hy, f64Key_abs]

/-- A quotient by the operand of larger magnitude is within `[-1, 1]`. -/
theorem f64Abs_div_le_one {x y : F64} (hx : f64Finite x = true) (hy : f64Finite y = true) (h0 : f64IsZero x = false)
    (hle : f64Mag y ≤ f64Mag x) : f64Le (f64Abs (f64Div y x)) (f64OfInt 1) = true := by
  have hpos : 0 < magUnits (f64Mag x) := magUnits_strictMono (Nat.pos_of_ne_zero (of_decide_eq_false h0))
  have hone : magUnits (f64Mag (f64OfInt 1)) = unitsPerOne := by decide +kernel
  have hmag : f64Mag (f64Div y x) ≤ f64Mag (f64OfInt 1) := by
    rw [f64Mag_div hy hx h0]
    refine roundUnits_le hpos ?_
    rw [hone, Nat.mul_comm unitsPerOne]
    exact Nat.mul_le_mul_right _ (magUnits_le hle)
  have hfin : f64Finite (f64OfInt 1) = true := by decide +kernel
  have hkey : f64Key (f64OfInt 1) = f64Mag (f64OfInt 1) := by decide +kernel
  refine (f64Le_iff _ _).2 ⟨?_, f64IsNaN_of_finite hfin, ?_⟩
  · rw [f64IsNaN_eq_false, f64Mag_abs]
    exact hmag.trans ((f64Finite_iff_lt _).1 hfin).le
  · rw [f64Key_abs, hkey]
    exact_mod_cast hmag

/-- A value whose magnitude is at most that of a positive bound is between the bound's negative and the bound. -/
theorem between_of_f64Le_abs {v b : F64} (hb : f64Finite b = true) (hb0 : f64Neg b = false)
    (h : f64Le (f64Abs v) b = true) :
    f64Finite v = true ∧ f64Key (f64Negate b) ≤ f64Key v ∧ f64Key v ≤ f64Key b := by
  obtain ⟨-, -, hkey⟩ := (f64Le_iff _ _).1 h
  have hneg : f64Key (f64Negate b) = -(f64Mag b : Int) := by
    rw [f64Key_of_neg (by rw [f64Neg_negate, hb0]; rfl), f64Mag_negate]
  rw [f64Key_abs, f64Key_of_nonneg hb0] at hkey
  rw [f64Finite_iff_lt] at hb ⊢
  rw [hneg, f64Key_of_nonneg hb0]
  have := natAbs_f64Key v
  omega

/-! ### The two branches -/

section
variable {n : Config.Numeric} (hn : atanOk n.atan = true)
include hn

theorem atan_negZero : f64Atan n (f64Negate 0#64) = f64Negate 0#64 := by
  simp only [atanOk, Bool.and_eq_true, decide_eq_true_eq] at hn
  exact hn.2

section
variable {x y : F64} (hx : f64Finite x = true) (hy : f64Finite y = true) (h0 : f64IsZero x = false)
  (hle : f64Mag y ≤ f64Mag x)
include hx hy h0 hle

theorem atan_div_between : f64Finite (f64Atan n (f64Div y x)) = true ∧
    f64Key (f64Negate f64QuarterPi) ≤ f64Key (f64Atan n (f64Div y x)) ∧
      f64Key (f64Atan n (f64Div y x)) ≤ f64Key f64QuarterPi :=
  between_of_f64Le_abs (by decide) (by decide) (atan_range hn (f64Abs_div_le_one hx hy h0 hle))

/-- The first branch is within `[-π/4, π/4]`. -/
theorem bearing_first : f64Le 0xBFE921FB54442D18#64 (f64Atan n (f64Div y x)) = true ∧
    f64Le (f64Atan n (f64Div y x)) 0x3FE921FB54442D18#64 = true := by
  obtain ⟨hfin, hlo, hhi⟩ := atan_div_between hn hx hy h0 hle
  have hnan := f64IsNaN_of_finite hfin
  exact ⟨(f64Le_iff _ _).2 ⟨by decide, hnan, hlo⟩, (f64Le_iff _ _).2 ⟨hnan, by decide, hhi⟩⟩

/-- The second branch is within `[π/4, 3π/4]`: both ends of the exact difference are binary64 values. -/
theorem bearing_second : f64Le 0x3FE921FB54442D18#64 (f64Sub f64HalfPi (f64Atan n (f64Div y x))) = true ∧
    f64Le (f64Sub f64HalfPi (f64Atan n (f64Div y x))) 0x4002D97C7F3321D2#64 = true := by
  obtain ⟨hfin, hlo, hhi⟩ := atan_div_between hn hx hy h0 hle
  have hnan := f64IsNaN_sub (x := f64HalfPi) (by decide) hfin
  have hkey := f64Key_sub (x := f64HalfPi) (by decide) hfin
  rw [f64Key_le_iff] at hlo hhi
  have hlow : f64Units 0x3FE921FB54442D18#64 = f64Units f64HalfPi - f64Units f64QuarterPi := by decide +kernel
  have hhigh : f64Units 0x4002D97C7F3321D2#64 = f64Units f64HalfPi - f64Units (f64Negate f64QuarterPi) := by
    decide +kernel
  refine ⟨(f64Le_iff _ _).2 ⟨by decide, hnan, ?_⟩, (f64Le_iff _ _).2 ⟨hnan, by decide, ?_⟩⟩
  · rw [hkey, ← roundInt_units (by decide), hlow]
    exact roundInt_mono (sub_le_sub_left hhi _)
  · rw [hkey, ← roundInt_units (x := 0x4002D97C7F3321D2#64) (by decide), hhigh]
    exact roundInt_mono (sub_le_sub_left hlo _)

end

end

/-! ### The operation -/

theorem exec_mTeta_valid {x y : F64} (s : State) (hx : f64Finite x = true) (hy : f64Finite y = true)
    (h0 : ¬ (f64IsZero x = true ∧ f64IsZero y = true)) :
    ∃ t, exec (.mTeta x y) s = .next t ∧ KeepsAll s t ∧
      AnswersOk { noResult with f64 := some (tetaValue s.params.numeric x y) } t :=
  mapper_returns (tetaBody_valid s.params.numeric hx hy h0) s

theorem exec_mTeta_f64 {x y v : F64} (s : State) (hx : f64Finite x = true) (hy : f64Finite y = true)
    (h0 : ¬ (f64IsZero x = true ∧ f64IsZero y = true)) (hv : tetaValue s.params.numeric x y = v) :
    ∃ t, exec (.mTeta x y) s = .next t ∧ t.result.f64 = some v := by
  obtain ⟨t, ht, -, -, -, hresult, -⟩ := exec_mTeta_valid s hx hy h0
  exact ⟨t, ht, by rw [hresult, ← hv]⟩

theorem tetaValue_first {n : Config.Numeric} {x y : F64} (h : f64Le (f64Abs y) (f64Abs x) = true) :
    tetaValue n x y = f64Atan n (f64Div y x) := if_pos h

theorem tetaValue_second {n : Config.Numeric} {x y : F64} (h : f64Le (f64Abs y) (f64Abs x) = false) :
    tetaValue n x y = f64Sub f64HalfPi (f64Atan n (f64Div x y)) := if_neg (by simp [h])

/-- Settles O59: the branch taken divides by the operand of larger magnitude, which is not zero. -/
theorem tetaChoosesTheLargerDivisor : Obligations.TetaChoosesTheLargerDivisor := by
  refine ⟨fun x y s hx hy h0 => ⟨fun hle => ?first, fun hlt => ?second⟩, fun s hn => ⟨?negX, ?negY⟩⟩
  case first =>
    have hmag := (f64Le_abs_iff hy hx).1 hle
    have hx0 : f64IsZero x = false := by
      simp only [f64IsZero_iff] at h0
      exact decide_eq_false (by omega)
    obtain ⟨t, ht, hkeeps, hanswer⟩ := exec_mTeta_valid s hx hy h0
    exact ⟨t, _, ht, hkeeps, hanswer, tetaValue_first hle,
      fun hn => tetaValue_first hle ▸ bearing_first hn hx hy hx0 hmag⟩
  case second =>
    have hmag : f64Mag x < f64Mag y := by
      rwa [← Bool.not_eq_true, f64Le_abs_iff hy hx, Nat.not_le] at hlt
    have hy0 : f64IsZero y = false := decide_eq_false (by omega)
    obtain ⟨t, ht, hkeeps, hanswer⟩ := exec_mTeta_valid s hx hy h0
    refine ⟨t, _, ht, hkeeps, hanswer, ?_, fun hn => ?_⟩
    · rw [tetaValue_second hlt, f64HalfPi_eq]
    · rw [tetaValue_second hlt]
      exact bearing_second hn hy hx hy0 hmag.le
  case negX =>
    refine exec_mTeta_f64 s (by decide) (by decide) (by decide) ?_
    have hdiv : f64Div 0#64 0xBFF0000000000000#64 = f64Negate 0#64 := by decide +kernel
    rw [tetaValue_first (by decide), hdiv, atan_negZero hn]
    decide
  case negY =>
    refine exec_mTeta_f64 s (by decide) (by decide) (by decide) ?_
    have hdiv : f64Div 0#64 0xBFF0000000000000#64 = f64Negate 0#64 := by decide +kernel
    rw [tetaValue_second (by decide), hdiv, atan_negZero hn]
    decide +kernel

end Sys2Proof.Claims
end

section
/-! `M.I2R`: `v` of R186 is within a sixteenth of `900 - 3.125 * i`, which decides its rounding beside a half, and exact
where that is a half. -/

namespace Sys2Proof.Machine

/-! ### Values as rationals, and the error of each operation -/

/-- The value of a finite magnitude. -/
def magValue (mag : Nat) : ℚ := magUnits mag / unitsPerOne

/-- `|x|` of a finite `x` as a rational. -/
def f64Value (x : F64) : ℚ := magValue (f64Mag x)

theorem unitsPerOne_cast_pos : (0 : ℚ) < unitsPerOne := by exact_mod_cast unitsPerOne_pos

theorem two_pow_le_unitsPerOne : (2 : ℚ) ^ 59 ≤ unitsPerOne := by
  have h := (Nat.cast_le (α := ℚ)).2 (show 2 ^ 59 ≤ unitsPerOne by decide +kernel)
  rwa [Nat.cast_pow, Nat.cast_ofNat] at h

theorem magUnits_cast (mag : Nat) : (magUnits mag : ℚ) = magValue mag * unitsPerOne :=
  (div_mul_cancel₀ _ unitsPerOne_cast_pos.ne').symm

/-- A magnitude whose units are a whole multiple `a / b` of the units in 1. -/
theorem f64Value_eq {x : F64} {a b : Nat} (hb : 0 < b) (h : magUnits (f64Mag x) * b = a * unitsPerOne) :
    f64Value x = a / b := by
  rw [f64Value, magValue, div_eq_div_iff unitsPerOne_cast_pos.ne' (by exact_mod_cast hb.ne')]
  exact_mod_cast h

/-- `x` is `q` but for one rounding. -/
def RoundsTo (q x : ℚ) : Prop := x ≤ q + (q / 2 ^ 53 + 1 / 2 ^ 60) ∧ q ≤ x + (q / 2 ^ 53 + 1 / 2 ^ 60)

theorem roundUnits_roundsTo {num den : Nat} {q : ℚ} (h : 0 < den) (hfin : roundUnits num den < infMag)
    (hq : (num : ℚ) = q * unitsPerOne * den) : RoundsTo q (magValue (roundUnits num den)) := by
  obtain ⟨e, hle, hge, he⟩ := roundUnits_err h hfin
  have hupper : 2 ^ 53 * (magUnits (roundUnits num den) * den) ≤ 2 ^ 53 * num + (num + 2 ^ 52 * den) := by omega
  have hlower : 2 ^ 53 * num ≤ 2 ^ 53 * (magUnits (roundUnits num den) * den) + (num + 2 ^ 52 * den) := by omega
  have hpos : (0 : ℚ) < unitsPerOne * den := mul_pos unitsPerOne_cast_pos (by exact_mod_cast h)
  have hden : (2 : ℚ) ^ 59 * den ≤ unitsPerOne * den :=
    mul_le_mul_of_nonneg_right two_pow_le_unitsPerOne (Nat.cast_nonneg _)
  have hupper := (Nat.cast_le (α := ℚ)).2 hupper
  have hlower := (Nat.cast_le (α := ℚ)).2 hlower
  push_cast at hupper hlower
  rw [magUnits_cast, hq] at hupper hlower
  exact ⟨le_of_mul_le_mul_right (by linarith) hpos, le_of_mul_le_mul_right (by linarith) hpos⟩

section
variable {x y : F64} (hx : f64Finite x = true) (hy : f64Finite y = true)
include hx hy

theorem f64Value_mul (hfin : f64Finite (f64Mul x y) = true) :
    RoundsTo (f64Value x * f64Value y) (f64Value (f64Mul x y)) := by
  rw [f64Finite_iff_lt, f64Mag_mul hx hy] at hfin
  rw [f64Value.eq_def (f64Mul x y), f64Mag_mul hx hy]
  refine roundUnits_roundsTo unitsPerOne_pos hfin ?_
  push_cast
  rw [magUnits_cast, magUnits_cast, f64Value, f64Value]
  ring

theorem f64Value_div (h0 : f64IsZero y = false) (hfin : f64Finite (f64Div x y) = true) :
    RoundsTo (f64Value x / f64Value y) (f64Value (f64Div x y)) := by
  have hpos : 0 < magUnits (f64Mag y) := magUnits_strictMono (Nat.pos_of_ne_zero (of_decide_eq_false h0))
  have hcast : (0 : ℚ) < magUnits (f64Mag y) := by exact_mod_cast hpos
  rw [magUnits_cast] at hcast
  have hval : magValue (f64Mag y) ≠ 0 := ((pos_iff_pos_of_mul_pos hcast).2 unitsPerOne_cast_pos).ne'
  rw [f64Finite_iff_lt, f64Mag_div hx hy h0] at hfin
  rw [f64Value.eq_def (f64Div x y), f64Mag_div hx hy h0]
  refine roundUnits_roundsTo hpos hfin ?_
  push_cast
  rw [magUnits_cast, magUnits_cast, f64Value, f64Value]
  generalize (unitsPerOne : ℚ) = u
  field_simp

/-- The difference of two values that are not negative, where it is not negative. -/
theorem f64Value_sub (hxn : f64Neg x = false) (hyn : f64Neg y = false) (hle : f64Mag y ≤ f64Mag x)
    (hfin : f64Finite (f64Sub x y) = true) : RoundsTo (f64Value x - f64Value y) (f64Value (f64Sub x y)) := by
  have hmag : f64Mag (f64Sub x y) = roundUnits (magUnits (f64Mag x) - magUnits (f64Mag y)) 1 := by
    rw [f64Sub, f64Mag_add hx (f64Finite_negate hy), f64Units_negate, f64Units_of_nonneg hxn, f64Units_of_nonneg hyn]
    congr 1
    have := magUnits_le hle
    omega
  rw [f64Finite_iff_lt, hmag] at hfin
  rw [f64Value.eq_def (f64Sub x y), hmag]
  refine roundUnits_roundsTo Nat.one_pos hfin ?_
  rw [Nat.cast_sub (magUnits_le hle), magUnits_cast, magUnits_cast, f64Value, f64Value, Nat.cast_one]
  ring

end

/-! ### The quotient of `M.I2R` -/

theorem f64Value_ofInt {i : Nat} (hfin : f64Finite (f64OfInt i) = true) : RoundsTo i (f64Value (f64OfInt i)) := by
  have hmag : f64Mag (f64OfInt i) = roundUnits (i * unitsPerOne) 1 := by
    rw [f64OfInt, f64Mag_pack _ (Nat.lt_of_le_of_lt (roundUnits_le_infMag _ _) (by decide)), Int.natAbs_natCast]
  rw [f64Finite_iff_lt, hmag] at hfin
  rw [f64Value, hmag]
  refine roundUnits_roundsTo Nat.one_pos hfin ?_
  rw [Nat.cast_mul, Nat.cast_one, mul_one]

theorem f64Value_halfPi : f64Value f64HalfPi = 0x1921FB54442D18 / 0x10000000000000 := by
  simpa using f64Value_eq (x := f64HalfPi) (a := 0x1921FB54442D18) (b := 0x10000000000000) (by decide)
    (by decide +kernel)

theorem f64Value_128 : f64Value (f64OfInt 128) = 128 := by
  simpa using f64Value_eq (x := f64OfInt 128) (a := 128) Nat.one_pos (by decide +kernel)

theorem f64Value_400 : f64Value (f64OfInt 400) = 400 := by
  simpa using f64Value_eq (x := f64OfInt 400) (a := 400) Nat.one_pos (by decide +kernel)

theorem f64Value_900 : f64Value (f64OfInt 900) = 900 := by
  simpa using f64Value_eq (x := f64OfInt 900) (a := 900) Nat.one_pos (by decide +kernel)

/-- `(a / (PI / 2)) * 400` (R186). -/
def i2rTerm (i : Nat) : F64 := f64Mul (f64Div (alphaOf i) f64HalfPi) (f64OfInt 400)

/-- The term taken from 900 is `3.125 * i` but for five roundings. -/
theorem i2rTerm_near {i : Nat} (hi : i ≤ 127) :
    NonnegUpTo (i2rTerm 127) (i2rTerm i) ∧ f64Value (i2rTerm i) ≤ 25 / 8 * (i : ℚ) + 1 / 32 ∧
      25 / 8 * (i : ℚ) ≤ f64Value (i2rTerm i) + 1 / 32 := by
  have hindex : NonnegUpTo (f64OfInt (127 : Nat)) (f64OfInt i) := nonnegUpTo_ofInt hi
  have hratio := hindex.div (y := f64OfInt 128) (by decide +kernel) (by decide +kernel) (by decide +kernel)
    (by decide +kernel)
  have halpha : NonnegUpTo (alphaOf 127) (alphaOf i) :=
    hratio.mul (y := f64HalfPi) (by decide +kernel) (by decide) (by decide)
  have hback := halpha.div (y := f64HalfPi) (by decide +kernel) (by decide) (by decide) (by decide)
  have hterm : NonnegUpTo (i2rTerm 127) (i2rTerm i) :=
    hback.mul (y := f64OfInt 400) (by decide +kernel) (by decide +kernel) (by decide +kernel)
  refine ⟨hterm, ?_⟩
  have index_fin := hindex.finite (by decide +kernel)
  have ratio_fin := hratio.finite (by decide +kernel)
  have alpha_fin := halpha.finite (by decide +kernel)
  have back_fin := hback.finite (by decide +kernel)
  have index_near := f64Value_ofInt index_fin
  have ratio_near := f64Value_div index_fin (by decide +kernel) (by decide +kernel) ratio_fin
  have alpha_near : RoundsTo _ (f64Value (alphaOf i)) := f64Value_mul ratio_fin (by decide) alpha_fin
  have back_near := f64Value_div alpha_fin (by decide) (by decide) back_fin
  have term_near : RoundsTo _ (f64Value (i2rTerm i)) :=
    f64Value_mul back_fin (by decide +kernel) (hterm.finite (by decide +kernel))
  rw [f64Value_128] at ratio_near
  rw [f64Value_halfPi] at alpha_near back_near
  rw [f64Value_400] at term_near
  have hcast : (i : ℚ) ≤ 127 := by exact_mod_cast hi
  have hnonneg : (0 : ℚ) ≤ i := Nat.cast_nonneg i
  obtain ⟨index_le, index_ge⟩ := index_near
  obtain ⟨ratio_le, ratio_ge⟩ := ratio_near
  obtain ⟨alpha_le, alpha_ge⟩ := alpha_near
  obtain ⟨back_le, back_ge⟩ := back_near
  obtain ⟨term_le, term_ge⟩ := term_near
  constructor <;> linarith

/-- `v` of R186 is `900 - 3.125 * i` but for six roundings. -/
theorem i2rQuotient_near {i : Nat} (hi : i ≤ 127) :
    f64Value (i2rQuotient i) ≤ 900 - 25 / 8 * (i : ℚ) + 1 / 16 ∧
      900 - 25 / 8 * (i : ℚ) ≤ f64Value (i2rQuotient i) + 1 / 16 := by
  obtain ⟨hterm, term_le, term_ge⟩ := i2rTerm_near hi
  have term_fin := hterm.finite (by decide +kernel)
  obtain ⟨hneg, hmag⟩ := hterm
  have hle : f64Mag (i2rTerm i) ≤ f64Mag (f64OfInt 900) := hmag.trans (by decide +kernel)
  obtain ⟨-, -, hbelow⟩ := f64Sub_bounds (c := f64OfInt 900) (d := 0#64) (by decide +kernel) (by decide +kernel)
    (by decide) term_fin hneg (by rw [show magUnits (f64Mag 0#64) = 0 by decide, Nat.zero_add]; exact magUnits_le hle)
  have hfin : f64Finite (i2rQuotient i) = true := (f64Finite_iff_lt _).2 (hbelow.trans_lt (by decide +kernel))
  have hnear : RoundsTo (f64Value (f64OfInt 900) - f64Value (i2rTerm i)) (f64Value (i2rQuotient i)) :=
    f64Value_sub (by decide +kernel) term_fin (by decide +kernel) hneg hle hfin
  rw [f64Value_900] at hnear
  obtain ⟨near_le, near_ge⟩ := hnear
  have hcast : (i : ℚ) ≤ 127 := by exact_mod_cast hi
  have hnonneg : (0 : ℚ) ≤ i := Nat.cast_nonneg i
  constructor <;> linarith

/-- At the index of a half the quotient is exact (R186). -/
theorem i2rQuotient_half : ∀ j, j < 16 →
    8 * magUnits (f64Mag (i2rQuotient (8 * j + 4))) = (7200 - 25 * (8 * j + 4)) * unitsPerOne := by
  decide +kernel

/-! ### Its rounding -/

/-- What is within a sixteenth of `n / 8` rounds as `n / 8` does, which is no half. -/
theorem divRoundMidpoint_of_near (m : Config.Midpoint) {num den n : Nat} (hden : 0 < den) (hn : n % 8 ≠ 4)
    (hhi : 16 * num ≤ 2 * (n * den) + den) (hlo : 2 * (n * den) ≤ 16 * num + den) :
    divRoundMidpoint m num den = (n + 4) / 8 := by
  obtain ⟨k, r, hk, hr⟩ : ∃ k r, n + 4 = 8 * k + r ∧ 1 ≤ r ∧ r ≤ 7 :=
    ⟨(n + 4) / 8, (n + 4) % 8, by omega, by omega⟩
  have hdiv : (n + 4) / 8 = k := by omega
  have hbelow : (n + 1) * den ≤ (8 * k + 4) * den := Nat.mul_le_mul_right _ (by omega)
  have habove : 8 * k * den ≤ (n + 3) * den := Nat.mul_le_mul_right _ (by omega)
  rw [Nat.add_mul, Nat.add_mul, Nat.mul_assoc] at hbelow
  rw [Nat.add_mul, Nat.mul_assoc] at habove
  rw [hdiv]
  exact Nat.le_antisymm (divRoundMidpoint_le m hden (by omega)) (le_divRoundMidpoint m hden (by omega))

/-- The quotient in exact units: within a sixteenth of `900 - 3.125 * i`. -/
theorem i2rQuotient_units_near {i : Nat} (hi : i ≤ 127) :
    16 * magUnits (f64Mag (i2rQuotient i)) ≤ 2 * ((7200 - 25 * i) * unitsPerOne) + unitsPerOne ∧
      2 * ((7200 - 25 * i) * unitsPerOne) ≤ 16 * magUnits (f64Mag (i2rQuotient i)) + unitsPerOne := by
  obtain ⟨hle, hge⟩ := i2rQuotient_near hi
  have hle := mul_le_mul_of_nonneg_right hle unitsPerOne_cast_pos.le
  have hge := mul_le_mul_of_nonneg_right hge unitsPerOne_cast_pos.le
  rw [f64Value, ← magUnits_cast] at hle
  rw [f64Value, add_mul, ← magUnits_cast] at hge
  have hsub : ((7200 - 25 * i : Nat) : ℚ) = 7200 - 25 * (i : ℚ) := by
    rw [Nat.cast_sub (by omega)]
    norm_num
  rw [← Nat.cast_le (α := ℚ), ← Nat.cast_le (α := ℚ)]
  push_cast [hsub]
  constructor <;> linarith

/-- `round(v)` of R186. -/
def i2rRaw (m : Config.Midpoint) (i : Nat) : Nat := divRoundMidpoint m (magUnits (f64Mag (i2rQuotient i))) unitsPerOne

section
variable {i : Nat} (hi : i ≤ 127)
include hi

theorem i2rRaw_range (m : Config.Midpoint) : 503 ≤ i2rRaw m i ∧ i2rRaw m i ≤ 900 := by
  obtain ⟨-, hlo, hhi⟩ := i2rQuotient_bounds hi
  exact divRoundMidpoint_bounds m unitsPerOne_pos hlo hhi

/-- Beside a half the raw value is the nearest integer. -/
theorem i2rRaw_beside (m : Config.Midpoint) (h : i % 8 ≠ 4) : i2rRaw m i = (7200 - 25 * i + 4) / 8 := by
  have hn : (7200 - 25 * i) % 8 ≠ 4 := by omega
  obtain ⟨hhi, hlo⟩ := i2rQuotient_units_near hi
  exact divRoundMidpoint_of_near m unitsPerOne_pos hn hhi hlo

/-- At a half the midpoint rule chooses. -/
theorem i2rRaw_half (h : i % 8 = 4) : ∃ k, 8 * k + 4 = 7200 - 25 * i ∧
    i2rRaw .toEven i = k + k % 2 ∧ i2rRaw .awayFromZero i = k + 1 := by
  obtain ⟨k, hk⟩ : ∃ k, 8 * k + 4 = 7200 - 25 * i := ⟨(7200 - 25 * i) / 8, by omega⟩
  have hj : 8 * (i / 8) + 4 = i := by omega
  have hj16 : i / 8 < 16 := by omega
  have hexact := i2rQuotient_half (i / 8) hj16
  rw [hj, ← hk, Nat.add_mul, Nat.mul_assoc] at hexact
  exact ⟨k, hk, divRoundMidpoint_half unitsPerOne_pos (by omega)⟩

end

end Sys2Proof.Machine

namespace Sys2Proof.Claims

open Sys2Proof.Machine

theorem i2rBody_valid (m : Config.Midpoint) {i : Byte} (hi : i.toNat ≤ 127) :
    i2rBody m i = .ok { noResult with int := some (BitVec.ofNat 32 (i2rRaw m i.toNat)) } := by
  obtain ⟨hneg, -, -⟩ := i2rQuotient_bounds hi
  rw [i2rBody, if_neg (by omega), f64Round_of_nonneg m hneg, BitVec.ofInt_natCast]
  rfl

/-- Settles O57: beside a half the sixteenth does not matter, and at a half the quotient is exact. -/
theorem i2rMapsTheIndex : Obligations.I2rMapsTheIndex := by
  intro i s hi
  obtain ⟨t, ht, hkeeps, hanswer⟩ := mapper_returns (i2rBody_valid s.params.numeric.midpoint hi) s
  obtain ⟨h503, h900⟩ := i2rRaw_range hi s.params.numeric.midpoint
  refine ⟨t, _, ht, hkeeps, hanswer, h503, h900, i2rRaw_beside hi _, fun h hm => ?away, fun h hm => ?even⟩
  case away =>
    obtain ⟨k, hk, -, haway⟩ := i2rRaw_half hi h
    rw [hm, haway, ← hk]
    omega
  case even =>
    obtain ⟨k, hk, heven, -⟩ := i2rRaw_half hi h
    rw [hm, heven, ← hk]
    omega

end Sys2Proof.Claims
end

section
/-! How a run ends: with a fault latched, or with a reserved selector refused (R38, R223 to R225). -/

namespace Sys2Proof.Claims

open Sys2Proof.Machine

/-! ### A faulting operation -/

/-- Settles O15: an operation either latches one fault over what its decode had cleared, or ends with an outcome; an outcome
leaves `FAULT`, which was empty. -/
theorem faultWritesNothingElse : Obligations.FaultWritesNothingElse := by
  intro i s t hf h ht
  rcases exec_next i s with ⟨n, he⟩ | ⟨u, code, info, res, he, -, -, hfaults, -⟩ <;> rw [he] at h <;> cases h
  case inl =>
    refine ⟨n, ?_⟩
    split <;> exact addFault_of_no_faults n hf
  case inr => exact absurd (hfaults.trans hf) ht

/-! ### A reserved selector -/

/-- The selectors the decoder knows are the 25 of R75, whatever bytes follow. -/
theorem decodeOperands_reserved {op : Nat} (h : op ∉ selectors) (bs : List Byte) :
    decodeOperands op bs = .error .reservedSelector := by
  unfold decodeOperands
  split
  case h_26 => rfl
  all_goals exact absurd (by decide) h

theorem takeRequest_of_reserved {r : Request} {s : State} (h : decode s.params.commands r = .error .reservedSelector) :
    takeRequest r s = .next (markRefused s) := by
  simp [takeRequest, h]

/-- Settles O5: the refusal sets only the ghost bit, and the step after it finds the bit set. -/
theorem reservedSelectorIsRefused : Obligations.ReservedSelectorIsRefused := by
  intro s op bs rs hf hr hq hop
  have hstep : step s = .next (markRefused (withRequests rs s)) :=
    (step_request hf hr hq).trans (takeRequest_of_reserved (decodeOperands_reserved hop bs))
  exact ⟨hstep, step_of_refused hf rfl⟩

end Sys2Proof.Claims
end
